-- ==== Sys2Proof/Word.lean ====
section
/-! DEFINITION. The word types of the HMAC-SHA1 core: 00_scope.md R10, R14, 10_state.md R20. -/

namespace Sys2Proof

/-- A 32-bit register or bus word (R20). -/
abbrev Word := BitVec 32

/-- A 64-bit quantity: counter, timestamp, period, candidate (R20). -/
abbrev DWord := BitVec 64

/-- A byte of a byte string (R12). -/
abbrev Byte := BitVec 8

/-- Five words: a SHA-1 chaining value or a digest (R46 to R48). -/
abbrev Digest := Vector Word 5

/-- Sixteen words: a SHA-1 message block or the key buffer (R49, R50). -/
abbrev Block := Vector Word 16

/-- The five-word array of zeros. -/
def Digest.zero : Digest := #v[0, 0, 0, 0, 0]

/-- The sixteen-word array of zeros. -/
def Block.zero : Block := #v[0, 0, 0, 0, 0, 0, 0, 0, 0, 0, 0, 0, 0, 0, 0, 0]

end Sys2Proof
end

