-- ==== Sys2Proof/Config.lean ====
section
/-! DEFINITION. What the spec leaves to the platform or draws freely: constants with no body, so no proof can see a value. -/

namespace Sys2Proof

/-- The number of the 4096-byte page the register window occupies (R60: `BASE` is OPEN, 4096-byte aligned; log entry 12). -/
opaque Config.basePage : Nat

/-- `BASE`, the platform address of the window (R60, D5), aligned by construction. -/
def Config.base : Nat := 4096 * Config.basePage

/-- The word the n-th free draw yields: the unspecified value of a read of a register the running command
writes (70_reset_and_hazards.md R211, 93 U6: `any value`, one draw a read). -/
opaque Config.freeRead : Nat → Word

/-- The number of host turns the n-th free draw puts between an acceptance and the engine's step (R7, R214, U8:
finite, no bound; DESIGN CHOICE). Used only where `State.delays` supplies no schedule (log entry 2). -/
opaque Config.engineDelay : Nat → Nat

end Sys2Proof
end

