-- ==== Sys2Proof/Syntax.lean ====
section
/-! DEFINITION. The eleven commands of the core: 30_encoding.md R81, one constructor per row of opcode_table.json. -/

namespace Sys2Proof

/-- A command. Commands carry no register numbers and no immediates (R80): every operand is an input register (R82). -/
inductive Instr where
  /-- `NOP`, code 0x0 (43_counter.md R160). -/
  | nop
  /-- `SHA_INIT`, code 0x1 (40_sha1.md R108). -/
  | shaInit
  /-- `SHA_BLOCK`, code 0x2 (40_sha1.md R109). -/
  | shaBlock
  /-- `KEY_SETUP`, code 0x3 (41_hmac.md R122). -/
  | keySetup
  /-- `HMAC_CTR`, code 0x4 (41_hmac.md R124). -/
  | hmacCtr
  /-- `TRUNC`, code 0x5 (42_truncation.md R141). -/
  | trunc
  /-- `HOTP`, code 0x6 (42_truncation.md R142). -/
  | hotp
  /-- `TSTEP`, code 0x7 (43_counter.md R151). -/
  | tstep
  /-- `TOTP_GEN`, code 0x8 (43_counter.md R153). -/
  | totpGen
  /-- `TOTP_VERIFY`, code 0x9 (43_counter.md R156). -/
  | totpVerify
  /-- `ZEROIZE`, code 0xF (41_hmac.md R126). -/
  | zeroize
  deriving DecidableEq, Repr

end Sys2Proof
end

