-- ==== Sys2Proof/WellFormed.lean ====
section
/-! DEFINITION. Which terms are well formed: commands (all of them, R80), command words (R81, R84) and bus transfers (R61). -/

namespace Sys2Proof

/-- A command has no operand field (R80), so every command is well formed. -/
def Instr.wellFormed (_ : Instr) : Bool := true

/-- `RSV = 0`: bits 31:4 of a command word are zero (R80). -/
def CommandWord.reservedClear (w : Word) : Bool := w.extractLsb' 4 28 == 0

/-- `CMD` is one of the eleven assigned codes, not 0xA to 0xE (R81). -/
def CommandWord.codeAssigned (w : Word) : Bool :=
  let c := (w.extractLsb' 0 4).toNat
  c ≤ 9 || c == 15

/-- A word that selects a command (R81: "A word selects a command only when `RSV = 0`"). -/
def CommandWord.wellFormed (w : Word) : Bool := CommandWord.reservedClear w && CommandWord.codeAssigned w

/-- R61: every transaction is 32 bits (4 bytes) wide. -/
def Transfer.sizeOk (size : Nat) : Bool := size == 4

/-- R61: at an offset that is a multiple of 4. -/
def Transfer.aligned (off : Nat) : Bool := off % 4 == 0

/-- R60: inside the 4096-byte window. -/
def Transfer.inWindow (off : Nat) : Bool := off < 4096

/-- A bus transfer the host can issue to the core (R60, R61). -/
def Transfer.wellFormed (off size : Nat) : Bool :=
  Transfer.sizeOk size && Transfer.aligned off && Transfer.inWindow off

end Sys2Proof
end

