-- ==== Sys2Proof/Decode.lean ====
section
/-! DEFINITION. The command word: decoder, total on all 2^32 words (30_encoding.md R80, R81, R84, R85), then the encoder. -/

namespace Sys2Proof

/-- Why a word selects no command (R84). Both complete with `IllegalCommand`. -/
inductive DecodeError where
  /-- `RSV != 0`: a bit of 31:4 is set. -/
  | reservedBits
  /-- `CMD` in 0xA to 0xE. -/
  | reservedCode
  deriving DecidableEq, Repr

/-- The `CMD` field, bits 3:0 (R80). -/
def cmdField (v : Word) : BitVec 4 := v.extractLsb' 0 4

/-- The `RSV` field, bits 31:4 (R80). -/
def rsvField (v : Word) : BitVec 28 := v.extractLsb' 4 28

/-- The opcode map read from code to command (R81). -/
def commandOf (c : BitVec 4) : Option Instr :=
  match c.toNat with
  | 0 => some .nop
  | 1 => some .shaInit
  | 2 => some .shaBlock
  | 3 => some .keySetup
  | 4 => some .hmacCtr
  | 5 => some .trunc
  | 6 => some .hotp
  | 7 => some .tstep
  | 8 => some .totpGen
  | 9 => some .totpVerify
  | 15 => some .zeroize
  | _ => none

/-- The decoder of R85: it needs nothing but the word. -/
def decode (v : Word) : Except DecodeError Instr :=
  if rsvField v = 0 then
    match commandOf (cmdField v) with
    | some i => .ok i
    | none => .error .reservedCode
  else .error .reservedBits

/-- The opcode map read from command to code (R81). -/
def cmdCode : Instr → BitVec 4
  | .nop => 0x0
  | .shaInit => 0x1
  | .shaBlock => 0x2
  | .keySetup => 0x3
  | .hmacCtr => 0x4
  | .trunc => 0x5
  | .hotp => 0x6
  | .tstep => 0x7
  | .totpGen => 0x8
  | .totpVerify => 0x9
  | .zeroize => 0xF

/-- R81: "the word for mnemonic M is exactly `zext_32(CMD(M))`". -/
def encode (i : Instr) : Word := (cmdCode i).setWidth 32

/-- What the decoder reads from a table row's word: the low `nbits` bits of `w`, bits above zero. A command is one
32-bit word, so a value of 2^32 or more is none. -/
def decodeTableWord (nbits w : Nat) : Option Instr :=
  let v := w % 2 ^ nbits
  if v < 2 ^ 32 then (decode (BitVec.ofNat 32 v)).toOption else none

end Sys2Proof
end

