-- ==== Sys2Proof/Machine/Bytes.lean ====
section
/-! DEFINITION. The byte view of word arrays and big-endian assembly: 00_scope.md R12, R14, 20_memory.md R62 to R65. -/

namespace Sys2Proof.Machine

/-- R14: byte j of a word is its bits `31 - 8j : 24 - 8j`, the most significant first. -/
def wordBytes (w : Word) : List Byte :=
  [w.extractLsb' 24 8, w.extractLsb' 16 8, w.extractLsb' 8 8, w.extractLsb' 0 8]

/-- R14: `bytes(A)`, the byte string of a word array. -/
def bytesOf (ws : List Word) : List Byte := ws.flatMap wordBytes

/-- R12: `BE32` of four bytes. -/
def be32 (a b c d : Byte) : Word := a ++ b ++ c ++ d

/-- `BE32(S[i..i+4])`: the big-endian word of bytes i to i+3 (R12, D47). A byte past the end reads 0; no rule asks for one (log entry 15). -/
def be32At (s : List Byte) (i : Nat) : Word :=
  be32 (s.getD i 0) (s.getD (i + 1) 0) (s.getD (i + 2) 0) (s.getD (i + 3) 0)

/-- R63: `BE64(v)`, eight bytes, most significant first. -/
def be64Bytes (v : DWord) : List Byte := wordBytes (v.extractLsb' 32 32) ++ wordBytes (v.extractLsb' 0 32)

/-- The words of a byte string, four bytes each, big-endian (R14, R62); a tail shorter than four bytes is dropped. -/
def wordsOf : List Byte → List Word
  | a :: b :: c :: d :: rest => be32 a b c d :: wordsOf rest
  | _ => []

/-- Sixteen words given by index. -/
def blockOf (f : Nat → Word) : Block :=
  #v[f 0, f 1, f 2, f 3, f 4, f 5, f 6, f 7, f 8, f 9, f 10, f 11, f 12, f 13, f 14, f 15]

/-- R65, R83: a 64-bit quantity from its halves, `_HI` holding bits 63:32. -/
def pair (hi lo : Word) : DWord := hi ++ lo

/-- R83: bits 63:32 of a 64-bit result. -/
def hiWord (v : DWord) : Word := v.extractLsb' 32 32

/-- R83: bits 31:0 of a 64-bit result. -/
def loWord (v : DWord) : Word := v.extractLsb' 0 32

end Sys2Proof.Machine
end

