-- ==== Sys2Proof/Machine/State.lean ====
section
/-! DEFINITION. The state of the core and of its two agents (00_scope.md R7, 10_state.md R20, 70_reset_and_hazards.md R200), as plain data. -/

namespace Sys2Proof.Machine

/-- The registers of the map of R20, by name. Register `NAMEi` is an array element. -/
inductive Reg where
  | id | ctrl | status | inten | cfg | keylen | window | candlen
  | timeLo | timeHi | periodLo | periodHi | counterLo | counterHi | candLo | candHi
  | matchctrLo | matchctrHi | dtval | code | offset
  | digest (i : Fin 5) | h (i : Fin 5) | block (i : Fin 16) | key (i : Fin 16)
  deriving DecidableEq, Repr

/-- The access classes of R53. -/
inductive Access where
  /-- RO: a write is ignored and never sets `BUSYERR`. -/
  | readOnly
  /-- Always-writable: `STATUS` (W1C fields) and `INTEN`. -/
  | always
  /-- Command-gated: a write while `BUSY = 1` is ignored and sets `BUSYERR`. -/
  | gated
  deriving DecidableEq, Repr

/-- The error codes of 60_exceptions.md R171. Codes 6 to 15 have no constructor: "never written". -/
inductive Err where
  | ok | invalidCodeLength | invalidPeriod | invalidKeyLength | keyNotSetup | illegalCommand
  deriving DecidableEq, Repr

/-- One thing the outside world does to the core (R56, R60, R91, R93, R201). Offsets are byte offsets from `BASE`. -/
inductive Input where
  /-- `MemWrite(BASE + off, size, v)` (R60). -/
  | write (off size : Nat) (v : Word)
  /-- `MemRead(BASE + off, size)` (R60). -/
  | read (off size : Nat)
  /-- `WAIT`: read `STATUS` until `BUSY = 0` (R93). -/
  | wait
  /-- The platform drives the `rst` line to `level` (R201). -/
  | reset (level : Bool)
  deriving DecidableEq, Repr

/-- The stored fields of `STATUS` (R24); its reserved bits are RAZ and hold nothing. -/
structure Status where
  busy : Bool
  done : Bool
  err : Bool
  vmatch : Bool
  keyvalid : Bool
  busyerr : Bool
  errcode : BitVec 4
  lastcmd : BitVec 4
  actlen : BitVec 4
  deriving DecidableEq, Repr

/-- The enable bits of `INTEN` (R34). -/
structure Inten where
  doneIe : Bool
  errIe : Bool
  busyerrIe : Bool
  deriving DecidableEq, Repr

/-- The machine: the architectural state of R20, the `rst` line, and the two agents' own data (log entries 1 to 3).
A register narrower than its word holds exactly its defined bits (R52, R53). The word arrays stand before the scalars, so
that Lean tells two updated states apart without computing a hash. -/
structure State where
  /-- `STATUS` (R24 to R33). -/
  status : Status
  /-- `DIGEST0..4` (R47). -/
  digest : Digest
  /-- `H0..4` (R48). -/
  h : Digest
  /-- `BLOCK0..15` (R49). -/
  block : Block
  /-- `KEY0..15` (R50). -/
  key : Block
  /-- The hidden pad states `IPAD_H`, `OPAD_H` (R46). -/
  ipadH : Digest
  opadH : Digest
  /-- `INTEN` (R34). -/
  inten : Inten
  /-- `CFG.CODELEN` (R36). -/
  codelen : BitVec 4
  /-- `KEYLEN` (R37). -/
  keylen : BitVec 7
  /-- `WINDOW` (R38). -/
  window : Word
  /-- `CANDLEN` (R39). -/
  candlen : BitVec 5
  /-- `TIME_LO`, `TIME_HI` (R40). -/
  timeLo : Word
  timeHi : Word
  /-- `PERIOD_LO`, `PERIOD_HI` (R41). -/
  periodLo : Word
  periodHi : Word
  /-- `COUNTER_LO`, `COUNTER_HI` (R42). -/
  counterLo : Word
  counterHi : Word
  /-- `CAND_LO`, `CAND_HI` (R43). -/
  candLo : Word
  candHi : Word
  /-- `MATCHCTR_LO`, `MATCHCTR_HI` (R44). -/
  matchctrLo : Word
  matchctrHi : Word
  /-- `DTVAL` (R45). -/
  dtval : BitVec 31
  /-- `CODE` (R45). -/
  code : Word
  /-- `OFFSET` (R45). -/
  offset : BitVec 4
  /-- The hidden latch `PENDING`, valid while `BUSY = 1` (R51). -/
  pending : Word
  /-- The level of the `rst` line (R201). -/
  rst : Bool
  /-- What the outside world has still to do, in its program order (R7, R92; log entry 1). -/
  inputs : List Input
  /-- What the host's reads returned, the newest first: (offset, `rdata`) (R56, R91; log entry 1). -/
  reads : List (Nat × Word)
  /-- The schedule: for each coming acceptance, the host turns before the engine's step (R7; log entry 2). -/
  delays : List Nat
  /-- Host turns left before the engine performs the pending command (R7, R214; log entry 2). -/
  delay : Nat
  /-- The free draws taken so far: the argument of the next one (R211; log entry 3). -/
  draws : Nat
  deriving DecidableEq, Repr

/-- Why a step faults. -/
inductive Fault where
  /-- Raised by a host read of `STATUS` whose `ERRCODE` is 6 to 15 (93_implementation_defined.md U14: "never written; a
  model that reads one has a bug: `fault`"; log entry 10). Safe: no run from reset reaches it. -/
  | reservedErrorCode
  deriving DecidableEq, Repr

/-- Why a step is refused. -/
inductive Refusal where
  /-- Raised by `exec` for a command with no meaning yet (none in this model). Safe. -/
  | notModelled (mnemonic : String)
  /-- Raised by a host transfer that is not 4 bytes wide (R61, U7: no step, the host is stuck; log entry 11). Safe. -/
  | transferSize
  /-- Raised by a host transfer whose offset is no multiple of 4 (R61, U7; log entry 11). Safe. -/
  | transferAlignment
  /-- Raised by a host transfer outside the window: not addressed to this core (R60; DESIGN CHOICE, log entry 11). Safe. -/
  | outsideWindow
  deriving DecidableEq, Repr

/-- The state right after reset (R200). `PENDING` is 0 (DESIGN CHOICE, log entry 7). The model's own fields: no input is due,
nothing was read, no schedule, no draw (DESIGN CHOICE, log entry 8). -/
def State.reset : State where
  status :=
    { busy := false, done := false, err := false, vmatch := false, keyvalid := false, busyerr := false
      errcode := 0, lastcmd := 0, actlen := 0 }
  digest := Digest.zero
  h := Digest.zero
  block := Block.zero
  key := Block.zero
  ipadH := Digest.zero
  opadH := Digest.zero
  inten := { doneIe := false, errIe := false, busyerrIe := false }
  codelen := 0
  keylen := 0
  window := 0
  candlen := 0
  timeLo := 0
  timeHi := 0
  periodLo := 0x0000001E
  periodHi := 0
  counterLo := 0
  counterHi := 0
  candLo := 0
  candHi := 0
  matchctrLo := 0
  matchctrHi := 0
  dtval := 0
  code := 0
  offset := 0
  pending := 0
  rst := false
  inputs := []
  reads := []
  delays := []
  delay := 0
  draws := 0

/-- One step's outcome on this machine. -/
abbrev Result := Host.Outcome State Fault Refusal

end Sys2Proof.Machine
end

