-- ==== Sys2Proof/Machine/Flags.lean ====
section
/-! DEFINITION. The `STATUS` and `INTEN` registers, `IRQ`, and how events change the flags: 10_state.md R24 to R35, R55,
60_exceptions.md R170 to R172, R182. There are no arithmetic condition codes (R55). -/

namespace Sys2Proof.Machine

/-- R171: the 4-bit code of an error. -/
def Err.code : Err → BitVec 4
  | .ok => 0
  | .invalidCodeLength => 1
  | .invalidPeriod => 2
  | .invalidKeyLength => 3
  | .keyNotSetup => 4
  | .illegalCommand => 5

/-- R24: the word `STATUS` reads as; bits 7:6 and 31:20 are RAZ. -/
def Status.word (s : Status) : Word :=
  (0 : BitVec 12) ++ s.actlen ++ s.lastcmd ++ s.errcode ++ (0 : BitVec 2) ++ BitVec.ofBool s.busyerr
    ++ BitVec.ofBool s.keyvalid ++ BitVec.ofBool s.vmatch ++ BitVec.ofBool s.err ++ BitVec.ofBool s.done
    ++ BitVec.ofBool s.busy

/-- R24: a write of v to `STATUS` clears the W1C bits (1, 2, 5) that v has set, and does nothing else. -/
def Status.writeOneToClear (s : Status) (v : Word) : Status :=
  { s with
    done := s.done && !v.getLsbD 1
    err := s.err && !v.getLsbD 2
    busyerr := s.busyerr && !v.getLsbD 5 }

/-- R170: what acceptance does to the flags. -/
def Status.accepted (s : Status) : Status := { s with busy := true, done := false, vmatch := false }

/-- R172: what completion of the command word `v` with error `e` does to the flags. -/
def Status.completed (s : Status) (v : Word) (e : Err) : Status :=
  { s with
    busy := false
    done := true
    err := s.err || decide (e ≠ .ok)
    errcode := e.code
    lastcmd := v.extractLsb' 0 4 }

/-- R210: what an ignored write does to the flags. -/
def Status.ignoredWrite (s : Status) : Status := { s with busyerr := true }

/-- R34: the word `INTEN` reads as; bits 31:3 read 0. -/
def Inten.word (n : Inten) : Word :=
  (0 : BitVec 29) ++ BitVec.ofBool n.busyerrIe ++ BitVec.ofBool n.errIe ++ BitVec.ofBool n.doneIe

/-- R34: the enables a write of v stores. -/
def Inten.ofWord (v : Word) : Inten :=
  { doneIe := v.getLsbD 0, errIe := v.getLsbD 1, busyerrIe := v.getLsbD 2 }

/-- R35: the level of the output line `IRQ`. It has no state of its own. -/
def irq (s : State) : Bool :=
  s.status.done && s.inten.doneIe || s.status.err && s.inten.errIe || s.status.busyerr && s.inten.busyerrIe

end Sys2Proof.Machine
end

