-- ==== Sys2Proof/Machine/Operands.lean ====
section
/-! DEFINITION. The register map and the operand forms: 10_state.md R20 to R24, R36 to R53, 30_encoding.md R82, R83. -/

namespace Sys2Proof.Machine

/-- R22: the constant `ID` holds, ASCII "HSA1". -/
def idWord : Word := 0x48534131

/-- R20: the byte offset of a register; register `NAMEi` is at `base + 4*i`. -/
def Reg.byteOffset : Reg → Nat
  | .id => 0x000
  | .ctrl => 0x004
  | .status => 0x008
  | .inten => 0x00C
  | .cfg => 0x010
  | .keylen => 0x014
  | .window => 0x018
  | .candlen => 0x01C
  | .timeLo => 0x020
  | .timeHi => 0x024
  | .periodLo => 0x028
  | .periodHi => 0x02C
  | .counterLo => 0x030
  | .counterHi => 0x034
  | .candLo => 0x038
  | .candHi => 0x03C
  | .matchctrLo => 0x040
  | .matchctrHi => 0x044
  | .dtval => 0x048
  | .code => 0x04C
  | .offset => 0x050
  | .digest i => 0x060 + 4 * i.val
  | .h i => 0x080 + 4 * i.val
  | .block i => 0x0C0 + 4 * i.val
  | .key i => 0x100 + 4 * i.val

/-- Every register of the map (R20). -/
def Reg.all : List Reg :=
  [.id, .ctrl, .status, .inten, .cfg, .keylen, .window, .candlen, .timeLo, .timeHi, .periodLo, .periodHi,
    .counterLo, .counterHi, .candLo, .candHi, .matchctrLo, .matchctrHi, .dtval, .code, .offset]
  ++ ([0, 1, 2, 3, 4] : List (Fin 5)).map Reg.digest
  ++ ([0, 1, 2, 3, 4] : List (Fin 5)).map Reg.h
  ++ ([0, 1, 2, 3, 4, 5, 6, 7, 8, 9, 10, 11, 12, 13, 14, 15] : List (Fin 16)).map Reg.block
  ++ ([0, 1, 2, 3, 4, 5, 6, 7, 8, 9, 10, 11, 12, 13, 14, 15] : List (Fin 16)).map Reg.key

/-- The register at an offset; none at a reserved one (R20, R52). -/
def Reg.ofOffset (off : Nat) : Option Reg := Reg.all.find? fun r => r.byteOffset == off

/-- R53: the access class of a register. -/
def Reg.access : Reg → Access
  | .id => .readOnly
  | .ctrl => .gated
  | .status => .always
  | .inten => .always
  | .cfg => .gated
  | .keylen => .gated
  | .window => .gated
  | .candlen => .gated
  | .timeLo => .gated
  | .timeHi => .gated
  | .periodLo => .gated
  | .periodHi => .gated
  | .counterLo => .gated
  | .counterHi => .gated
  | .candLo => .gated
  | .candHi => .gated
  | .matchctrLo => .readOnly
  | .matchctrHi => .readOnly
  | .dtval => .readOnly
  | .code => .readOnly
  | .offset => .readOnly
  | .digest _ => .readOnly
  | .h _ => .gated
  | .block _ => .gated
  | .key _ => .gated

/-- The value a register holds for the bus (R22 to R24, R34, R36 to R50): a field narrower than its register reads
zero-extended (R83), `CTRL` reads 0 (R23). -/
def readReg (s : State) : Reg → Word
  | .id => idWord
  | .ctrl => 0
  | .status => s.status.word
  | .inten => s.inten.word
  | .cfg => s.codelen.setWidth 32
  | .keylen => s.keylen.setWidth 32
  | .window => s.window
  | .candlen => s.candlen.setWidth 32
  | .timeLo => s.timeLo
  | .timeHi => s.timeHi
  | .periodLo => s.periodLo
  | .periodHi => s.periodHi
  | .counterLo => s.counterLo
  | .counterHi => s.counterHi
  | .candLo => s.candLo
  | .candHi => s.candHi
  | .matchctrLo => s.matchctrLo
  | .matchctrHi => s.matchctrHi
  | .dtval => s.dtval.setWidth 32
  | .code => s.code
  | .offset => s.offset.setWidth 32
  | .digest i => s.digest[i]
  | .h i => s.h[i]
  | .block i => s.block[i]
  | .key i => s.key[i]

/-- Storing a written word in an input register: "a stored field keeps exactly the written bits" (R36 to R43, R48 to
R50, R53). A register that is no input register stores nothing here. -/
def storeInput (s : State) (v : Word) : Reg → State
  | .cfg => { s with codelen := v.extractLsb' 0 4 }
  | .keylen => { s with keylen := v.extractLsb' 0 7 }
  | .window => { s with window := v }
  | .candlen => { s with candlen := v.extractLsb' 0 5 }
  | .timeLo => { s with timeLo := v }
  | .timeHi => { s with timeHi := v }
  | .periodLo => { s with periodLo := v }
  | .periodHi => { s with periodHi := v }
  | .counterLo => { s with counterLo := v }
  | .counterHi => { s with counterHi := v }
  | .candLo => { s with candLo := v }
  | .candHi => { s with candHi := v }
  | .h i => { s with h := s.h.set i v }
  | .block i => { s with block := s.block.set i v }
  | .key i => { s with key := s.key.set i v }
  | .id => s
  | .ctrl => s
  | .status => s
  | .inten => s
  | .matchctrLo => s
  | .matchctrHi => s
  | .dtval => s
  | .code => s
  | .offset => s
  | .digest _ => s

/-- R40, R83: the 64-bit `TIME`. -/
def State.time (s : State) : DWord := pair s.timeHi s.timeLo

/-- R41, R83: the 64-bit `PERIOD`. -/
def State.period (s : State) : DWord := pair s.periodHi s.periodLo

/-- R42, R83: the 64-bit `COUNTER`. -/
def State.counter (s : State) : DWord := pair s.counterHi s.counterLo

/-- R43, R83: the 64-bit `CAND`. -/
def State.cand (s : State) : DWord := pair s.candHi s.candLo

/-- R44, R83: the 64-bit `MATCHCTR`. -/
def State.matchctr (s : State) : DWord := pair s.matchctrHi s.matchctrLo

/-- R83: a 64-bit result written to `COUNTER`. -/
def State.setCounter (s : State) (v : DWord) : State := { s with counterHi := hiWord v, counterLo := loWord v }

/-- R83: a 64-bit result written to `MATCHCTR`. -/
def State.setMatchctr (s : State) (v : DWord) : State := { s with matchctrHi := hiWord v, matchctrLo := loWord v }

/-- A result written to `H0..4` (R48). -/
def State.setH (s : State) (v : Digest) : State := { s with h := v }

/-- A result written to `DIGEST0..4` (R47). -/
def State.setDigest (s : State) (d : Digest) : State := { s with digest := d }

/-- Truncation results written to `OFFSET`, `DTVAL`, `CODE` (R45). -/
def State.setTruncation (s : State) (o : BitVec 4) (dt : BitVec 31) (c : Word) : State :=
  { s with offset := o, dtval := dt, code := c }

/-- An engine instance made: pad states, `ACTLEN`, `KEYVALID` (R29, R33, R46). -/
def State.setInstance (s : State) (ip op : Digest) (len : BitVec 4) : State :=
  { s with ipadH := ip, opadH := op, status := { s.status with actlen := len, keyvalid := true } }

/-- The verification result written to `VMATCH` (R28). -/
def State.setVmatch (s : State) (m : Bool) : State := { s with status := { s.status with vmatch := m } }

/-- R121: byte j of K0, `bytes(KEY)[j]` for j below `KEYLEN` and 0 beyond, whatever the buffer holds there. -/
def k0Byte (key : Block) (keylen : BitVec 7) (j : Nat) : Byte :=
  if j < keylen.toNat then (bytesOf key.toList).getD j 0 else 0

/-- R121: `K0w[k] = BE32(K0[4k..4k+4])`. -/
def k0Word (key : Block) (keylen : BitVec 7) (k : Nat) : Word :=
  be32 (k0Byte key keylen (4 * k)) (k0Byte key keylen (4 * k + 1)) (k0Byte key keylen (4 * k + 2))
    (k0Byte key keylen (4 * k + 3))

/-- R82: the bus-visible registers a command writes, besides `STATUS`. -/
def writesReg : Instr → Reg → Bool
  | .nop, _ => false
  | .shaInit, .h _ => true
  | .shaInit, _ => false
  | .shaBlock, .h _ => true
  | .shaBlock, _ => false
  | .keySetup, _ => false
  | .hmacCtr, .digest _ => true
  | .hmacCtr, _ => false
  | .trunc, r => r = .offset || r = .dtval || r = .code
  | .hotp, .digest _ => true
  | .hotp, r => r = .offset || r = .dtval || r = .code
  | .tstep, r => r = .counterLo || r = .counterHi
  | .totpGen, .digest _ => true
  | .totpGen, r => r = .counterLo || r = .counterHi || r = .offset || r = .dtval || r = .code
  | .totpVerify, .digest _ => true
  | .totpVerify, r =>
    r = .counterLo || r = .counterHi || r = .offset || r = .dtval || r = .code || r = .matchctrLo || r = .matchctrHi
  | .zeroize, .key _ => true
  | .zeroize, .digest _ => true
  | .zeroize, .h _ => true
  | .zeroize, .block _ => true
  | .zeroize, r =>
    r = .keylen || r = .offset || r = .dtval || r = .code || r = .candLo || r = .candHi || r = .candlen

end Sys2Proof.Machine
end

