-- ==== Sys2Proof/Machine/Ops.lean ====
section
/-! DEFINITION. The command lifecycle, said once: acceptance (60_exceptions.md R170), completion (R172), raising an error
(R173, R176, R183), the acknowledgement (R184), reset (70_reset_and_hazards.md R200, R201), and the fetch of the pending word. -/

namespace Sys2Proof.Machine

/-- R170, R51: the word v is latched in `PENDING`, `BUSY` set, `DONE` and `VMATCH` cleared; nothing else changes. -/
def latch (v : Word) (s : State) : State := { s with pending := v, status := s.status.accepted }

/-- The schedule is set: turns before the engine's step, the schedule after it, the draws taken (log entry 2). -/
def State.setSchedule (s : State) (d : Nat) (ds : List Nat) (n : Nat) : State :=
  { s with delay := d, delays := ds, draws := n }

/-- The engine's turn is set: the next entry of the schedule, or a free number of host turns where it has none
(R7, R214; log entry 2). -/
def startDelay (s : State) : State :=
  match s.delays with
  | d :: ds => s.setSchedule d ds s.draws
  | [] => s.setSchedule (Config.engineDelay s.draws) [] (s.draws + 1)

/-- R170: acceptance of the word v. -/
def accept (v : Word) (s : State) : State := startDelay (latch v s)

/-- R172: completion of the pending command with error code e. -/
def complete (e : Err) (s : State) : State := { s with status := s.status.completed s.pending e }

/-- R172: the command succeeded; s holds its data effects. -/
def succeed (s : State) : Result := .next (complete .ok s)

/-- R173, R183: `raise E`. None of the command's data effects is performed; only the completion fields change. The
core's form of taking an exception: no control transfer, the record is `ERRCODE`, `LASTCMD`, `ERR`. -/
def raiseError (e : Err) (s : State) : Result := .next (complete e s)

/-- R184: the host's acknowledgement, the core's only return from an error: a write of v to `STATUS` (W1C). -/
def acknowledge (v : Word) (s : State) : State := { s with status := s.status.writeOneToClear v }

/-- R172: the engine's fetch is the latch, decoded (R73, R85). -/
def fetched (s : State) : Except DecodeError Instr := decode s.pending

/-- R84, R176: the engine step of a word that selects no command. -/
def execIllegal (s : State) : Result := raiseError .illegalCommand s

/-- R201: the state reset leaves in the core, the agents' own data kept, with the line at `level`. -/
def resetCore (level : Bool) (s : State) : State :=
  { State.reset with
    rst := level, inputs := s.inputs, reads := s.reads, delays := s.delays, draws := s.draws }

/-- R201: the platform drives `rst`. While it is high, and when it is released, the core holds the state of R200
(DESIGN CHOICE, log entry 4); driving a low line low changes nothing. -/
def driveReset (level : Bool) (s : State) : State :=
  if s.rst || level then resetCore level s else s

end Sys2Proof.Machine
end

