-- ==== Sys2Proof/Machine/Bus.lean ====
section
/-! DEFINITION. The host's turn: register transactions on the window, waiting, and the reset line: 20_memory.md R60, R61,
R66, R67, 10_state.md R52, R53, 70_reset_and_hazards.md R201, R210, R211. -/

namespace Sys2Proof.Machine

/-- R61, R60: why a transfer cannot be issued to the core, if it cannot. -/
def transferRefusal (off size : Nat) : Option Refusal :=
  if size ≠ 4 then some .transferSize
  else if off % 4 ≠ 0 then some .transferAlignment
  else if off < 4096 then none
  else some .outsideWindow

/-- R211: r is in the write list of the command in progress. A pending word that selects no command has none (R82). -/
def inProgress (s : State) (r : Reg) : Bool :=
  s.status.busy &&
    match fetched s with
    | .ok i => writesReg i r
    | .error _ => false

/-- R211: the read at this offset returns an unspecified value. -/
def readsFree (off : Nat) (s : State) : Bool :=
  !s.rst &&
    match Reg.ofOffset off with
    | some r => inProgress s r
    | none => false

/-- The word a read at this offset returns: 0 while `rst` is high (R201) and at reserved offsets (R52), a free word for a
register the running command writes (R211), else the register's value. -/
def readValue (off : Nat) (s : State) : Word :=
  if s.rst then 0
  else match Reg.ofOffset off with
    | none => 0
    | some r => if inProgress s r then Config.freeRead s.draws else readReg s r

/-- U14: the read is of `STATUS`, and `ERRCODE` holds a reserved code. -/
def readFaults (off : Nat) (s : State) : Bool :=
  !s.rst && off == Reg.status.byteOffset && 5 < s.status.errcode.toNat

/-- The host has read the word v at this offset; n free draws have been taken. -/
def logRead (off : Nat) (v : Word) (n : Nat) (s : State) : State := { s with reads := (off, v) :: s.reads, draws := n }

/-- A register read (R60): it returns its value and has no side effect on the core (R67). -/
def busRead (off : Nat) (s : State) : Result :=
  if readFaults off s then .fault .reservedErrorCode
  else .next (logRead off (readValue off s) (if readsFree off s then s.draws + 1 else s.draws) s)

/-- R34: the enables are stored. -/
def setInten (n : Inten) (s : State) : State := { s with inten := n }

/-- R210: the core ignored a write because it was busy. -/
def flagIgnored (s : State) : State := { s with status := s.status.ignoredWrite }

/-- A register write outside reset (R53, R210), by access class. -/
def writeReg (v : Word) (s : State) (r : Reg) : State :=
  match r.access with
  | .readOnly => s
  | .always => if r = .status then acknowledge v s else setInten (Inten.ofWord v) s
  | .gated =>
    if s.status.busy then flagIgnored s
    else if r = .ctrl then accept v s
    else storeInput s v r

/-- A register write (R60): ignored while `rst` is high (R201) and at reserved offsets (R52). -/
def busWrite (off : Nat) (v : Word) (s : State) : State :=
  if s.rst then s
  else match Reg.ofOffset off with
    | none => s
    | some r => writeReg v s r

/-- A host turn passes, `rest` still to come: the engine's step is one turn nearer (log entry 2). -/
def passTurn (rest : List Input) (s : State) : State := { s with inputs := rest, delay := s.delay - 1 }

/-- The host's turn: its next input takes effect (R7, R70). With none due the core waits
(R202; DEDUCED, log entry 9). -/
def hostTurn (s : State) : Result :=
  match s.inputs with
  | [] => .next (passTurn [] s)
  | .write off size v :: rest =>
    match transferRefusal off size with
    | some r => .refused r
    | none => .next (busWrite off v (passTurn rest s))
  | .read off size :: rest =>
    match transferRefusal off size with
    | some r => .refused r
    | none => busRead off (passTurn rest s)
  | .wait :: rest =>
    if (readValue Reg.status.byteOffset s).getLsbD 0 then busRead Reg.status.byteOffset (passTurn s.inputs s)
    else busRead Reg.status.byteOffset (passTurn rest s)
  | .reset level :: rest => .next (driveReset level (passTurn rest s))

/-- The engine is to move: `BUSY = 1`, no reset, and no host turn left before it (R7, R172; log entry 2). -/
def engineTurn (s : State) : Bool := s.status.busy && !s.rst && s.delay == 0

end Sys2Proof.Machine
end

