-- ==== Sys2Proof/Machine/Sha1.lean ====
section
/-! DEFINITION. SHA-1 compression (40_sha1.md R100 to R105) and the raw hash commands SHA_INIT (R108) and SHA_BLOCK (R109). -/

namespace Sys2Proof.Machine

/-- R11: `ROTL_n(x)`, for 0 < n < 32. -/
def rotl (n : Nat) (x : Word) : Word := (x <<< n) ||| (x >>> (32 - n))

/-- R100: the SHA-1 initial value. -/
def sha1IV : Digest := #v[0x67452301, 0xEFCDAB89, 0x98BADCFE, 0x10325476, 0xC3D2E1F0]

/-- R101: the round function of round t (0 to 79): Ch, Parity, Maj, Parity. -/
def roundF (t : Nat) (b c d : Word) : Word :=
  if t ≤ 19 then (b &&& c) ||| (~~~b &&& d)
  else if t ≤ 39 then b ^^^ c ^^^ d
  else if t ≤ 59 then (b &&& c) ||| (b &&& d) ||| (c &&& d)
  else b ^^^ c ^^^ d

/-- R102: the round constant of round t (0 to 79). -/
def roundK (t : Nat) : Word :=
  if t ≤ 19 then 0x5A827999 else if t ≤ 39 then 0x6ED9EBA1 else if t ≤ 59 then 0x8F1BBCDC else 0xCA62C1D6

/-- The working words a to e of R104. -/
structure Work where
  a : Word
  b : Word
  c : Word
  d : Word
  e : Word
  deriving DecidableEq, Repr

/-- R104: round step t with schedule word w. -/
def roundStep (t : Nat) (w : Word) (s : Work) : Work :=
  { a := rotl 5 s.a + roundF t s.b s.c s.d + s.e + roundK t + w
    b := s.a
    c := rotl 30 s.b
    d := s.c
    e := s.d }

/-- R103: the schedule continued by n words. The words so far stand newest first, so `W[t-3]`, `W[t-8]`, `W[t-14]` and
`W[t-16]` are the entries 2, 7, 13 and 15. -/
def extendSchedule : Nat → List Word → List Word
  | 0, ws => ws
  | n + 1, ws =>
    extendSchedule n (rotl 1 (ws.getD 2 0 ^^^ ws.getD 7 0 ^^^ ws.getD 13 0 ^^^ ws.getD 15 0) :: ws)

/-- R103: `W[0..79]`, in order. -/
def schedule (m : Block) : List Word := (extendSchedule 64 m.toList.reverse).reverse

/-- R105: the round steps t, t+1, … over the schedule words given, in order. -/
def rounds : Nat → List Word → Work → Work
  | _, [], s => s
  | t, w :: ws, s => rounds (t + 1) ws (roundStep t w s)

/-- R105: the compression function, total on every chaining value and block. -/
def compress (s : Digest) (m : Block) : Digest :=
  let r := rounds 0 (schedule m) { a := s[0], b := s[1], c := s[2], d := s[3], e := s[4] }
  #v[s[0] + r.a, s[1] + r.b, s[2] + r.c, s[3] + r.d, s[4] + r.e]

/-- `SHA_INIT` (R108): `H[i] <- IV[i]`. -/
def execShaInit (s : State) : Result := succeed (s.setH sha1IV)

/-- `SHA_BLOCK` (R109): `H <- compress(H, BLOCK)`, `H` used as it stands. -/
def execShaBlock (s : State) : Result := succeed (s.setH (compress s.h s.block))

end Sys2Proof.Machine
end

