-- ==== Sys2Proof/Machine/Hmac.lean ====
section
/-! DEFINITION. HMAC key set-up, HMAC of the counter, zeroisation: 41_hmac.md R121 to R126. -/

namespace Sys2Proof.Machine

/-- R122: the pad block `K0w[k] ^ pad`, k = 0 to 15. -/
def padBlock (key : Block) (keylen : BitVec 7) (pad : Word) : Block :=
  blockOf fun k => k0Word key keylen k ^^^ pad

/-- R122: the inner pad state, `compress(IV, K0 ^ ipad)`. -/
def ipadState (key : Block) (keylen : BitVec 7) : Digest := compress sha1IV (padBlock key keylen 0x36363636)

/-- R122: the outer pad state, `compress(IV, K0 ^ opad)`. -/
def opadState (key : Block) (keylen : BitVec 7) : Digest := compress sha1IV (padBlock key keylen 0x5C5C5C5C)

/-- R123: the inner hash's second block for the counter c (72 bytes hashed in all, 0x240 bits). -/
def innerBlock (c : DWord) : Block :=
  #v[hiWord c, loWord c, 0x80000000, 0, 0, 0, 0, 0, 0, 0, 0, 0, 0, 0, 0, 0x00000240]

/-- R124: the outer hash's second block for the inner digest (84 bytes hashed in all, 0x2A0 bits). -/
def outerBlock (inner : Digest) : Block :=
  #v[inner[0], inner[1], inner[2], inner[3], inner[4], 0x80000000, 0, 0, 0, 0, 0, 0, 0, 0, 0, 0x000002A0]

/-- R124: the digest of the counter c under the pad states. -/
def hmacOfCounter (ipadH opadH : Digest) (c : DWord) : Digest :=
  compress opadH (outerBlock (compress ipadH (innerBlock c)))

/-- `KEY_SETUP` (R122): create an engine instance; the key length is checked before the code length (R180). -/
def execKeySetup (s : State) : Result :=
  if s.keylen.toNat > 64 then raiseError .invalidKeyLength s
  else if s.codelen.toNat < 1 ∨ s.codelen.toNat > 10 then raiseError .invalidCodeLength s
  else succeed (s.setInstance (ipadState s.key s.keylen) (opadState s.key s.keylen) s.codelen)

/-- `HMAC_CTR` (R124): `DIGEST <- HMAC-SHA1(K, BE64(COUNTER))`. -/
def execHmacCtr (s : State) : Result :=
  if s.status.keyvalid = false then raiseError .keyNotSetup s
  else succeed (s.setDigest (hmacOfCounter s.ipadH s.opadH s.counter))

/-- The writes of `ZEROIZE` (R126). -/
def clearKeyMaterial (s : State) : State :=
  { s with
    key := Block.zero
    keylen := 0
    ipadH := Digest.zero
    opadH := Digest.zero
    status := { s.status with keyvalid := false, actlen := 0 }
    digest := Digest.zero
    offset := 0
    dtval := 0
    code := 0
    h := Digest.zero
    block := Block.zero
    candLo := 0
    candHi := 0
    candlen := 0 }

/-- `ZEROIZE` (R126): discard the engine instance and clear what holds or derives from the key. -/
def execZeroize (s : State) : Result := succeed (clearKeyMaterial s)

end Sys2Proof.Machine
end

