-- ==== Sys2Proof/Machine/Truncation.lean ====
section
/-! DEFINITION. Dynamic truncation and the HOTP code: 42_truncation.md R140 to R142. -/

namespace Sys2Proof.Machine

/-- R140: `offset`, the low 4 bits of the digest's last byte. -/
def truncOffset (d : Digest) : BitVec 4 := ((bytesOf d.toList).getD 19 0).extractLsb' 0 4

/-- R140: `dt`, the big-endian word at `offset` with its top bit dropped (31 bits). -/
def truncValue (d : Digest) : BitVec 31 := (be32At (bytesOf d.toList) (truncOffset d).toNat).extractLsb' 0 31

/-- R140: `dt mod 10^L`. -/
def codeOf (dt : BitVec 31) (len : BitVec 4) : Word := BitVec.ofNat 32 (dt.toNat % 10 ^ len.toNat)

/-- R142: the code `hotp(c)` gives for the counter c. -/
def hotpCode (ipadH opadH : Digest) (len : BitVec 4) (c : DWord) : Word :=
  codeOf (truncValue (hmacOfCounter ipadH opadH c)) len

/-- R141: the truncation results of the digest d, for code length `ACTLEN`. -/
def truncateDigest (d : Digest) (s : State) : State :=
  s.setTruncation (truncOffset d) (truncValue d) (codeOf (truncValue d) s.status.actlen)

/-- R142: the writes of `hotp(c)`: digest and truncation results. -/
def setHotp (c : DWord) (s : State) : State :=
  truncateDigest (hmacOfCounter s.ipadH s.opadH c) (s.setDigest (hmacOfCounter s.ipadH s.opadH c))

/-- `TRUNC` (R141): truncate `DIGEST` as it stands. -/
def execTrunc (s : State) : Result :=
  if s.status.keyvalid = false then raiseError .keyNotSetup s
  else succeed (truncateDigest s.digest s)

/-- `HOTP` (R142): HMAC of `COUNTER`, then truncation. -/
def execHotp (s : State) : Result :=
  if s.status.keyvalid = false then raiseError .keyNotSetup s
  else succeed (setHotp s.counter s)

end Sys2Proof.Machine
end

