-- ==== Sys2Proof/Machine/Counter.lean ====
section
/-! DEFINITION. Counter derivation, TOTP generation and verification, NOP: 43_counter.md R150 to R160. -/

namespace Sys2Proof.Machine

/-- R150: `tstep(t, p) = t div p`, unsigned, p not 0. -/
def timeStep (t p : DWord) : DWord := BitVec.ofNat 64 (t.toNat / p.toNat)

/-- R154: the lower bound of the window, clipped at 0 by an unsigned 64-bit comparison. -/
def windowLo (c w : DWord) : DWord := if w.toNat ≤ c.toNat then c - w else 0

/-- R154: the upper bound of the window, clipped at 2^64-1. -/
def windowHi (c w : DWord) : DWord := if c.toNat ≤ 2 ^ 64 - 1 - w.toNat then c + w else BitVec.allOnes 64

/-- R155: the match predicate for the counter i. -/
def codeMatches (s : State) (i : DWord) : Bool :=
  s.candlen.toNat == s.status.actlen.toNat &&
    s.cand == (hotpCode s.ipadH s.opadH s.status.actlen i).setWidth 64

/-- R156: the loop of `TOTP_VERIFY` from the counter i with n more counters after it, ascending, stopping at the first
match: the last counter evaluated, and whether it matched. -/
def searchWindow (isMatch : DWord → Bool) : Nat → DWord → DWord × Bool
  | 0, i => (i, isMatch i)
  | n + 1, i => if isMatch i then (i, true) else searchWindow isMatch n (i + 1)

/-- R156: the loop over `[lo, hi]` for the counter c and the window `WINDOW`. -/
def verifyResult (s : State) (c : DWord) : DWord × Bool :=
  let w := s.window.setWidth 64
  searchWindow (codeMatches s) ((windowHi c w).toNat - (windowLo c w).toNat) (windowLo c w)

/-- `TSTEP` (R151): `COUNTER <- TIME div PERIOD`. -/
def execTstep (s : State) : Result :=
  if s.period = 0 then raiseError .invalidPeriod s
  else succeed (s.setCounter (timeStep s.time s.period))

/-- `TOTP_GEN` (R153): the time step, then `hotp` of it. -/
def execTotpGen (s : State) : Result :=
  if s.status.keyvalid = false then raiseError .keyNotSetup s
  else if s.period = 0 then raiseError .invalidPeriod s
  else succeed (setHotp (timeStep s.time s.period) (s.setCounter (timeStep s.time s.period)))

/-- The writes of a `TOTP_VERIFY` that raises nothing (R156), for the counter c: the results are those of the last
counter evaluated, `COUNTER` is c, `MATCHCTR` the last counter, `VMATCH` whether it matched. -/
def setVerified (c : DWord) (s : State) : State :=
  ((setHotp (verifyResult s c).1 (s.setCounter c)).setMatchctr (verifyResult s c).1).setVmatch (verifyResult s c).2

/-- `TOTP_VERIFY` (R156): search the window for the candidate. -/
def execTotpVerify (s : State) : Result :=
  if s.status.keyvalid = false then raiseError .keyNotSetup s
  else if s.period = 0 then raiseError .invalidPeriod s
  else succeed (setVerified (timeStep s.time s.period) s)

/-- `NOP` (R160): complete without effect. -/
def execNop (s : State) : Result := succeed s

end Sys2Proof.Machine
end

