-- ==== Sys2Proof/Machine/Dispatch.lean ====
section
/-! DEFINITION. One arm per command (30_encoding.md R81). -/

namespace Sys2Proof.Machine

def exec (i : Instr) (s : State) : Host.Outcome State Fault Refusal :=
  match i with
  | .nop => Sys2Proof.Machine.execNop s
  | .shaInit => Sys2Proof.Machine.execShaInit s
  | .shaBlock => Sys2Proof.Machine.execShaBlock s
  | .keySetup => Sys2Proof.Machine.execKeySetup s
  | .hmacCtr => Sys2Proof.Machine.execHmacCtr s
  | .trunc => Sys2Proof.Machine.execTrunc s
  | .hotp => Sys2Proof.Machine.execHotp s
  | .tstep => Sys2Proof.Machine.execTstep s
  | .totpGen => Sys2Proof.Machine.execTotpGen s
  | .totpVerify => Sys2Proof.Machine.execTotpVerify s
  | .zeroize => Sys2Proof.Machine.execZeroize s

end Sys2Proof.Machine
end

