-- ==== Sys2Proof/Machine/Step.lean ====
section
/-! DEFINITION. One step of the machine: the engine performs the pending command, or the host takes its turn (00_scope.md R7). -/

namespace Sys2Proof.Machine

/-- R172, R176: the engine step performs the command in `PENDING`, or completes it as illegal. -/
def engineStep (s : State) : Host.Outcome State Fault Refusal :=
  match fetched s with
  | .ok i => exec i s
  | .error _ => execIllegal s

/-- R7: one step of whichever agent is to move. -/
def step (s : State) : Host.Outcome State Fault Refusal :=
  if engineTurn s then engineStep s else hostTurn s

/-- The low `nbits` bits of `w` accepted as a command word, the engine to move next and no reset: the next step performs
exactly it. It stands for the host's `CTRL` write (R170; DESIGN CHOICE, log entry 5). -/
def State.withFetchWord (s : State) (nbits w : Nat) : State :=
  { latch (BitVec.ofNat 32 (w % 2 ^ nbits)) s with delay := 0, rst := false }

end Sys2Proof.Machine
end

