-- ==== Sys2Proof/Machine/Message.lean ====
section
/-! DEFINITION. SHA-1 and HMAC-SHA1 of byte strings: 40_sha1.md R106, R107, R110, 41_hmac.md R120, R128. The spec states what
the commands compute in these terms, and the host uses them for keys longer than 64 bytes. -/

namespace Sys2Proof.Machine

/-- R107: the number of zero bytes of the padding of an L-byte message, the least z with `L + 1 + z + 8` a multiple of 64. -/
def padZeros (len : Nat) : Nat := (119 - len % 64) % 64

/-- R107: `pad(m) = m ++ 0x80 ++ 0x00 * z ++ BE64(8 * L)`, for L below 2^61. -/
def padMessage (m : List Byte) : List Byte :=
  m ++ 0x80 :: List.replicate (padZeros m.length) 0 ++ be64Bytes (BitVec.ofNat 64 (8 * m.length))

/-- The first n blocks of a word string, sixteen words each. -/
def blocksOf : Nat → List Word → List Block
  | 0, _ => []
  | n + 1, ws => blockOf (fun k => ws.getD k 0) :: blocksOf n (ws.drop 16)

/-- R106: the blocks `words(P[64i..64i+64])` of the padded message P, in order. -/
def messageBlocks (m : List Byte) : List Block :=
  let p := padMessage m
  blocksOf (p.length / 64) (wordsOf p)

/-- R106: `SHA1(m)`, as words. -/
def sha1 (m : List Byte) : Digest := (messageBlocks m).foldl compress sha1IV

/-- R106: `SHA1(m)`, as 20 bytes. -/
def sha1Bytes (m : List Byte) : List Byte := bytesOf (sha1 m).toList

/-- R120: `K0`, the key followed by zero bytes to 64 bytes. -/
def zeroPadKey (k : List Byte) : List Byte := k ++ List.replicate (64 - k.length) 0

/-- R120: `HMAC(K, m) = SHA1((K0 ^ opad) ++ SHA1((K0 ^ ipad) ++ m))`, for a key of at most 64 bytes, as words. -/
def hmacSha1 (k m : List Byte) : Digest :=
  sha1 ((zeroPadKey k).map (· ^^^ 0x5C) ++ sha1Bytes ((zeroPadKey k).map (· ^^^ 0x36) ++ m))

/-- R121: `K = bytes(KEY)[0..KEYLEN]`, the core's key. -/
def State.keyBytes (s : State) : List Byte := (bytesOf s.key.toList).take s.keylen.toNat

/-- R128, K3: the key the host loads: a key longer than 64 bytes is replaced by its SHA-1 digest. -/
def hostKey (k : List Byte) : List Byte := if k.length > 64 then sha1Bytes k else k

end Sys2Proof.Machine
end

