-- ==== Sys2Proof/Machine/HostDuties.lean ====
section
/-! DEFINITION. What the spec gives the host to do: bus addresses (20_memory.md R60), the program notation (30_encoding.md R90
to R93), code rendering (42_truncation.md R143) and candidate conversion (43_counter.md R157). The host's programs are lists of
`Input`. -/

namespace Sys2Proof.Machine

/-- R60: `MemRead(addr, n)`, if the address lies in the core's window. -/
def memRead (addr size : Nat) : Option Input :=
  if Config.base ≤ addr ∧ addr < Config.base + 4096 then some (.read (addr - Config.base) size) else none

/-- R60: `MemWrite(addr, n, v)`, if the address lies in the core's window. -/
def memWrite (addr size : Nat) (v : Word) : Option Input :=
  if Config.base ≤ addr ∧ addr < Config.base + 4096 then some (.write (addr - Config.base) size v) else none

/-- R91: `WR <reg>, <value>`. -/
def wr (r : Reg) (v : Word) : Input := .write r.byteOffset 4 v

/-- R91: `RD <reg>`. -/
def rd (r : Reg) : Input := .read r.byteOffset 4

/-- R93: `CMD <mnemonic>`. -/
def cmd (i : Instr) : List Input := [wr .ctrl (encode i)]

/-- R93: `RUN <mnemonic>`, the command and the wait for it. -/
def runCommand (i : Instr) : List Input := cmd i ++ [.wait]

/-- R93: `CLR`, clear DONE, ERR, BUSYERR. -/
def clr : List Input := [wr .status 0x26]

/-- R93: the 64-bit registers `WR64` and `RD64` name, as (LO, HI). `MATCHCTR` is for `RD64` alone. -/
inductive Reg64 where
  | time | period | counter | cand | matchctr
  deriving DecidableEq, Repr

/-- The `_LO` register of a 64-bit one (R20). -/
def Reg64.lo : Reg64 → Reg
  | .time => .timeLo
  | .period => .periodLo
  | .counter => .counterLo
  | .cand => .candLo
  | .matchctr => .matchctrLo

/-- The `_HI` register of a 64-bit one (R20). -/
def Reg64.hi : Reg64 → Reg
  | .time => .timeHi
  | .period => .periodHi
  | .counter => .counterHi
  | .cand => .candHi
  | .matchctr => .matchctrHi

/-- R93: `WR64 <X>, <v>`. -/
def wr64 (x : Reg64) (v : DWord) : List Input := [wr x.lo (loWord v), wr x.hi (hiWord v)]

/-- R93: `RD64 <X>`. -/
def rd64 (x : Reg64) : List Input := [rd x.lo, rd x.hi]

/-- The register `KEYk`, k below 16 (R20). -/
def keyReg (k : Nat) : Reg := .key (Fin.ofNat 16 k)

/-- The register `BLOCKk`, k below 16 (R20). -/
def blockReg (k : Nat) : Reg := .block (Fin.ofNat 16 k)

/-- R93: `LDKEY <bytes>`: the key words, the last padded with zero bytes, then `KEYLEN`; for at most 64 bytes. -/
def ldkey (k : List Byte) : List Input :=
  (List.range ((k.length + 3) / 4)).map (fun j => wr (keyReg j) (be32At k (4 * j)))
    ++ [wr .keylen (BitVec.ofNat 32 k.length)]

/-- R110: `SHA1` of a message through the raw interface: `SHA_INIT`, then each padded block written and compressed. -/
def sha1Program (m : List Byte) : List Input :=
  runCommand .shaInit
    ++ (messageBlocks m).flatMap fun b =>
      (List.range 16).map (fun j => wr (blockReg j) (b.toList.getD j 0)) ++ runCommand .shaBlock

/-- R203, steps 2 to 4: load the key (hashed first if longer than 64 bytes, R128), the code length, and set up. -/
def bootProgram (k : List Byte) (codelen : Word) : List Input :=
  ldkey (hostKey k) ++ [wr .cfg codelen] ++ runCommand .keySetup ++ [rd .status]

/-- A decimal digit as a character. -/
def digitChar (d : Nat) : Char := Char.ofNat (48 + d)

/-- R143: `render(CODE, L)`, the L-digit decimal numeral of the code with leading zeros. -/
def render : Nat → Nat → List Char
  | 0, _ => []
  | len + 1, n => render len (n / 10) ++ [digitChar (n % 10)]

/-- A character of `0`..`9`. -/
def isDigit (c : Char) : Bool := 48 ≤ c.toNat && c.toNat ≤ 57

/-- The value of a string of decimal digits. -/
def decimalValue (cs : List Char) : Nat := cs.foldl (fun n c => 10 * n + (c.toNat - 48)) 0

/-- R157: what the host writes to `CANDLEN` and `CAND` for a candidate string. For 11 to 31 digits "any value may be
written"; this host writes the value modulo 2^64 (DESIGN CHOICE, log entry 6). -/
def candidate (cs : List Char) : BitVec 5 × DWord :=
  if cs.all isDigit ∧ cs.length ≤ 31 then (BitVec.ofNat 5 cs.length, BitVec.ofNat 64 (decimalValue cs)) else (0, 0)

/-- R204: the per-call inputs of a verification, then the command and the read of its result. -/
def verifyProgram (now : DWord) (cs : List Char) : List Input :=
  wr64 .time now ++ wr64 .cand (candidate cs).2 ++ [wr .candlen ((candidate cs).1.setWidth 32)]
    ++ runCommand .totpVerify ++ [rd .status]

end Sys2Proof.Machine
end

