-- ==== Sys2Proof/Safety.lean ====
section
/-! DEFINITION. What counts as a sound state and a safe run of the core: the relations between registers the spec's prose states. -/

namespace Sys2Proof.Safety

open Sys2Proof.Machine

/-- R29, R33, R46: an engine instance has a code length of 1 to 10; without one `ACTLEN` and the pad states are 0. -/
abbrev InstanceOk (s : State) : Prop :=
  (s.status.keyvalid = true → 1 ≤ s.status.actlen.toNat ∧ s.status.actlen.toNat ≤ 10) ∧
  (s.status.keyvalid = false → s.status.actlen = 0 ∧ s.ipadH = Digest.zero ∧ s.opadH = Digest.zero)

/-- R26, R28, R170: while a command is in progress neither `DONE` nor `VMATCH` stands. -/
abbrev BusyOk (s : State) : Prop := s.status.busy = true → s.status.done = false ∧ s.status.vmatch = false

/-- R171: `ERRCODE` never holds a reserved code. -/
abbrev ErrcodeOk (s : State) : Prop := s.status.errcode.toNat ≤ 5

/-- R28: `VMATCH` stands only for a last completed command that was a successful `TOTP_VERIFY`, with its instance. -/
abbrev VmatchOk (s : State) : Prop :=
  s.status.vmatch = true → s.status.keyvalid = true ∧ s.status.lastcmd = 0x9 ∧ s.status.errcode = 0

/-- R45, R144: `CODE` never exceeds `DTVAL`, so it is below 2^31. -/
abbrev CodeOk (s : State) : Prop := s.code.toNat ≤ s.dtval.toNat

/-- While `rst` is high the core holds its reset state: the model's choice within R201 (DESIGN CHOICE, log entry 4). -/
abbrev ResetOk (s : State) : Prop := s.rst = true → s = resetCore true s

/-- The invariant every step keeps and the reset state meets. -/
structure Sound (s : State) : Prop where
  keyInstance : InstanceOk s
  busy : BusyOk s
  errcode : ErrcodeOk s
  vmatch : VmatchOk s
  code : CodeOk s
  reset : ResetOk s

/-- An input the bus can carry (R61) that does not touch the reset line: what a host does between two resets. -/
def HostInput : Input → Prop
  | .write off size _ => Transfer.wellFormed off size = true
  | .read off size => Transfer.wellFormed off size = true
  | .wait => True
  | .reset _ => False

/-- A step that stops the machine: a fault or a refusal. -/
def Stops (s : State) : Prop := ∀ t, step s ≠ .next t

end Sys2Proof.Safety
end

