-- ==== Sys2Proof/Certificates/Slice0/Obligations.lean ====
section
/-! DEFINITION. The statements for the provers. Each docstring names the rule of spec/ it formalises. -/

open Sys2Proof Sys2Proof.Machine Sys2Proof.Safety

namespace Sys2Proof.Statements

/-- The flags after a command of word `PENDING` that succeeded (R172 with e = 0): `ERR` and `BUSYERR` keep their values. -/
def okStatus (s : State) : Status :=
  { s.status with busy := false, done := true, errcode := 0, lastcmd := s.pending.extractLsb' 0 4 }

/-- The command i at s completes and reports the code e. -/
def Reports (i : Instr) (s : State) (e : BitVec 4) : Prop :=
  ∃ t, exec i s = .next t ∧ t.status.errcode = e

/-- The engine is to move and the pending word selects i. -/
def Performs (s : State) (i : Instr) : Prop := engineTurn s = true ∧ decode s.pending = .ok i

/-- The host is to move, outside reset, and writes v to the register r. -/
def HostWrites (s : State) (r : Reg) (v : Word) : Prop :=
  engineTurn s = false ∧ s.rst = false ∧ ∃ rest, s.inputs = .write r.byteOffset 4 v :: rest

/-- The step is one of reset: the line is driven while it is high or to high (R201). -/
def ResetDriven (s : State) : Prop :=
  engineTurn s = false ∧ ∃ level rest, s.inputs = .reset level :: rest ∧ (s.rst = true ∨ level = true)

/-- The write column of R82, literally: the bus-visible registers a command writes besides `STATUS`. -/
def writeRow : Instr → List Reg
  | .nop => []
  | .shaInit => [.h 0, .h 1, .h 2, .h 3, .h 4]
  | .shaBlock => [.h 0, .h 1, .h 2, .h 3, .h 4]
  | .keySetup => []
  | .hmacCtr => [.digest 0, .digest 1, .digest 2, .digest 3, .digest 4]
  | .trunc => [.offset, .dtval, .code]
  | .hotp => [.digest 0, .digest 1, .digest 2, .digest 3, .digest 4, .offset, .dtval, .code]
  | .tstep => [.counterLo, .counterHi]
  | .totpGen =>
    [.counterLo, .counterHi, .digest 0, .digest 1, .digest 2, .digest 3, .digest 4, .offset, .dtval, .code]
  | .totpVerify =>
    [.counterLo, .counterHi, .digest 0, .digest 1, .digest 2, .digest 3, .digest 4, .offset, .dtval, .code,
      .matchctrLo, .matchctrHi]
  | .zeroize =>
    [.key 0, .key 1, .key 2, .key 3, .key 4, .key 5, .key 6, .key 7, .key 8, .key 9, .key 10, .key 11, .key 12,
      .key 13, .key 14, .key 15, .keylen, .digest 0, .digest 1, .digest 2, .digest 3, .digest 4, .offset, .dtval,
      .code, .h 0, .h 1, .h 2, .h 3, .h 4, .block 0, .block 1, .block 2, .block 3, .block 4, .block 5, .block 6,
      .block 7, .block 8, .block 9, .block 10, .block 11, .block 12, .block 13, .block 14, .block 15, .candLo,
      .candHi, .candlen]

/-- The input registers of R53: command-gated, besides `CTRL`. -/
def IsInput (r : Reg) : Prop :=
  r ∈ [Reg.cfg, .keylen, .window, .candlen, .timeLo, .timeHi, .periodLo, .periodHi, .counterLo, .counterHi, .candLo,
    .candHi] ∨ (∃ i, r = .h i) ∨ (∃ i, r = .block i) ∨ ∃ i, r = .key i

/-- The read-only registers of R53. -/
def IsReadOnly (r : Reg) : Prop :=
  r ∈ [Reg.id, .matchctrLo, .matchctrHi, .dtval, .code, .offset] ∨ ∃ i, r = .digest i

/-- The defined bits of an input register (R36 to R43, R48 to R50). -/
def definedBits : Reg → Word
  | .cfg => 0x0000000F
  | .keylen => 0x0000007F
  | .candlen => 0x0000001F
  | _ => 0xFFFFFFFF

/-- The single registers of the map of R20, each at its literal offset. -/
def mapOfSingles : List (Nat × Reg) :=
  [(0x000, .id), (0x004, .ctrl), (0x008, .status), (0x00C, .inten), (0x010, .cfg), (0x014, .keylen), (0x018, .window),
    (0x01C, .candlen), (0x020, .timeLo), (0x024, .timeHi), (0x028, .periodLo), (0x02C, .periodHi),
    (0x030, .counterLo), (0x034, .counterHi), (0x038, .candLo), (0x03C, .candHi), (0x040, .matchctrLo),
    (0x044, .matchctrHi), (0x048, .dtval), (0x04C, .code), (0x050, .offset)]

/-- The map of R20: the single registers, and the array registers from their bases. -/
def FollowsTheMap (offsetOf : Reg → Nat) : Prop :=
  (∀ p ∈ mapOfSingles, offsetOf p.2 = p.1) ∧
  (∀ i : Fin 5, offsetOf (.digest i) = 0x060 + 4 * i.val) ∧ (∀ i : Fin 5, offsetOf (.h i) = 0x080 + 4 * i.val) ∧
  (∀ i : Fin 16, offsetOf (.block i) = 0x0C0 + 4 * i.val) ∧ ∀ i : Fin 16, offsetOf (.key i) = 0x100 + 4 * i.val

/-- A reserved offset, by the ranges R52 lists. -/
def ReservedOffset (off : Nat) : Prop :=
  off % 4 = 0 ∧ (0x054 ≤ off ∧ off ≤ 0x05C ∨ 0x074 ≤ off ∧ off ≤ 0x07C ∨ 0x094 ≤ off ∧ off ≤ 0x0BC ∨
    0x140 ≤ off ∧ off ≤ 0xFFC)

/-- The writes of a host program applied in order to an idle core. -/
def applyWrites : List Input → State → State
  | [], s => s
  | .write off _ v :: rest, s => applyWrites rest (busWrite off v s)
  | _ :: rest, s => applyWrites rest s

/-- `SHA_BLOCK` run on each block in order, `BLOCK` loaded before each, from s to t. -/
def HashesTo : List Block → State → State → Prop
  | [], s, t => t = s
  | b :: bs, s, t => ∃ u, exec .shaBlock { s with block := b } = .next u ∧ HashesTo bs u t

/-- The counters `TOTP_VERIFY` evaluates for the counter c and the window w (R154), as natural numbers. -/
def InWindow (c w i : Nat) : Prop := c ≤ i + w ∧ i ≤ c + w ∧ i < 2 ^ 64

/-- The candidate of s matches the code of the counter i (R155). -/
def Matches (s : State) (i : Nat) : Prop :=
  s.candlen.toNat = s.status.actlen.toNat ∧
    s.cand.toNat = (hotpCode s.ipadH s.opadH s.status.actlen (BitVec.ofNat 64 i)).toNat

/-- Two states agree on the engine instance: `KEYVALID`, `ACTLEN`, the pad states. -/
def SameInstance (s t : State) : Prop :=
  s.status.keyvalid = t.status.keyvalid ∧ s.status.actlen = t.status.actlen ∧ s.ipadH = t.ipadH ∧ s.opadH = t.opadH

end Sys2Proof.Statements

open Sys2Proof.Statements

/-! ### Encoding and the step -/

/-- R85: the decoder, case by case, total on all words. -/
def Obligations.DecoderFollowsTheOpcodeMap : Prop :=
  ∀ v : Word,
    (v.extractLsb' 4 28 ≠ 0 → ∃ e, decode v = .error e) ∧
    (v.extractLsb' 4 28 = 0 →
      (v.extractLsb' 0 4 = 0x0 → decode v = .ok .nop) ∧
      (v.extractLsb' 0 4 = 0x1 → decode v = .ok .shaInit) ∧
      (v.extractLsb' 0 4 = 0x2 → decode v = .ok .shaBlock) ∧
      (v.extractLsb' 0 4 = 0x3 → decode v = .ok .keySetup) ∧
      (v.extractLsb' 0 4 = 0x4 → decode v = .ok .hmacCtr) ∧
      (v.extractLsb' 0 4 = 0x5 → decode v = .ok .trunc) ∧
      (v.extractLsb' 0 4 = 0x6 → decode v = .ok .hotp) ∧
      (v.extractLsb' 0 4 = 0x7 → decode v = .ok .tstep) ∧
      (v.extractLsb' 0 4 = 0x8 → decode v = .ok .totpGen) ∧
      (v.extractLsb' 0 4 = 0x9 → decode v = .ok .totpVerify) ∧
      (v.extractLsb' 0 4 = 0xF → decode v = .ok .zeroize) ∧
      (v.extractLsb' 0 4 ∈ [0xA, 0xB, 0xC, 0xD, 0xE] → ∃ e, decode v = .error e))

/-- 30_encoding.md section 1: decoding an encoded command gives it back, and no other word gives it. -/
def Obligations.DecodeAndEncodeAgree : Prop :=
  ∀ i : Instr, i.wellFormed = true → ∀ v : Word, decode v = .ok i ↔ v = encode i

/-- 30_encoding.md section 1, words written out from R81. -/
def Obligations.WrittenOutCommandWordsDecode : Prop :=
  decode 0b00000000000000000000000000000000#32 = .ok .nop ∧
  decode 0b00000000000000000000000000000010#32 = .ok .shaBlock ∧
  decode 0b00000000000000000000000000000011#32 = .ok .keySetup ∧
  decode 0b00000000000000000000000000000110#32 = .ok .hotp ∧
  decode 0b00000000000000000000000000001001#32 = .ok .totpVerify ∧
  decode 0b00000000000000000000000000001111#32 = .ok .zeroize ∧
  decode 0b00000000000000000000000000001010#32 = .error .reservedCode ∧
  decode 0b00000000000000000000000000010000#32 = .error .reservedBits

/-- 00_scope.md section 4, 60_exceptions.md section 1: on its turn the engine performs the command the pending word selects,
and in every other state the step is the host's. The turn is the model's schedule (log entry 2). -/
def Obligations.StepPerformsThePendingCommand : Prop :=
  (∀ (s : State) i, s.status.busy = true → s.rst = false → s.delay = 0 → decode s.pending = .ok i → step s = exec i s) ∧
  ∀ s : State, (s.status.busy = false ∨ s.rst = true ∨ s.delay ≠ 0) → step s = hostTurn s

/-- R176: the engine step of a word that selects no command. -/
def Obligations.IllegalWordCompletesWithCodeFive : Prop :=
  ∀ s : State, engineTurn s = true →
    (s.pending.extractLsb' 4 28 ≠ 0 ∨ s.pending.extractLsb' 0 4 ∈ [0xA, 0xB, 0xC, 0xD, 0xE]) →
    step s = .next { s with
      status := { s.status with
        busy := false, done := true, err := true, errcode := 5, lastcmd := s.pending.extractLsb' 0 4 } }

/-- R170: acceptance, and a write to `CTRL` while busy is none. When the engine moves (`delay`, `delays`, `draws`) is the
model's schedule (log entry 2). -/
def Obligations.CtrlWriteWhileIdleIsAcceptance : Prop :=
  ∀ s v rest, s.rst = false → s.inputs = .write 0x004 4 v :: rest →
    (s.status.busy = false → ∃ d ds n, step s = .next { s with
      pending := v
      status := { s.status with busy := true, done := false, vmatch := false }
      inputs := rest, delay := d, delays := ds, draws := n }) ∧
    (s.status.busy = true → s.delay ≠ 0 → ∃ t, step s = .next t ∧ t.pending = s.pending ∧ t.status.busy = true)

/-- 60_exceptions.md section 1 (R172): completion, for the commands and for the words that select none. R172 enables the engine
step exactly when `BUSY = 1`; that it is enabled "at some `delay`" is the model's schedule (DESIGN CHOICE, log entry 2). -/
def Obligations.CompletionWritesTheStatusFields : Prop :=
  (∀ s : State, s.status.busy = false → engineTurn s = false) ∧
  (∀ s : State, s.status.busy = true → s.rst = false → ∃ d, engineTurn { s with delay := d } = true) ∧
  ∀ s, engineTurn s = true → ∃ (e : Err) (t : State),
    step s = .next t ∧ (∀ i, decode s.pending = .ok i → exec i s = .next t) ∧
    t.status.errcode = e.code ∧ t.status.lastcmd = s.pending.extractLsb' 0 4 ∧
    t.status.err = (s.status.err || decide (e ≠ .ok)) ∧ t.status.done = true ∧ t.status.busy = false

/-- R173: errors are all-or-nothing. -/
def Obligations.ErrorsChangeOnlyCompletionFields : Prop :=
  ∀ i s t, exec i s = .next t → t.status.errcode ≠ 0 →
    t = { s with
      status := { s.status with
        busy := false, done := true, err := true, errcode := t.status.errcode
        lastcmd := s.pending.extractLsb' 0 4 } }

/-- R180: the one code each command reports, in the order of the checks. -/
def Obligations.ErrorPriorityIsTheTable : Prop :=
  (∀ s e, engineTurn s = true → decode s.pending = .error e → ∃ t, step s = .next t ∧ t.status.errcode = 5) ∧
  ∀ s,
    (64 < s.keylen.toNat → Reports .keySetup s 3) ∧
    (s.keylen.toNat ≤ 64 → ¬(1 ≤ s.codelen.toNat ∧ s.codelen.toNat ≤ 10) → Reports .keySetup s 1) ∧
    (s.keylen.toNat ≤ 64 → 1 ≤ s.codelen.toNat ∧ s.codelen.toNat ≤ 10 → Reports .keySetup s 0) ∧
    (∀ i ∈ [Instr.hmacCtr, .trunc, .hotp],
      (s.status.keyvalid = false → Reports i s 4) ∧ (s.status.keyvalid = true → Reports i s 0)) ∧
    (s.period.toNat = 0 → Reports .tstep s 2) ∧ (s.period.toNat ≠ 0 → Reports .tstep s 0) ∧
    (∀ i ∈ [Instr.totpGen, .totpVerify],
      (s.status.keyvalid = false → Reports i s 4) ∧
      (s.status.keyvalid = true → s.period.toNat = 0 → Reports i s 2) ∧
      (s.status.keyvalid = true → s.period.toNat ≠ 0 → Reports i s 0)) ∧
    ∀ i ∈ [Instr.nop, .shaInit, .shaBlock, .zeroize], Reports i s 0

/-- 30_encoding.md section 2, the write column of R82, for the bus-visible registers and everything else State holds. -/
def Obligations.CommandsWriteOnlyTheirRow : Prop :=
  ∀ i s t, exec i s = .next t →
    (∀ r, r ∉ writeRow i → r ≠ .status → readReg t r = readReg s r) ∧
    (i ≠ .keySetup → i ≠ .zeroize → SameInstance t s) ∧
    (i ≠ .totpVerify → t.status.vmatch = s.status.vmatch) ∧
    t.status.busyerr = s.status.busyerr ∧ t.pending = s.pending ∧ t.rst = s.rst ∧ t.inputs = s.inputs ∧
    t.reads = s.reads ∧ t.delays = s.delays ∧ t.delay = s.delay ∧ t.draws = s.draws

/-! ### Commands -/

/-- R160: `NOP`, alone and after its acceptance (R170), which has cleared `VMATCH` and `DONE`; the word one reserved bit away;
and the status of the rule's example, `RUN NOP` from reset. -/
def Obligations.NopCompletesWithoutEffect : Prop :=
  encode .nop = 0x00000000 ∧
  (∀ s, exec .nop s = .next { s with status := okStatus s }) ∧
  (∀ s, ∃ t, exec .nop (accept 0x00000000 s) = .next t ∧
    t.status = { s.status with busy := false, done := true, vmatch := false, errcode := 0, lastcmd := 0x0 } ∧
    ∀ r, r ≠ .status → readReg t r = readReg s r) ∧
  (∀ s, engineTurn s = true → s.pending = 0x00000010 →
    ∃ t, step s = .next t ∧ t.status.errcode = 5 ∧ t.status.lastcmd = 0x0) ∧
  ∃ t, exec .nop (accept 0x00000000 State.reset) = .next t ∧ readReg t .status = 0x00000002

/-- R108: `SHA_INIT`. -/
def Obligations.ShaInitLoadsTheInitialValue : Prop :=
  encode .shaInit = 0x00000001 ∧
  ∀ s, exec .shaInit s = .next { s with
    h := #v[0x67452301, 0xEFCDAB89, 0x98BADCFE, 0x10325476, 0xC3D2E1F0], status := okStatus s }

/-- R109: `SHA_BLOCK`, with the two values the rule states. -/
def Obligations.ShaBlockCompressesTheBlock : Prop :=
  encode .shaBlock = 0x00000002 ∧
  (∀ s, exec .shaBlock s = .next { s with h := compress s.h s.block, status := okStatus s }) ∧
  compress #v[0, 0, 0, 0, 0] #v[0, 0, 0, 0, 0, 0, 0, 0, 0, 0, 0, 0, 0, 0, 0, 0] =
    #v[0x9E1547ED, 0x57EC91C2, 0x30FA8BC8, 0xC7785A54, 0xA7EFA5E3] ∧
  compress #v[0x67452301, 0xEFCDAB89, 0x98BADCFE, 0x10325476, 0xC3D2E1F0]
      #v[0x61626380, 0, 0, 0, 0, 0, 0, 0, 0, 0, 0, 0, 0, 0, 0, 0x00000018] =
    #v[0xA9993E36, 0x4706816A, 0xBA3E2571, 0x7850C26C, 0x9CD0D89D]

/-- R103: the message schedule. -/
def Obligations.ScheduleMeetsItsRecurrence : Prop :=
  ∀ m : Block, (schedule m).length = 80 ∧
    (∀ (t : Nat) (h : t < 16), (schedule m).getD t 0 = m[t]) ∧
    ∀ t, 16 ≤ t → t < 80 → (schedule m).getD t 0 =
      rotl 1 ((schedule m).getD (t - 3) 0 ^^^ (schedule m).getD (t - 8) 0 ^^^ (schedule m).getD (t - 14) 0 ^^^
        (schedule m).getD (t - 16) 0)

/-- R105 with the round step of R104: 80 round steps in order, then the final addition. -/
def Obligations.CompressRunsEightyRounds : Prop :=
  ∀ (s : Digest) (m : Block) (w : Nat → Work),
    w 0 = { a := s[0], b := s[1], c := s[2], d := s[3], e := s[4] } →
    (∀ t, t < 80 →
      (w (t + 1)).a = rotl 5 (w t).a + roundF t (w t).b (w t).c (w t).d + (w t).e + roundK t + (schedule m).getD t 0 ∧
      (w (t + 1)).b = (w t).a ∧ (w (t + 1)).c = rotl 30 (w t).b ∧ (w (t + 1)).d = (w t).c ∧
      (w (t + 1)).e = (w t).d) →
    compress s m = #v[s[0] + (w 80).a, s[1] + (w 80).b, s[2] + (w 80).c, s[3] + (w 80).d, s[4] + (w 80).e]

/-- R107: the padding, and that its zero count is the least that fills the block. -/
def Obligations.PaddingFillsTheLastBlock : Prop :=
  ∀ m : List Byte, m.length < 2 ^ 61 → ∃ z,
    padMessage m = m ++ [0x80] ++ List.replicate z 0 ++ be64Bytes (BitVec.ofNat 64 (8 * m.length)) ∧
    (m.length + 1 + z + 8) % 64 = 0 ∧ (∀ y, y < z → (m.length + 1 + y + 8) % 64 ≠ 0) ∧
    (be64Bytes (BitVec.ofNat 64 (8 * m.length))).length = 8

/-- 40_sha1.md section 2 (R110): `SHA_INIT`'s value, then `SHA_BLOCK` on each padded block, leaves SHA1 of the message in `H`. -/
def Obligations.HostHashesAnyMessage : Prop :=
  ∀ (m : List Byte) (s : State), s.h = #v[0x67452301, 0xEFCDAB89, 0x98BADCFE, 0x10325476, 0xC3D2E1F0] →
    ∃ t, HashesTo (messageBlocks m) s t ∧ t.h = sha1 m

/-- 41_hmac.md R122 (success case), the pad blocks formed from the byte string `K0` of R120 and R121. -/
def Obligations.KeySetupMakesTheInstance : Prop :=
  encode .keySetup = 0x00000003 ∧
  ∀ (s : State) (ip op : Block), s.keylen.toNat ≤ 64 → 1 ≤ s.codelen.toNat → s.codelen.toNat ≤ 10 →
    (∀ (k : Nat) (h : k < 16), ip[k] = be32At (zeroPadKey s.keyBytes) (4 * k) ^^^ 0x36363636) →
    (∀ (k : Nat) (h : k < 16), op[k] = be32At (zeroPadKey s.keyBytes) (4 * k) ^^^ 0x5C5C5C5C) →
    exec .keySetup s = .next { s with
      ipadH := compress sha1IV ip, opadH := compress sha1IV op
      status := { okStatus s with actlen := s.codelen, keyvalid := true } }

/-- R121: K0 is the key's first `KEYLEN` bytes, then zeros, whatever the buffer holds beyond. -/
def Obligations.KeyBytesBeyondKeylenAreZero : Prop :=
  ∀ (key : Block) (keylen : BitVec 7), keylen.toNat ≤ 64 → ∀ k, k < 16 → ∀ j, j < 4 →
    (wordBytes (k0Word key keylen k)).getD j 0 =
      if 4 * k + j < keylen.toNat then (bytesOf key.toList).getD (4 * k + j) 0 else 0x00

/-- 41_hmac.md R124: `HMAC_CTR` with its two block layouts written out (R123). -/
def Obligations.HmacCtrHashesTheCounterBlocks : Prop :=
  encode .hmacCtr = 0x00000004 ∧
  (∀ s, s.status.keyvalid = false → Reports .hmacCtr s 4) ∧
  ∀ (s : State) (inner : Digest), s.status.keyvalid = true →
    inner = compress s.ipadH #v[s.counterHi, s.counterLo, 0x80000000, 0, 0, 0, 0, 0, 0, 0, 0, 0, 0, 0, 0, 0x00000240] →
    exec .hmacCtr s = .next { s with
      digest := compress s.opadH #v[inner[0], inner[1], inner[2], inner[3], inner[4], 0x80000000, 0, 0, 0, 0, 0, 0, 0, 0,
        0, 0x000002A0]
      status := okStatus s }

/-- 41_hmac.md sections 1 and 2: after a successful `KEY_SETUP`, `HMAC_CTR` answers HMAC-SHA1 (R120) of the eight counter
bytes under the key that was set up, whatever is written to the key buffer, `KEYLEN`, `CFG` and `COUNTER` in between. -/
def Obligations.HmacCtrIsHmacSha1OfTheCounter : Prop :=
  ∀ (s t u : State), exec .keySetup s = .next t → t.status.errcode = 0 →
    SameInstance u t →
    ∃ v, exec .hmacCtr u = .next v ∧ v.status.errcode = 0 ∧
      v.digest = hmacSha1 s.keyBytes (be64Bytes u.counter)

/-- 41_hmac.md R125, 70_reset_and_hazards.md R213: for one engine instance the results are a function of the counter alone, and
those of `TOTP_GEN` of `TIME` and `PERIOD`, whatever `COUNTER` held before. -/
def Obligations.CodesDependOnInstanceAndCounterAlone : Prop :=
  ∀ s s', SameInstance s s' → s.status.keyvalid = true →
    (s.counter = s'.counter →
      (∃ t t', exec .hmacCtr s = .next t ∧ exec .hmacCtr s' = .next t' ∧ t.digest = t'.digest) ∧
      ∃ t t', exec .hotp s = .next t ∧ exec .hotp s' = .next t' ∧ t.digest = t'.digest ∧ t.offset = t'.offset ∧
        t.dtval = t'.dtval ∧ t.code = t'.code) ∧
    (s.time = s'.time → s.period = s'.period → s.period ≠ 0 →
      ∃ t t', exec .totpGen s = .next t ∧ exec .totpGen s' = .next t' ∧ t.counter = t'.counter ∧
        t.digest = t'.digest ∧ t.offset = t'.offset ∧ t.dtval = t'.dtval ∧ t.code = t'.code)

/-- R126: `ZEROIZE`, what it clears, what it leaves, and that the key commands then report KeyNotSetup. -/
def Obligations.ZeroizeClearsKeyMaterial : Prop :=
  encode .zeroize = 0x0000000F ∧
  ∀ s, ∃ t, exec .zeroize s = .next t ∧
    t = { s with
      key := #v[0, 0, 0, 0, 0, 0, 0, 0, 0, 0, 0, 0, 0, 0, 0, 0], keylen := 0
      ipadH := #v[0, 0, 0, 0, 0], opadH := #v[0, 0, 0, 0, 0]
      digest := #v[0, 0, 0, 0, 0], offset := 0, dtval := 0, code := 0
      h := #v[0, 0, 0, 0, 0], block := #v[0, 0, 0, 0, 0, 0, 0, 0, 0, 0, 0, 0, 0, 0, 0, 0]
      candLo := 0, candHi := 0, candlen := 0
      status := { okStatus s with keyvalid := false, actlen := 0 } } ∧
    ∀ i ∈ [Instr.hmacCtr, .trunc, .hotp, .totpGen, .totpVerify], Reports i t 4

/-- 42_truncation.md R140, R141: `TRUNC` in the source's own arithmetic on the digest bytes. -/
def Obligations.TruncFollowsDynamicTruncation : Prop :=
  encode .trunc = 0x00000005 ∧
  (∀ s, s.status.keyvalid = false → Reports .trunc s 4) ∧
  ∀ s, s.status.keyvalid = true →
    ∃ t, exec .trunc s = .next t ∧
      t = { s with offset := t.offset, dtval := t.dtval, code := t.code, status := okStatus s } ∧
      let d := bytesOf s.digest.toList
      t.offset.toNat = (d.getD 19 0).toNat % 16 ∧
      t.dtval.toNat =
        ((d.getD t.offset.toNat 0).toNat * 2 ^ 24 + (d.getD (t.offset.toNat + 1) 0).toNat * 2 ^ 16 +
          (d.getD (t.offset.toNat + 2) 0).toNat * 2 ^ 8 + (d.getD (t.offset.toNat + 3) 0).toNat) % 2 ^ 31 ∧
      t.code.toNat = t.dtval.toNat % 10 ^ s.status.actlen.toNat

/-- 42_truncation.md R142: `HOTP` is `HMAC_CTR` followed by `TRUNC`. -/
def Obligations.HotpIsHmacCtrThenTrunc : Prop :=
  encode .hotp = 0x00000006 ∧
  (∀ s, s.status.keyvalid = false → Reports .hotp s 4) ∧
  ∀ s, s.status.keyvalid = true →
    ∃ t u, exec .hmacCtr s = .next t ∧ exec .trunc t = .next u ∧ exec .hotp s = .next u ∧ u.status.errcode = 0 ∧
      u.counter = s.counter ∧ u.code = hotpCode s.ipadH s.opadH s.status.actlen s.counter

/-- R144: the ranges of `DTVAL` and `CODE` for each code length. -/
def Obligations.CodeRangesByLength : Prop :=
  ∀ s t, exec .trunc s = .next t → t.status.errcode = 0 → 1 ≤ s.status.actlen.toNat → s.status.actlen.toNat ≤ 10 →
    t.dtval.toNat ≤ 2147483647 ∧
    (s.status.actlen.toNat ≤ 9 →
      t.code.toNat = t.dtval.toNat % 10 ^ s.status.actlen.toNat ∧ t.code.toNat < 10 ^ 9) ∧
    (s.status.actlen.toNat = 10 → t.code.toNat = t.dtval.toNat ∧
      ∃ c ∈ ['0', '1', '2'], (render 10 t.code.toNat).head? = some c) ∧
    t.code.toNat < 2 ^ 31

/-- R143: rendering at a fixed length is a bijection between the codes below 10^L and the L-digit strings. -/
def Obligations.RenderingIsABijection : Prop :=
  (∀ len n, n < 10 ^ len →
    (render len n).length = len ∧ (∀ c ∈ render len n, '0' ≤ c ∧ c ≤ '9') ∧ decimalValue (render len n) = n) ∧
  ∀ cs : List Char, (∀ c ∈ cs, '0' ≤ c ∧ c ≤ '9') →
    decimalValue cs < 10 ^ cs.length ∧ render cs.length (decimalValue cs) = cs

/-- 43_counter.md R151: `TSTEP`. -/
def Obligations.TstepDividesTimeByPeriod : Prop :=
  encode .tstep = 0x00000007 ∧
  (∀ s, s.period.toNat = 0 → Reports .tstep s 2) ∧
  ∀ s, s.period.toNat ≠ 0 →
    ∃ t, exec .tstep s = .next t ∧
      t = { s with counterHi := t.counterHi, counterLo := t.counterLo, status := okStatus s } ∧
      t.counterHi.toNat * 2 ^ 32 + t.counterLo.toNat =
        (s.timeHi.toNat * 2 ^ 32 + s.timeLo.toNat) / (s.periodHi.toNat * 2 ^ 32 + s.periodLo.toNat)

/-- 43_counter.md R153: `TOTP_GEN` is `TSTEP` followed by `HOTP`. -/
def Obligations.TotpGenIsTstepThenHotp : Prop :=
  encode .totpGen = 0x00000008 ∧
  ∀ s, s.status.keyvalid = true → s.period ≠ 0 →
    ∃ t u, exec .tstep s = .next t ∧ exec .hotp t = .next u ∧ exec .totpGen s = .next u ∧ u.status.errcode = 0 ∧
      u.counter.toNat = s.time.toNat / s.period.toNat

/-- R154: the window bounds, on unsigned 64-bit values with no wrap. -/
def Obligations.WindowBoundsAreClipped : Prop :=
  ∀ c w : DWord,
    (windowLo c w).toNat = (if w.toNat ≤ c.toNat then c.toNat - w.toNat else 0) ∧
    (windowHi c w).toNat = (if c.toNat + w.toNat ≤ 2 ^ 64 - 1 then c.toNat + w.toNat else 2 ^ 64 - 1) ∧
    (windowLo c w).toNat ≤ c.toNat ∧ c.toNat ≤ (windowHi c w).toNat ∧
    (∀ i : Nat, InWindow c.toNat w.toNat i ↔ (windowLo c w).toNat ≤ i ∧ i ≤ (windowHi c w).toNat) ∧
    (windowHi c w).toNat - (windowLo c w).toNat + 1 ≤ 2 * w.toNat + 1 ∧
    (w.toNat < 2 ^ 32 → (windowHi c w).toNat - (windowLo c w).toNat + 1 ≤ 2 ^ 33 - 1)

/-- 43_counter.md R155, R156: `TOTP_VERIFY` finds the smallest matching counter of the clipped window, or none; its results are
those of the last counter evaluated. -/
def Obligations.TotpVerifySearchesTheWindow : Prop :=
  encode .totpVerify = 0x00000009 ∧
  ∀ s, s.status.keyvalid = true → s.period ≠ 0 →
    ∃ t c, exec .totpVerify s = .next t ∧ c = s.time.toNat / s.period.toNat ∧ t.counter.toNat = c ∧
      (t.status.vmatch = true ↔ ∃ i, InWindow c s.window.toNat i ∧ Matches s i) ∧
      (t.status.vmatch = true → InWindow c s.window.toNat t.matchctr.toNat ∧ Matches s t.matchctr.toNat ∧
        ∀ i, InWindow c s.window.toNat i → Matches s i → t.matchctr.toNat ≤ i) ∧
      (t.status.vmatch = false → InWindow c s.window.toNat t.matchctr.toNat ∧
        ∀ i, InWindow c s.window.toNat i → i ≤ t.matchctr.toNat) ∧
      (∃ u, exec .hotp { s with counterHi := t.matchctrHi, counterLo := t.matchctrLo } = .next u ∧
        t.digest = u.digest ∧ t.offset = u.offset ∧ t.dtval = u.dtval ∧ t.code = u.code) ∧
      t = { s with
        counterHi := t.counterHi, counterLo := t.counterLo, digest := t.digest, offset := t.offset, dtval := t.dtval
        code := t.code, matchctrHi := t.matchctrHi, matchctrLo := t.matchctrLo
        status := { okStatus s with vmatch := t.status.vmatch } }

/-- 43_counter.md R158 (a): the round trip of generation and verification. -/
def Obligations.VerifyAcceptsTheGeneratedCode : Prop :=
  ∀ s t, exec .totpGen s = .next t → t.status.errcode = 0 →
    ∃ u, exec .totpVerify { t with candHi := 0, candLo := t.code, candlen := t.status.actlen.setWidth 5, window := 0 } =
        .next u ∧ u.status.errcode = 0 ∧ u.status.vmatch = true ∧ u.matchctr = t.counter

/-- 43_counter.md R158 (b): a larger window keeps a match. -/
def Obligations.LargerWindowKeepsTheMatch : Prop :=
  ∀ (s t : State) (w : Word), s.status.vmatch = false → exec .totpVerify s = .next t → t.status.vmatch = true →
    s.window.toNat ≤ w.toNat →
    ∃ u, exec .totpVerify { s with window := w } = .next u ∧ u.status.vmatch = true

/-- R159: what the source's rejection property comes to: shifted by a period or more the counters differ, and with
`WINDOW = 0` a generated code is rejected exactly when the two counters' codes differ. -/
def Obligations.ShiftedTimeRejectsExactlyWhenCodesDiffer : Prop :=
  ∀ (s g : State) (hi lo : Word), exec .totpGen s = .next g → g.status.errcode = 0 →
    (s.time.toNat + s.period.toNat ≤ (pair hi lo).toNat ∨ (pair hi lo).toNat + s.period.toNat ≤ s.time.toNat) →
    ∃ v h, exec .totpVerify { g with
          timeHi := hi, timeLo := lo, candHi := 0, candLo := g.code, candlen := g.status.actlen.setWidth 5, window := 0 } =
        .next v ∧
      exec .totpGen { s with timeHi := hi, timeLo := lo } = .next h ∧ h.counter ≠ g.counter ∧
      (v.status.vmatch = false ↔ h.code ≠ g.code)

/-- 43_counter.md section 3 (R155, R157) with 42_truncation.md R143: for a candidate string converted as the host converts it,
verification with `WINDOW = 0` answers exact string equality with the rendered code. What the host writes to `CAND` for a string
that cannot match is the model's choice (DESIGN CHOICE, log entry 6). -/
def Obligations.VerificationIsStringEquality : Prop :=
  ∀ (s g : State) (cs : List Char), exec .totpGen s = .next g → g.status.errcode = 0 →
    1 ≤ g.status.actlen.toNat → g.status.actlen.toNat ≤ 10 →
    ∃ v, exec .totpVerify { g with
          candHi := hiWord (candidate cs).2, candLo := loWord (candidate cs).2, candlen := (candidate cs).1, window := 0 } =
        .next v ∧
      (v.status.vmatch = true ↔ cs = render g.status.actlen.toNat g.code.toNat)

/-! ### The register window -/

/-- R24: the layout of `STATUS`, and what a write to it does, busy or not. -/
def Obligations.StatusLayoutAndWriteOneToClear : Prop :=
  (∀ s : State, let w := readReg s .status
    w.getLsbD 0 = s.status.busy ∧ w.getLsbD 1 = s.status.done ∧ w.getLsbD 2 = s.status.err ∧
    w.getLsbD 3 = s.status.vmatch ∧ w.getLsbD 4 = s.status.keyvalid ∧ w.getLsbD 5 = s.status.busyerr ∧
    w.extractLsb' 6 2 = 0 ∧ w.extractLsb' 8 4 = s.status.errcode ∧ w.extractLsb' 12 4 = s.status.lastcmd ∧
    w.extractLsb' 16 4 = s.status.actlen ∧ w.extractLsb' 20 12 = 0) ∧
  Reg.status.byteOffset = 0x008 ∧ readReg State.reset .status = 0 ∧
  ∀ s v, s.rst = false → busWrite 0x008 v s = { s with
    status := { s.status with
      done := s.status.done && !v.getLsbD 1
      err := s.status.err && !v.getLsbD 2
      busyerr := s.status.busyerr && !v.getLsbD 5 } }

/-- R35: the level of `IRQ`, in the bits the host reads. -/
def Obligations.IrqIsTheEnabledFlags : Prop :=
  ∀ s, irq s =
    ((readReg s .status).getLsbD 1 && (readReg s .inten).getLsbD 0 ||
     (readReg s .status).getLsbD 2 && (readReg s .inten).getLsbD 1 ||
     (readReg s .status).getLsbD 5 && (readReg s .inten).getLsbD 2)

/-- R34: `INTEN`, writable whether or not busy, and that the host's turn performs the write that is due. How the turn moves the
model's schedule (log entry 2) is left open. -/
def Obligations.IntenKeepsItsThreeBits : Prop :=
  readReg State.reset .inten = 0 ∧
  ∀ s v, s.rst = false → ∃ n : Inten, busWrite 0x00C v s = { s with inten := n } ∧
    (readReg (busWrite 0x00C v s) .inten) = v &&& 0x00000007 ∧
    n.doneIe = v.getLsbD 0 ∧ n.errIe = v.getLsbD 1 ∧ n.busyerrIe = v.getLsbD 2 ∧
    ∀ rest, engineTurn s = false → s.inputs = .write 0x00C 4 v :: rest →
      ∃ d, step s = .next { s with inten := n, inputs := rest, delay := d }

/-- 10_state.md sections 1, 4 and 6: every register stands at its offset of the map (R20); an idle write to an input register
stores the written bits of its defined field, and nothing else the host can read changes; and the host's turn performs the
write that is due. How the turn moves the model's schedule (log entry 2) is left open. -/
def Obligations.InputRegisterReadsBackWhatWasWritten : Prop :=
  FollowsTheMap Reg.byteOffset ∧
  ∀ s v r, s.rst = false → s.status.busy = false → IsInput r →
    (∀ rest, s.inputs = .write r.byteOffset 4 v :: rest →
      ∃ d, step s = .next { busWrite r.byteOffset v s with inputs := rest, delay := d }) ∧
    readReg (busWrite r.byteOffset v s) r = v &&& definedBits r ∧
    (∀ q, q ≠ r → readReg (busWrite r.byteOffset v s) q = readReg s q) ∧
    (busWrite r.byteOffset v s).status = s.status ∧ SameInstance (busWrite r.byteOffset v s) s ∧
    (busWrite r.byteOffset v s).pending = s.pending ∧ (busWrite r.byteOffset v s).rst = s.rst

/-- 10_state.md section 7 (R52): reserved offsets read 0 and ignore writes, busy or not. -/
def Obligations.ReservedOffsetsReadZeroAndIgnoreWrites : Prop :=
  (∀ off s v, ReservedOffset off →
    readValue off s = 0 ∧ readsFree off s = false ∧ busWrite off v s = s) ∧
  ∀ off s v, off < 4096 → off % 4 = 0 → (∀ r : Reg, r.byteOffset ≠ off) → ReservedOffset off ∧ busWrite off v s = s

/-- R210: writes while busy; and that a write to a read-only register changes nothing, idle or busy (10_state.md R22, R44, R45,
R47, R53). -/
def Obligations.WritesWhileBusyAreIgnoredAndFlagged : Prop :=
  (∀ s v r, s.rst = false → IsReadOnly r → busWrite r.byteOffset v s = s) ∧
  ∀ s v, s.rst = false → s.status.busy = true →
    (∀ r, r = .ctrl ∨ IsInput r →
      busWrite r.byteOffset v s = { s with status := { s.status with busyerr := true } }) ∧
    (busWrite 0x008 v s).status.done = (s.status.done && !v.getLsbD 1) ∧
    (busWrite 0x008 v s).status.err = (s.status.err && !v.getLsbD 2) ∧
    (busWrite 0x008 v s).status.busyerr = (s.status.busyerr && !v.getLsbD 5) ∧
    readReg (busWrite 0x00C v s) .inten = v &&& 0x00000007 ∧
    ∀ off, ReservedOffset off → busWrite off v s = s

/-- 20_memory.md R60, 70_reset_and_hazards.md R211: what a read returns, idle or busy. A due read is performed by the host's
turn and its value logged; a register outside the running command's write row returns its value (so every register of an idle
core, and of one whose pending word selects no command), one inside it a free word (DESIGN CHOICE in its form, log entry 3). A due
poll reads `STATUS` and stays due while `BUSY = 1` (log entry 16). A reserved `ERRCODE` is shut out, since reading it faults (log
entry 10). How the turn moves the model's schedule (log entry 2) is left open. -/
def Obligations.ReadsWhileBusy : Prop :=
  ∀ s : State, s.status.errcode.toNat ≤ 5 →
    (∀ off, ∃ n, busRead off s = .next { s with reads := (off, readValue off s) :: s.reads, draws := n }) ∧
    (∀ off rest, engineTurn s = false → off % 4 = 0 → off < 4096 → s.inputs = .read off 4 :: rest →
      ∃ d, step s = busRead off { s with inputs := rest, delay := d }) ∧
    (∀ rest, engineTurn s = false → s.rst = false → s.inputs = .wait :: rest →
      ∃ d, step s = .next { s with
        inputs := if s.status.busy then .wait :: rest else rest
        reads := (0x008, readReg s .status) :: s.reads, delay := d }) ∧
    ∀ r : Reg, s.rst = false →
      ((∀ i, s.status.busy = true → decode s.pending = .ok i → r ∉ writeRow i) →
        busRead r.byteOffset s = .next { s with reads := (r.byteOffset, readReg s r) :: s.reads }) ∧
      ∀ i, s.status.busy = true → decode s.pending = .ok i → r ∈ writeRow i →
        busRead r.byteOffset s =
          .next { s with reads := (r.byteOffset, Config.freeRead s.draws) :: s.reads, draws := s.draws + 1 }

/-- 20_memory.md R67: a read has no side effect: only the host's own data changes. -/
def Obligations.ReadsHaveNoSideEffect : Prop :=
  ∀ s t, engineTurn s = false →
    (∃ rest, (∃ off size, s.inputs = .read off size :: rest) ∨ s.inputs = .wait :: rest) → step s = .next t →
    t = { s with inputs := t.inputs, reads := t.reads, delay := s.delay - 1, draws := t.draws } ∧
    t.reads.tail = s.reads ∧ t.reads ≠ []

/-- 10_state.md R46, 20_memory.md R69: no offset reads or writes the pad states. -/
def Obligations.PadStatesAreNotAddressable : Prop :=
  ∀ (s : State) (ip op : Digest) (off : Nat) (v : Word),
    readValue off { s with ipadH := ip, opadH := op } = readValue off s ∧
    (busWrite off v s).ipadH = s.ipadH ∧ (busWrite off v s).opadH = s.opadH ∧
    busWrite off v { s with ipadH := ip, opadH := op } = { busWrite off v s with ipadH := ip, opadH := op }

/-- 20_memory.md section 1 (R61): a transfer that is not one aligned word is refused; an aligned word inside the window is not.
That a wrong size is named before a wrong alignment is the model's choice (DESIGN CHOICE, log entry 11); the last clause shuts out
a reserved `ERRCODE`, since reading it faults (DEDUCED, log entry 10). -/
def Obligations.MalformedTransfersAreRefused : Prop :=
  ∀ s off size v rest, engineTurn s = false →
    (s.inputs = .read off size :: rest ∨ s.inputs = .write off size v :: rest) →
    (size ≠ 4 → step s = .refused .transferSize) ∧
    (size = 4 → off % 4 ≠ 0 → step s = .refused .transferAlignment) ∧
    (size = 4 → off % 4 = 0 → off < 4096 → s.status.errcode.toNat ≤ 5 → ∃ t, step s = .next t)

/-- R60: bus addresses reach the window at `BASE`, which is 4096-byte aligned. -/
def Obligations.WindowSitsAtBase : Prop :=
  Config.base % 4096 = 0 ∧
  (∀ off n v, off < 4096 → memRead (Config.base + off) n = some (.read off n) ∧
    memWrite (Config.base + off) n v = some (.write off n v)) ∧
  ∀ a n v, (a < Config.base ∨ Config.base + 4096 ≤ a) → memRead a n = none ∧ memWrite a n v = none

/-- 30_encoding.md section 4 (R93): `LDKEY` leaves exactly the key's bytes as the core's key (R121). -/
def Obligations.LdkeyLoadsTheKey : Prop :=
  ∀ (k : List Byte) (s : State), k.length ≤ 64 → s.rst = false → s.status.busy = false →
    (applyWrites (ldkey k) s).keyBytes = k ∧ (applyWrites (ldkey k) s).status = s.status

/-! ### Flags over every step -/

/-- R25: what writes `BUSY`. -/
def Obligations.BusyChangesOnlyByItsEvents : Prop :=
  ∀ s t, step s = .next t →
    (engineTurn s = true → t.status.busy = false) ∧
    (∀ v, HostWrites s .ctrl v → s.status.busy = false → t.status.busy = true) ∧
    (ResetDriven s → t.status.busy = false) ∧
    (t.status.busy = true → s.status.busy = false → ∃ v, HostWrites s .ctrl v) ∧
    (t.status.busy = false → s.status.busy = true → engineTurn s = true ∨ ResetDriven s)

/-- R26: `DONE`. -/
def Obligations.DoneChangesOnlyByItsEvents : Prop :=
  ∀ s t, step s = .next t →
    (engineTurn s = true → t.status.done = true) ∧
    (∀ v, HostWrites s .ctrl v → s.status.busy = false → t.status.done = false) ∧
    (∀ v, HostWrites s .status v → v.getLsbD 1 = true → t.status.done = false) ∧
    (t.status.done = true → s.status.done = false → engineTurn s = true) ∧
    (t.status.done = false → s.status.done = true →
      ResetDriven s ∨ (∃ v, HostWrites s .ctrl v ∧ s.status.busy = false) ∨
        ∃ v, HostWrites s .status v ∧ v.getLsbD 1 = true)

/-- R27: `ERR` is sticky. -/
def Obligations.ErrIsSticky : Prop :=
  ∀ s t, step s = .next t →
    (engineTurn s = true → t.status.errcode ≠ 0 → t.status.err = true) ∧
    (t.status.err = true → s.status.err = false → engineTurn s = true ∧ t.status.errcode ≠ 0) ∧
    (t.status.err = false → s.status.err = true →
      ResetDriven s ∨ ∃ v, HostWrites s .status v ∧ v.getLsbD 2 = true) ∧
    (ResetDriven s → t.status.err = false) ∧
    (∀ v, HostWrites s .status v → v.getLsbD 2 = true → t.status.err = false)

/-- R28: `VMATCH`. -/
def Obligations.VmatchIsSetOnlyByAMatchingVerify : Prop :=
  ∀ s t, step s = .next t →
    (∀ v, HostWrites s .ctrl v → s.status.busy = false → t.status.vmatch = false) ∧
    (t.status.vmatch = true → s.status.vmatch = false → Performs s .totpVerify ∧ t.status.errcode = 0 ∧
      ∃ i, InWindow (s.time.toNat / s.period.toNat) s.window.toNat i ∧ Matches s i) ∧
    (Sound s → engineTurn s = true → t.status.vmatch = true → Performs s .totpVerify ∧ t.status.errcode = 0)

/-- 10_state.md R29: what sets and clears `KEYVALID`. -/
def Obligations.KeyvalidChangesOnlyByItsEvents : Prop :=
  ∀ s t, step s = .next t →
    (Performs s .keySetup → t.status.errcode = 0 → t.status.keyvalid = true) ∧
    (Performs s .keySetup → t.status.errcode ≠ 0 → t.status.keyvalid = s.status.keyvalid) ∧
    (Performs s .zeroize → t.status.keyvalid = false) ∧ (ResetDriven s → t.status.keyvalid = false) ∧
    (t.status.keyvalid ≠ s.status.keyvalid → Performs s .keySetup ∨ Performs s .zeroize ∨ ResetDriven s)

/-- R30: `BUSYERR`. -/
def Obligations.BusyerrIsSetByIgnoredWrites : Prop :=
  ∀ s t, step s = .next t →
    (∀ r v, HostWrites s r v → (r = .ctrl ∨ IsInput r) → s.status.busy = true → t.status.busyerr = true) ∧
    (t.status.busyerr = true → s.status.busyerr = false →
      s.status.busy = true ∧ ∃ r v, (r = .ctrl ∨ IsInput r) ∧ HostWrites s r v) ∧
    (t.status.busyerr = false → s.status.busyerr = true →
      ResetDriven s ∨ ∃ v, HostWrites s .status v ∧ v.getLsbD 5 = true) ∧
    (ResetDriven s → t.status.busyerr = false) ∧
    (∀ v, HostWrites s .status v → v.getLsbD 5 = true → t.status.busyerr = false)

/-- 20_memory.md R66, R70 (a), 70_reset_and_hazards.md R202, R215: what a host step leaves alone. Between acceptance and
performance nothing a command reads or writes changes, so it is performed on the inputs of its acceptance; while idle no result
changes, nor the engine instance, nor the record of the last command. A turn with no input due changes nothing (DEDUCED, log entry
9), and a due write of any aligned offset of the window is performed. How the turn moves the model's schedule (log entry 2) in a
turn with no input due or with a write due is left open. -/
def Obligations.InputsAreHeldWhileBusy : Prop :=
  (∀ s t, s.status.busy = true → engineTurn s = false → ¬ ResetDriven s → step s = .next t →
    t = { s with
      status := { s.status with done := t.status.done, err := t.status.err, busyerr := t.status.busyerr }
      inten := t.inten, inputs := t.inputs, reads := t.reads, delay := s.delay - 1, draws := t.draws }) ∧
  (∀ s t, s.status.busy = false → ¬ ResetDriven s → step s = .next t →
    (∀ r, IsReadOnly r → readReg t r = readReg s r) ∧ SameInstance t s ∧ t.status.errcode = s.status.errcode ∧
    t.status.lastcmd = s.status.lastcmd ∧ t.rst = s.rst) ∧
  (∀ s, engineTurn s = false → s.inputs = [] → ∃ d, step s = .next { s with delay := d }) ∧
  ∀ s off v rest, engineTurn s = false → off % 4 = 0 → off < 4096 → s.inputs = .write off 4 v :: rest →
    ∃ d, step s = .next (busWrite off v { s with inputs := rest, delay := d })

/-! ### Reset, invariants, progress -/

/-- R200: the reset state, register by register, with the hidden state. -/
def Obligations.ResetStateIsTheTable : Prop :=
  (∀ r, readReg State.reset r = if r = .id then 0x48534131 else if r = .periodLo then 0x0000001E else 0) ∧
  State.reset.status = ⟨false, false, false, false, false, false, 0, 0, 0⟩ ∧
  State.reset.ipadH = #v[0, 0, 0, 0, 0] ∧ State.reset.opadH = #v[0, 0, 0, 0, 0] ∧ irq State.reset = false ∧
  engineTurn State.reset = false

/-- 70_reset_and_hazards.md R201: under reset reads return 0 and writes are ignored; driving the line abandons a command and
leaves the state of R200, the agents' own data apart. The model's choices in it: the registers hold that state as soon as the line
goes high, not only at release (DESIGN CHOICE, log entry 4); `PENDING` is 0 in it (DESIGN CHOICE, log entry 7), and so is `delay`
(DESIGN CHOICE, log entry 8). -/
def Obligations.ResetAbandonsTheCommand : Prop :=
  (∀ s off v, s.rst = true → readValue off s = 0 ∧ readsFree off s = false ∧ busWrite off v s = s ∧
    engineTurn s = false) ∧
  ∀ s level rest, engineTurn s = false → s.inputs = .reset level :: rest → (s.rst = true ∨ level = true) →
    step s = .next { State.reset with
      rst := level, inputs := rest, reads := s.reads, delays := s.delays, draws := s.draws }

/-- 10_state.md, 60_exceptions.md, 70_reset_and_hazards.md: the relations between registers those files state hold at reset. One
relation, `ResetOk` (while `rst` is high the state is the reset state), is the model's choice (DESIGN CHOICE, log entry 4). -/
def Obligations.InvariantHoldsAtReset : Prop := Sound State.reset

/-- The same relations are kept by every step, of either agent, from every state that meets them. `ResetOk` among them (while
`rst` is high the state is the reset state) is the model's choice (DESIGN CHOICE, log entry 4). -/
def Obligations.InvariantIsKeptByEveryStep : Prop := ∀ s t, Sound s → step s = .next t → Sound t

/-- R171 (the sentence after the table) with 20_memory.md R61: from a state that meets the invariant no step stops unless the
host issues a transfer the bus cannot carry or one outside the window (log entry 11). -/
def Obligations.SoundStatesNeverStop : Prop :=
  ∀ s, Sound s → (∀ x ∈ s.inputs, HostInput x ∨ ∃ level, x = .reset level) → ¬ Stops s

/-- 70_reset_and_hazards.md R214: an accepted command completes after the finite number of host turns its schedule gives,
whatever the host does on the bus meanwhile. That number, and that an idle turn counts, are the model's schedule (DESIGN CHOICE,
log entry 2). -/
def Obligations.AcceptedCommandCompletes : Prop :=
  ∀ s, Sound s → s.status.busy = true → (∀ x ∈ s.inputs, HostInput x) →
    ∃ t, Sys2Proof.core.run (s.delay + 1) s = .next t ∧ t.status.busy = false ∧ t.status.done = true ∧
      t.status.lastcmd = s.pending.extractLsb' 0 4
end

