-- ==== Sys2Proof/Laws/State.lean ====
section
/-! SUPPORT. One lemma per field per update of the state: what each named update leaves in each field. Written from the list of
fields, so that no later proof unfolds a record update. -/

namespace Sys2Proof.Machine

@[simp] theorem latch_status (v : Word) (s : State) : (latch v s).status = s.status.accepted := rfl
@[simp] theorem latch_inten (v : Word) (s : State) : (latch v s).inten = s.inten := rfl
@[simp] theorem latch_codelen (v : Word) (s : State) : (latch v s).codelen = s.codelen := rfl
@[simp] theorem latch_keylen (v : Word) (s : State) : (latch v s).keylen = s.keylen := rfl
@[simp] theorem latch_window (v : Word) (s : State) : (latch v s).window = s.window := rfl
@[simp] theorem latch_candlen (v : Word) (s : State) : (latch v s).candlen = s.candlen := rfl
@[simp] theorem latch_timeLo (v : Word) (s : State) : (latch v s).timeLo = s.timeLo := rfl
@[simp] theorem latch_timeHi (v : Word) (s : State) : (latch v s).timeHi = s.timeHi := rfl
@[simp] theorem latch_periodLo (v : Word) (s : State) : (latch v s).periodLo = s.periodLo := rfl
@[simp] theorem latch_periodHi (v : Word) (s : State) : (latch v s).periodHi = s.periodHi := rfl
@[simp] theorem latch_counterLo (v : Word) (s : State) : (latch v s).counterLo = s.counterLo := rfl
@[simp] theorem latch_counterHi (v : Word) (s : State) : (latch v s).counterHi = s.counterHi := rfl
@[simp] theorem latch_candLo (v : Word) (s : State) : (latch v s).candLo = s.candLo := rfl
@[simp] theorem latch_candHi (v : Word) (s : State) : (latch v s).candHi = s.candHi := rfl
@[simp] theorem latch_matchctrLo (v : Word) (s : State) : (latch v s).matchctrLo = s.matchctrLo := rfl
@[simp] theorem latch_matchctrHi (v : Word) (s : State) : (latch v s).matchctrHi = s.matchctrHi := rfl
@[simp] theorem latch_dtval (v : Word) (s : State) : (latch v s).dtval = s.dtval := rfl
@[simp] theorem latch_code (v : Word) (s : State) : (latch v s).code = s.code := rfl
@[simp] theorem latch_offset (v : Word) (s : State) : (latch v s).offset = s.offset := rfl
@[simp] theorem latch_digest (v : Word) (s : State) : (latch v s).digest = s.digest := rfl
@[simp] theorem latch_h (v : Word) (s : State) : (latch v s).h = s.h := rfl
@[simp] theorem latch_block (v : Word) (s : State) : (latch v s).block = s.block := rfl
@[simp] theorem latch_key (v : Word) (s : State) : (latch v s).key = s.key := rfl
@[simp] theorem latch_ipadH (v : Word) (s : State) : (latch v s).ipadH = s.ipadH := rfl
@[simp] theorem latch_opadH (v : Word) (s : State) : (latch v s).opadH = s.opadH := rfl
@[simp] theorem latch_pending (v : Word) (s : State) : (latch v s).pending = v := rfl
@[simp] theorem latch_rst (v : Word) (s : State) : (latch v s).rst = s.rst := rfl
@[simp] theorem latch_inputs (v : Word) (s : State) : (latch v s).inputs = s.inputs := rfl
@[simp] theorem latch_reads (v : Word) (s : State) : (latch v s).reads = s.reads := rfl
@[simp] theorem latch_delays (v : Word) (s : State) : (latch v s).delays = s.delays := rfl
@[simp] theorem latch_delay (v : Word) (s : State) : (latch v s).delay = s.delay := rfl
@[simp] theorem latch_draws (v : Word) (s : State) : (latch v s).draws = s.draws := rfl

@[simp] theorem startDelay_status (s : State) : (startDelay s).status = s.status := by unfold startDelay; split <;> rfl
@[simp] theorem startDelay_inten (s : State) : (startDelay s).inten = s.inten := by unfold startDelay; split <;> rfl
@[simp] theorem startDelay_codelen (s : State) : (startDelay s).codelen = s.codelen := by unfold startDelay; split <;> rfl
@[simp] theorem startDelay_keylen (s : State) : (startDelay s).keylen = s.keylen := by unfold startDelay; split <;> rfl
@[simp] theorem startDelay_window (s : State) : (startDelay s).window = s.window := by unfold startDelay; split <;> rfl
@[simp] theorem startDelay_candlen (s : State) : (startDelay s).candlen = s.candlen := by unfold startDelay; split <;> rfl
@[simp] theorem startDelay_timeLo (s : State) : (startDelay s).timeLo = s.timeLo := by unfold startDelay; split <;> rfl
@[simp] theorem startDelay_timeHi (s : State) : (startDelay s).timeHi = s.timeHi := by unfold startDelay; split <;> rfl
@[simp] theorem startDelay_periodLo (s : State) : (startDelay s).periodLo = s.periodLo := by unfold startDelay; split <;> rfl
@[simp] theorem startDelay_periodHi (s : State) : (startDelay s).periodHi = s.periodHi := by unfold startDelay; split <;> rfl
@[simp] theorem startDelay_counterLo (s : State) : (startDelay s).counterLo = s.counterLo := by unfold startDelay; split <;> rfl
@[simp] theorem startDelay_counterHi (s : State) : (startDelay s).counterHi = s.counterHi := by unfold startDelay; split <;> rfl
@[simp] theorem startDelay_candLo (s : State) : (startDelay s).candLo = s.candLo := by unfold startDelay; split <;> rfl
@[simp] theorem startDelay_candHi (s : State) : (startDelay s).candHi = s.candHi := by unfold startDelay; split <;> rfl
@[simp] theorem startDelay_matchctrLo (s : State) : (startDelay s).matchctrLo = s.matchctrLo := by unfold startDelay; split <;> rfl
@[simp] theorem startDelay_matchctrHi (s : State) : (startDelay s).matchctrHi = s.matchctrHi := by unfold startDelay; split <;> rfl
@[simp] theorem startDelay_dtval (s : State) : (startDelay s).dtval = s.dtval := by unfold startDelay; split <;> rfl
@[simp] theorem startDelay_code (s : State) : (startDelay s).code = s.code := by unfold startDelay; split <;> rfl
@[simp] theorem startDelay_offset (s : State) : (startDelay s).offset = s.offset := by unfold startDelay; split <;> rfl
@[simp] theorem startDelay_digest (s : State) : (startDelay s).digest = s.digest := by unfold startDelay; split <;> rfl
@[simp] theorem startDelay_h (s : State) : (startDelay s).h = s.h := by unfold startDelay; split <;> rfl
@[simp] theorem startDelay_block (s : State) : (startDelay s).block = s.block := by unfold startDelay; split <;> rfl
@[simp] theorem startDelay_key (s : State) : (startDelay s).key = s.key := by unfold startDelay; split <;> rfl
@[simp] theorem startDelay_ipadH (s : State) : (startDelay s).ipadH = s.ipadH := by unfold startDelay; split <;> rfl
@[simp] theorem startDelay_opadH (s : State) : (startDelay s).opadH = s.opadH := by unfold startDelay; split <;> rfl
@[simp] theorem startDelay_pending (s : State) : (startDelay s).pending = s.pending := by unfold startDelay; split <;> rfl
@[simp] theorem startDelay_rst (s : State) : (startDelay s).rst = s.rst := by unfold startDelay; split <;> rfl
@[simp] theorem startDelay_inputs (s : State) : (startDelay s).inputs = s.inputs := by unfold startDelay; split <;> rfl
@[simp] theorem startDelay_reads (s : State) : (startDelay s).reads = s.reads := by unfold startDelay; split <;> rfl

@[simp] theorem accept_status (v : Word) (s : State) : (accept v s).status = s.status.accepted := by simp [accept]
@[simp] theorem accept_inten (v : Word) (s : State) : (accept v s).inten = s.inten := by simp [accept]
@[simp] theorem accept_codelen (v : Word) (s : State) : (accept v s).codelen = s.codelen := by simp [accept]
@[simp] theorem accept_keylen (v : Word) (s : State) : (accept v s).keylen = s.keylen := by simp [accept]
@[simp] theorem accept_window (v : Word) (s : State) : (accept v s).window = s.window := by simp [accept]
@[simp] theorem accept_candlen (v : Word) (s : State) : (accept v s).candlen = s.candlen := by simp [accept]
@[simp] theorem accept_timeLo (v : Word) (s : State) : (accept v s).timeLo = s.timeLo := by simp [accept]
@[simp] theorem accept_timeHi (v : Word) (s : State) : (accept v s).timeHi = s.timeHi := by simp [accept]
@[simp] theorem accept_periodLo (v : Word) (s : State) : (accept v s).periodLo = s.periodLo := by simp [accept]
@[simp] theorem accept_periodHi (v : Word) (s : State) : (accept v s).periodHi = s.periodHi := by simp [accept]
@[simp] theorem accept_counterLo (v : Word) (s : State) : (accept v s).counterLo = s.counterLo := by simp [accept]
@[simp] theorem accept_counterHi (v : Word) (s : State) : (accept v s).counterHi = s.counterHi := by simp [accept]
@[simp] theorem accept_candLo (v : Word) (s : State) : (accept v s).candLo = s.candLo := by simp [accept]
@[simp] theorem accept_candHi (v : Word) (s : State) : (accept v s).candHi = s.candHi := by simp [accept]
@[simp] theorem accept_matchctrLo (v : Word) (s : State) : (accept v s).matchctrLo = s.matchctrLo := by simp [accept]
@[simp] theorem accept_matchctrHi (v : Word) (s : State) : (accept v s).matchctrHi = s.matchctrHi := by simp [accept]
@[simp] theorem accept_dtval (v : Word) (s : State) : (accept v s).dtval = s.dtval := by simp [accept]
@[simp] theorem accept_code (v : Word) (s : State) : (accept v s).code = s.code := by simp [accept]
@[simp] theorem accept_offset (v : Word) (s : State) : (accept v s).offset = s.offset := by simp [accept]
@[simp] theorem accept_digest (v : Word) (s : State) : (accept v s).digest = s.digest := by simp [accept]
@[simp] theorem accept_h (v : Word) (s : State) : (accept v s).h = s.h := by simp [accept]
@[simp] theorem accept_block (v : Word) (s : State) : (accept v s).block = s.block := by simp [accept]
@[simp] theorem accept_key (v : Word) (s : State) : (accept v s).key = s.key := by simp [accept]
@[simp] theorem accept_ipadH (v : Word) (s : State) : (accept v s).ipadH = s.ipadH := by simp [accept]
@[simp] theorem accept_opadH (v : Word) (s : State) : (accept v s).opadH = s.opadH := by simp [accept]
@[simp] theorem accept_pending (v : Word) (s : State) : (accept v s).pending = v := by simp [accept]
@[simp] theorem accept_rst (v : Word) (s : State) : (accept v s).rst = s.rst := by simp [accept]
@[simp] theorem accept_inputs (v : Word) (s : State) : (accept v s).inputs = s.inputs := by simp [accept]
@[simp] theorem accept_reads (v : Word) (s : State) : (accept v s).reads = s.reads := by simp [accept]

@[simp] theorem complete_status (e : Err) (s : State) : (complete e s).status = s.status.completed s.pending e := rfl
@[simp] theorem complete_inten (e : Err) (s : State) : (complete e s).inten = s.inten := rfl
@[simp] theorem complete_codelen (e : Err) (s : State) : (complete e s).codelen = s.codelen := rfl
@[simp] theorem complete_keylen (e : Err) (s : State) : (complete e s).keylen = s.keylen := rfl
@[simp] theorem complete_window (e : Err) (s : State) : (complete e s).window = s.window := rfl
@[simp] theorem complete_candlen (e : Err) (s : State) : (complete e s).candlen = s.candlen := rfl
@[simp] theorem complete_timeLo (e : Err) (s : State) : (complete e s).timeLo = s.timeLo := rfl
@[simp] theorem complete_timeHi (e : Err) (s : State) : (complete e s).timeHi = s.timeHi := rfl
@[simp] theorem complete_periodLo (e : Err) (s : State) : (complete e s).periodLo = s.periodLo := rfl
@[simp] theorem complete_periodHi (e : Err) (s : State) : (complete e s).periodHi = s.periodHi := rfl
@[simp] theorem complete_counterLo (e : Err) (s : State) : (complete e s).counterLo = s.counterLo := rfl
@[simp] theorem complete_counterHi (e : Err) (s : State) : (complete e s).counterHi = s.counterHi := rfl
@[simp] theorem complete_candLo (e : Err) (s : State) : (complete e s).candLo = s.candLo := rfl
@[simp] theorem complete_candHi (e : Err) (s : State) : (complete e s).candHi = s.candHi := rfl
@[simp] theorem complete_matchctrLo (e : Err) (s : State) : (complete e s).matchctrLo = s.matchctrLo := rfl
@[simp] theorem complete_matchctrHi (e : Err) (s : State) : (complete e s).matchctrHi = s.matchctrHi := rfl
@[simp] theorem complete_dtval (e : Err) (s : State) : (complete e s).dtval = s.dtval := rfl
@[simp] theorem complete_code (e : Err) (s : State) : (complete e s).code = s.code := rfl
@[simp] theorem complete_offset (e : Err) (s : State) : (complete e s).offset = s.offset := rfl
@[simp] theorem complete_digest (e : Err) (s : State) : (complete e s).digest = s.digest := rfl
@[simp] theorem complete_h (e : Err) (s : State) : (complete e s).h = s.h := rfl
@[simp] theorem complete_block (e : Err) (s : State) : (complete e s).block = s.block := rfl
@[simp] theorem complete_key (e : Err) (s : State) : (complete e s).key = s.key := rfl
@[simp] theorem complete_ipadH (e : Err) (s : State) : (complete e s).ipadH = s.ipadH := rfl
@[simp] theorem complete_opadH (e : Err) (s : State) : (complete e s).opadH = s.opadH := rfl
@[simp] theorem complete_pending (e : Err) (s : State) : (complete e s).pending = s.pending := rfl
@[simp] theorem complete_rst (e : Err) (s : State) : (complete e s).rst = s.rst := rfl
@[simp] theorem complete_inputs (e : Err) (s : State) : (complete e s).inputs = s.inputs := rfl
@[simp] theorem complete_reads (e : Err) (s : State) : (complete e s).reads = s.reads := rfl
@[simp] theorem complete_delays (e : Err) (s : State) : (complete e s).delays = s.delays := rfl
@[simp] theorem complete_delay (e : Err) (s : State) : (complete e s).delay = s.delay := rfl
@[simp] theorem complete_draws (e : Err) (s : State) : (complete e s).draws = s.draws := rfl

@[simp] theorem acknowledge_status (v : Word) (s : State) : (acknowledge v s).status = s.status.writeOneToClear v := rfl
@[simp] theorem acknowledge_inten (v : Word) (s : State) : (acknowledge v s).inten = s.inten := rfl
@[simp] theorem acknowledge_codelen (v : Word) (s : State) : (acknowledge v s).codelen = s.codelen := rfl
@[simp] theorem acknowledge_keylen (v : Word) (s : State) : (acknowledge v s).keylen = s.keylen := rfl
@[simp] theorem acknowledge_window (v : Word) (s : State) : (acknowledge v s).window = s.window := rfl
@[simp] theorem acknowledge_candlen (v : Word) (s : State) : (acknowledge v s).candlen = s.candlen := rfl
@[simp] theorem acknowledge_timeLo (v : Word) (s : State) : (acknowledge v s).timeLo = s.timeLo := rfl
@[simp] theorem acknowledge_timeHi (v : Word) (s : State) : (acknowledge v s).timeHi = s.timeHi := rfl
@[simp] theorem acknowledge_periodLo (v : Word) (s : State) : (acknowledge v s).periodLo = s.periodLo := rfl
@[simp] theorem acknowledge_periodHi (v : Word) (s : State) : (acknowledge v s).periodHi = s.periodHi := rfl
@[simp] theorem acknowledge_counterLo (v : Word) (s : State) : (acknowledge v s).counterLo = s.counterLo := rfl
@[simp] theorem acknowledge_counterHi (v : Word) (s : State) : (acknowledge v s).counterHi = s.counterHi := rfl
@[simp] theorem acknowledge_candLo (v : Word) (s : State) : (acknowledge v s).candLo = s.candLo := rfl
@[simp] theorem acknowledge_candHi (v : Word) (s : State) : (acknowledge v s).candHi = s.candHi := rfl
@[simp] theorem acknowledge_matchctrLo (v : Word) (s : State) : (acknowledge v s).matchctrLo = s.matchctrLo := rfl
@[simp] theorem acknowledge_matchctrHi (v : Word) (s : State) : (acknowledge v s).matchctrHi = s.matchctrHi := rfl
@[simp] theorem acknowledge_dtval (v : Word) (s : State) : (acknowledge v s).dtval = s.dtval := rfl
@[simp] theorem acknowledge_code (v : Word) (s : State) : (acknowledge v s).code = s.code := rfl
@[simp] theorem acknowledge_offset (v : Word) (s : State) : (acknowledge v s).offset = s.offset := rfl
@[simp] theorem acknowledge_digest (v : Word) (s : State) : (acknowledge v s).digest = s.digest := rfl
@[simp] theorem acknowledge_h (v : Word) (s : State) : (acknowledge v s).h = s.h := rfl
@[simp] theorem acknowledge_block (v : Word) (s : State) : (acknowledge v s).block = s.block := rfl
@[simp] theorem acknowledge_key (v : Word) (s : State) : (acknowledge v s).key = s.key := rfl
@[simp] theorem acknowledge_ipadH (v : Word) (s : State) : (acknowledge v s).ipadH = s.ipadH := rfl
@[simp] theorem acknowledge_opadH (v : Word) (s : State) : (acknowledge v s).opadH = s.opadH := rfl
@[simp] theorem acknowledge_pending (v : Word) (s : State) : (acknowledge v s).pending = s.pending := rfl
@[simp] theorem acknowledge_rst (v : Word) (s : State) : (acknowledge v s).rst = s.rst := rfl
@[simp] theorem acknowledge_inputs (v : Word) (s : State) : (acknowledge v s).inputs = s.inputs := rfl
@[simp] theorem acknowledge_reads (v : Word) (s : State) : (acknowledge v s).reads = s.reads := rfl
@[simp] theorem acknowledge_delays (v : Word) (s : State) : (acknowledge v s).delays = s.delays := rfl
@[simp] theorem acknowledge_delay (v : Word) (s : State) : (acknowledge v s).delay = s.delay := rfl
@[simp] theorem acknowledge_draws (v : Word) (s : State) : (acknowledge v s).draws = s.draws := rfl

@[simp] theorem State.setCounter_status (s : State) (v : DWord) : (s.setCounter v).status = s.status := rfl
@[simp] theorem State.setCounter_inten (s : State) (v : DWord) : (s.setCounter v).inten = s.inten := rfl
@[simp] theorem State.setCounter_codelen (s : State) (v : DWord) : (s.setCounter v).codelen = s.codelen := rfl
@[simp] theorem State.setCounter_keylen (s : State) (v : DWord) : (s.setCounter v).keylen = s.keylen := rfl
@[simp] theorem State.setCounter_window (s : State) (v : DWord) : (s.setCounter v).window = s.window := rfl
@[simp] theorem State.setCounter_candlen (s : State) (v : DWord) : (s.setCounter v).candlen = s.candlen := rfl
@[simp] theorem State.setCounter_timeLo (s : State) (v : DWord) : (s.setCounter v).timeLo = s.timeLo := rfl
@[simp] theorem State.setCounter_timeHi (s : State) (v : DWord) : (s.setCounter v).timeHi = s.timeHi := rfl
@[simp] theorem State.setCounter_periodLo (s : State) (v : DWord) : (s.setCounter v).periodLo = s.periodLo := rfl
@[simp] theorem State.setCounter_periodHi (s : State) (v : DWord) : (s.setCounter v).periodHi = s.periodHi := rfl
@[simp] theorem State.setCounter_counterLo (s : State) (v : DWord) : (s.setCounter v).counterLo = loWord v := rfl
@[simp] theorem State.setCounter_counterHi (s : State) (v : DWord) : (s.setCounter v).counterHi = hiWord v := rfl
@[simp] theorem State.setCounter_candLo (s : State) (v : DWord) : (s.setCounter v).candLo = s.candLo := rfl
@[simp] theorem State.setCounter_candHi (s : State) (v : DWord) : (s.setCounter v).candHi = s.candHi := rfl
@[simp] theorem State.setCounter_matchctrLo (s : State) (v : DWord) : (s.setCounter v).matchctrLo = s.matchctrLo := rfl
@[simp] theorem State.setCounter_matchctrHi (s : State) (v : DWord) : (s.setCounter v).matchctrHi = s.matchctrHi := rfl
@[simp] theorem State.setCounter_dtval (s : State) (v : DWord) : (s.setCounter v).dtval = s.dtval := rfl
@[simp] theorem State.setCounter_code (s : State) (v : DWord) : (s.setCounter v).code = s.code := rfl
@[simp] theorem State.setCounter_offset (s : State) (v : DWord) : (s.setCounter v).offset = s.offset := rfl
@[simp] theorem State.setCounter_digest (s : State) (v : DWord) : (s.setCounter v).digest = s.digest := rfl
@[simp] theorem State.setCounter_h (s : State) (v : DWord) : (s.setCounter v).h = s.h := rfl
@[simp] theorem State.setCounter_block (s : State) (v : DWord) : (s.setCounter v).block = s.block := rfl
@[simp] theorem State.setCounter_key (s : State) (v : DWord) : (s.setCounter v).key = s.key := rfl
@[simp] theorem State.setCounter_ipadH (s : State) (v : DWord) : (s.setCounter v).ipadH = s.ipadH := rfl
@[simp] theorem State.setCounter_opadH (s : State) (v : DWord) : (s.setCounter v).opadH = s.opadH := rfl
@[simp] theorem State.setCounter_pending (s : State) (v : DWord) : (s.setCounter v).pending = s.pending := rfl
@[simp] theorem State.setCounter_rst (s : State) (v : DWord) : (s.setCounter v).rst = s.rst := rfl
@[simp] theorem State.setCounter_inputs (s : State) (v : DWord) : (s.setCounter v).inputs = s.inputs := rfl
@[simp] theorem State.setCounter_reads (s : State) (v : DWord) : (s.setCounter v).reads = s.reads := rfl
@[simp] theorem State.setCounter_delays (s : State) (v : DWord) : (s.setCounter v).delays = s.delays := rfl
@[simp] theorem State.setCounter_delay (s : State) (v : DWord) : (s.setCounter v).delay = s.delay := rfl
@[simp] theorem State.setCounter_draws (s : State) (v : DWord) : (s.setCounter v).draws = s.draws := rfl

@[simp] theorem State.setMatchctr_status (s : State) (v : DWord) : (s.setMatchctr v).status = s.status := rfl
@[simp] theorem State.setMatchctr_inten (s : State) (v : DWord) : (s.setMatchctr v).inten = s.inten := rfl
@[simp] theorem State.setMatchctr_codelen (s : State) (v : DWord) : (s.setMatchctr v).codelen = s.codelen := rfl
@[simp] theorem State.setMatchctr_keylen (s : State) (v : DWord) : (s.setMatchctr v).keylen = s.keylen := rfl
@[simp] theorem State.setMatchctr_window (s : State) (v : DWord) : (s.setMatchctr v).window = s.window := rfl
@[simp] theorem State.setMatchctr_candlen (s : State) (v : DWord) : (s.setMatchctr v).candlen = s.candlen := rfl
@[simp] theorem State.setMatchctr_timeLo (s : State) (v : DWord) : (s.setMatchctr v).timeLo = s.timeLo := rfl
@[simp] theorem State.setMatchctr_timeHi (s : State) (v : DWord) : (s.setMatchctr v).timeHi = s.timeHi := rfl
@[simp] theorem State.setMatchctr_periodLo (s : State) (v : DWord) : (s.setMatchctr v).periodLo = s.periodLo := rfl
@[simp] theorem State.setMatchctr_periodHi (s : State) (v : DWord) : (s.setMatchctr v).periodHi = s.periodHi := rfl
@[simp] theorem State.setMatchctr_counterLo (s : State) (v : DWord) : (s.setMatchctr v).counterLo = s.counterLo := rfl
@[simp] theorem State.setMatchctr_counterHi (s : State) (v : DWord) : (s.setMatchctr v).counterHi = s.counterHi := rfl
@[simp] theorem State.setMatchctr_candLo (s : State) (v : DWord) : (s.setMatchctr v).candLo = s.candLo := rfl
@[simp] theorem State.setMatchctr_candHi (s : State) (v : DWord) : (s.setMatchctr v).candHi = s.candHi := rfl
@[simp] theorem State.setMatchctr_matchctrLo (s : State) (v : DWord) : (s.setMatchctr v).matchctrLo = loWord v := rfl
@[simp] theorem State.setMatchctr_matchctrHi (s : State) (v : DWord) : (s.setMatchctr v).matchctrHi = hiWord v := rfl
@[simp] theorem State.setMatchctr_dtval (s : State) (v : DWord) : (s.setMatchctr v).dtval = s.dtval := rfl
@[simp] theorem State.setMatchctr_code (s : State) (v : DWord) : (s.setMatchctr v).code = s.code := rfl
@[simp] theorem State.setMatchctr_offset (s : State) (v : DWord) : (s.setMatchctr v).offset = s.offset := rfl
@[simp] theorem State.setMatchctr_digest (s : State) (v : DWord) : (s.setMatchctr v).digest = s.digest := rfl
@[simp] theorem State.setMatchctr_h (s : State) (v : DWord) : (s.setMatchctr v).h = s.h := rfl
@[simp] theorem State.setMatchctr_block (s : State) (v : DWord) : (s.setMatchctr v).block = s.block := rfl
@[simp] theorem State.setMatchctr_key (s : State) (v : DWord) : (s.setMatchctr v).key = s.key := rfl
@[simp] theorem State.setMatchctr_ipadH (s : State) (v : DWord) : (s.setMatchctr v).ipadH = s.ipadH := rfl
@[simp] theorem State.setMatchctr_opadH (s : State) (v : DWord) : (s.setMatchctr v).opadH = s.opadH := rfl
@[simp] theorem State.setMatchctr_pending (s : State) (v : DWord) : (s.setMatchctr v).pending = s.pending := rfl
@[simp] theorem State.setMatchctr_rst (s : State) (v : DWord) : (s.setMatchctr v).rst = s.rst := rfl
@[simp] theorem State.setMatchctr_inputs (s : State) (v : DWord) : (s.setMatchctr v).inputs = s.inputs := rfl
@[simp] theorem State.setMatchctr_reads (s : State) (v : DWord) : (s.setMatchctr v).reads = s.reads := rfl
@[simp] theorem State.setMatchctr_delays (s : State) (v : DWord) : (s.setMatchctr v).delays = s.delays := rfl
@[simp] theorem State.setMatchctr_delay (s : State) (v : DWord) : (s.setMatchctr v).delay = s.delay := rfl
@[simp] theorem State.setMatchctr_draws (s : State) (v : DWord) : (s.setMatchctr v).draws = s.draws := rfl

@[simp] theorem State.setH_status (s : State) (v : Digest) : (s.setH v).status = s.status := rfl
@[simp] theorem State.setH_inten (s : State) (v : Digest) : (s.setH v).inten = s.inten := rfl
@[simp] theorem State.setH_codelen (s : State) (v : Digest) : (s.setH v).codelen = s.codelen := rfl
@[simp] theorem State.setH_keylen (s : State) (v : Digest) : (s.setH v).keylen = s.keylen := rfl
@[simp] theorem State.setH_window (s : State) (v : Digest) : (s.setH v).window = s.window := rfl
@[simp] theorem State.setH_candlen (s : State) (v : Digest) : (s.setH v).candlen = s.candlen := rfl
@[simp] theorem State.setH_timeLo (s : State) (v : Digest) : (s.setH v).timeLo = s.timeLo := rfl
@[simp] theorem State.setH_timeHi (s : State) (v : Digest) : (s.setH v).timeHi = s.timeHi := rfl
@[simp] theorem State.setH_periodLo (s : State) (v : Digest) : (s.setH v).periodLo = s.periodLo := rfl
@[simp] theorem State.setH_periodHi (s : State) (v : Digest) : (s.setH v).periodHi = s.periodHi := rfl
@[simp] theorem State.setH_counterLo (s : State) (v : Digest) : (s.setH v).counterLo = s.counterLo := rfl
@[simp] theorem State.setH_counterHi (s : State) (v : Digest) : (s.setH v).counterHi = s.counterHi := rfl
@[simp] theorem State.setH_candLo (s : State) (v : Digest) : (s.setH v).candLo = s.candLo := rfl
@[simp] theorem State.setH_candHi (s : State) (v : Digest) : (s.setH v).candHi = s.candHi := rfl
@[simp] theorem State.setH_matchctrLo (s : State) (v : Digest) : (s.setH v).matchctrLo = s.matchctrLo := rfl
@[simp] theorem State.setH_matchctrHi (s : State) (v : Digest) : (s.setH v).matchctrHi = s.matchctrHi := rfl
@[simp] theorem State.setH_dtval (s : State) (v : Digest) : (s.setH v).dtval = s.dtval := rfl
@[simp] theorem State.setH_code (s : State) (v : Digest) : (s.setH v).code = s.code := rfl
@[simp] theorem State.setH_offset (s : State) (v : Digest) : (s.setH v).offset = s.offset := rfl
@[simp] theorem State.setH_digest (s : State) (v : Digest) : (s.setH v).digest = s.digest := rfl
@[simp] theorem State.setH_h (s : State) (v : Digest) : (s.setH v).h = v := rfl
@[simp] theorem State.setH_block (s : State) (v : Digest) : (s.setH v).block = s.block := rfl
@[simp] theorem State.setH_key (s : State) (v : Digest) : (s.setH v).key = s.key := rfl
@[simp] theorem State.setH_ipadH (s : State) (v : Digest) : (s.setH v).ipadH = s.ipadH := rfl
@[simp] theorem State.setH_opadH (s : State) (v : Digest) : (s.setH v).opadH = s.opadH := rfl
@[simp] theorem State.setH_pending (s : State) (v : Digest) : (s.setH v).pending = s.pending := rfl
@[simp] theorem State.setH_rst (s : State) (v : Digest) : (s.setH v).rst = s.rst := rfl
@[simp] theorem State.setH_inputs (s : State) (v : Digest) : (s.setH v).inputs = s.inputs := rfl
@[simp] theorem State.setH_reads (s : State) (v : Digest) : (s.setH v).reads = s.reads := rfl
@[simp] theorem State.setH_delays (s : State) (v : Digest) : (s.setH v).delays = s.delays := rfl
@[simp] theorem State.setH_delay (s : State) (v : Digest) : (s.setH v).delay = s.delay := rfl
@[simp] theorem State.setH_draws (s : State) (v : Digest) : (s.setH v).draws = s.draws := rfl

@[simp] theorem State.setDigest_status (s : State) (d : Digest) : (s.setDigest d).status = s.status := rfl
@[simp] theorem State.setDigest_inten (s : State) (d : Digest) : (s.setDigest d).inten = s.inten := rfl
@[simp] theorem State.setDigest_codelen (s : State) (d : Digest) : (s.setDigest d).codelen = s.codelen := rfl
@[simp] theorem State.setDigest_keylen (s : State) (d : Digest) : (s.setDigest d).keylen = s.keylen := rfl
@[simp] theorem State.setDigest_window (s : State) (d : Digest) : (s.setDigest d).window = s.window := rfl
@[simp] theorem State.setDigest_candlen (s : State) (d : Digest) : (s.setDigest d).candlen = s.candlen := rfl
@[simp] theorem State.setDigest_timeLo (s : State) (d : Digest) : (s.setDigest d).timeLo = s.timeLo := rfl
@[simp] theorem State.setDigest_timeHi (s : State) (d : Digest) : (s.setDigest d).timeHi = s.timeHi := rfl
@[simp] theorem State.setDigest_periodLo (s : State) (d : Digest) : (s.setDigest d).periodLo = s.periodLo := rfl
@[simp] theorem State.setDigest_periodHi (s : State) (d : Digest) : (s.setDigest d).periodHi = s.periodHi := rfl
@[simp] theorem State.setDigest_counterLo (s : State) (d : Digest) : (s.setDigest d).counterLo = s.counterLo := rfl
@[simp] theorem State.setDigest_counterHi (s : State) (d : Digest) : (s.setDigest d).counterHi = s.counterHi := rfl
@[simp] theorem State.setDigest_candLo (s : State) (d : Digest) : (s.setDigest d).candLo = s.candLo := rfl
@[simp] theorem State.setDigest_candHi (s : State) (d : Digest) : (s.setDigest d).candHi = s.candHi := rfl
@[simp] theorem State.setDigest_matchctrLo (s : State) (d : Digest) : (s.setDigest d).matchctrLo = s.matchctrLo := rfl
@[simp] theorem State.setDigest_matchctrHi (s : State) (d : Digest) : (s.setDigest d).matchctrHi = s.matchctrHi := rfl
@[simp] theorem State.setDigest_dtval (s : State) (d : Digest) : (s.setDigest d).dtval = s.dtval := rfl
@[simp] theorem State.setDigest_code (s : State) (d : Digest) : (s.setDigest d).code = s.code := rfl
@[simp] theorem State.setDigest_offset (s : State) (d : Digest) : (s.setDigest d).offset = s.offset := rfl
@[simp] theorem State.setDigest_digest (s : State) (d : Digest) : (s.setDigest d).digest = d := rfl
@[simp] theorem State.setDigest_h (s : State) (d : Digest) : (s.setDigest d).h = s.h := rfl
@[simp] theorem State.setDigest_block (s : State) (d : Digest) : (s.setDigest d).block = s.block := rfl
@[simp] theorem State.setDigest_key (s : State) (d : Digest) : (s.setDigest d).key = s.key := rfl
@[simp] theorem State.setDigest_ipadH (s : State) (d : Digest) : (s.setDigest d).ipadH = s.ipadH := rfl
@[simp] theorem State.setDigest_opadH (s : State) (d : Digest) : (s.setDigest d).opadH = s.opadH := rfl
@[simp] theorem State.setDigest_pending (s : State) (d : Digest) : (s.setDigest d).pending = s.pending := rfl
@[simp] theorem State.setDigest_rst (s : State) (d : Digest) : (s.setDigest d).rst = s.rst := rfl
@[simp] theorem State.setDigest_inputs (s : State) (d : Digest) : (s.setDigest d).inputs = s.inputs := rfl
@[simp] theorem State.setDigest_reads (s : State) (d : Digest) : (s.setDigest d).reads = s.reads := rfl
@[simp] theorem State.setDigest_delays (s : State) (d : Digest) : (s.setDigest d).delays = s.delays := rfl
@[simp] theorem State.setDigest_delay (s : State) (d : Digest) : (s.setDigest d).delay = s.delay := rfl
@[simp] theorem State.setDigest_draws (s : State) (d : Digest) : (s.setDigest d).draws = s.draws := rfl

@[simp] theorem State.setTruncation_status (s : State) (o : BitVec 4) (dt : BitVec 31) (c : Word) : (s.setTruncation o dt c).status = s.status := rfl
@[simp] theorem State.setTruncation_inten (s : State) (o : BitVec 4) (dt : BitVec 31) (c : Word) : (s.setTruncation o dt c).inten = s.inten := rfl
@[simp] theorem State.setTruncation_codelen (s : State) (o : BitVec 4) (dt : BitVec 31) (c : Word) : (s.setTruncation o dt c).codelen = s.codelen := rfl
@[simp] theorem State.setTruncation_keylen (s : State) (o : BitVec 4) (dt : BitVec 31) (c : Word) : (s.setTruncation o dt c).keylen = s.keylen := rfl
@[simp] theorem State.setTruncation_window (s : State) (o : BitVec 4) (dt : BitVec 31) (c : Word) : (s.setTruncation o dt c).window = s.window := rfl
@[simp] theorem State.setTruncation_candlen (s : State) (o : BitVec 4) (dt : BitVec 31) (c : Word) : (s.setTruncation o dt c).candlen = s.candlen := rfl
@[simp] theorem State.setTruncation_timeLo (s : State) (o : BitVec 4) (dt : BitVec 31) (c : Word) : (s.setTruncation o dt c).timeLo = s.timeLo := rfl
@[simp] theorem State.setTruncation_timeHi (s : State) (o : BitVec 4) (dt : BitVec 31) (c : Word) : (s.setTruncation o dt c).timeHi = s.timeHi := rfl
@[simp] theorem State.setTruncation_periodLo (s : State) (o : BitVec 4) (dt : BitVec 31) (c : Word) : (s.setTruncation o dt c).periodLo = s.periodLo := rfl
@[simp] theorem State.setTruncation_periodHi (s : State) (o : BitVec 4) (dt : BitVec 31) (c : Word) : (s.setTruncation o dt c).periodHi = s.periodHi := rfl
@[simp] theorem State.setTruncation_counterLo (s : State) (o : BitVec 4) (dt : BitVec 31) (c : Word) : (s.setTruncation o dt c).counterLo = s.counterLo := rfl
@[simp] theorem State.setTruncation_counterHi (s : State) (o : BitVec 4) (dt : BitVec 31) (c : Word) : (s.setTruncation o dt c).counterHi = s.counterHi := rfl
@[simp] theorem State.setTruncation_candLo (s : State) (o : BitVec 4) (dt : BitVec 31) (c : Word) : (s.setTruncation o dt c).candLo = s.candLo := rfl
@[simp] theorem State.setTruncation_candHi (s : State) (o : BitVec 4) (dt : BitVec 31) (c : Word) : (s.setTruncation o dt c).candHi = s.candHi := rfl
@[simp] theorem State.setTruncation_matchctrLo (s : State) (o : BitVec 4) (dt : BitVec 31) (c : Word) : (s.setTruncation o dt c).matchctrLo = s.matchctrLo := rfl
@[simp] theorem State.setTruncation_matchctrHi (s : State) (o : BitVec 4) (dt : BitVec 31) (c : Word) : (s.setTruncation o dt c).matchctrHi = s.matchctrHi := rfl
@[simp] theorem State.setTruncation_dtval (s : State) (o : BitVec 4) (dt : BitVec 31) (c : Word) : (s.setTruncation o dt c).dtval = dt := rfl
@[simp] theorem State.setTruncation_code (s : State) (o : BitVec 4) (dt : BitVec 31) (c : Word) : (s.setTruncation o dt c).code = c := rfl
@[simp] theorem State.setTruncation_offset (s : State) (o : BitVec 4) (dt : BitVec 31) (c : Word) : (s.setTruncation o dt c).offset = o := rfl
@[simp] theorem State.setTruncation_digest (s : State) (o : BitVec 4) (dt : BitVec 31) (c : Word) : (s.setTruncation o dt c).digest = s.digest := rfl
@[simp] theorem State.setTruncation_h (s : State) (o : BitVec 4) (dt : BitVec 31) (c : Word) : (s.setTruncation o dt c).h = s.h := rfl
@[simp] theorem State.setTruncation_block (s : State) (o : BitVec 4) (dt : BitVec 31) (c : Word) : (s.setTruncation o dt c).block = s.block := rfl
@[simp] theorem State.setTruncation_key (s : State) (o : BitVec 4) (dt : BitVec 31) (c : Word) : (s.setTruncation o dt c).key = s.key := rfl
@[simp] theorem State.setTruncation_ipadH (s : State) (o : BitVec 4) (dt : BitVec 31) (c : Word) : (s.setTruncation o dt c).ipadH = s.ipadH := rfl
@[simp] theorem State.setTruncation_opadH (s : State) (o : BitVec 4) (dt : BitVec 31) (c : Word) : (s.setTruncation o dt c).opadH = s.opadH := rfl
@[simp] theorem State.setTruncation_pending (s : State) (o : BitVec 4) (dt : BitVec 31) (c : Word) : (s.setTruncation o dt c).pending = s.pending := rfl
@[simp] theorem State.setTruncation_rst (s : State) (o : BitVec 4) (dt : BitVec 31) (c : Word) : (s.setTruncation o dt c).rst = s.rst := rfl
@[simp] theorem State.setTruncation_inputs (s : State) (o : BitVec 4) (dt : BitVec 31) (c : Word) : (s.setTruncation o dt c).inputs = s.inputs := rfl
@[simp] theorem State.setTruncation_reads (s : State) (o : BitVec 4) (dt : BitVec 31) (c : Word) : (s.setTruncation o dt c).reads = s.reads := rfl
@[simp] theorem State.setTruncation_delays (s : State) (o : BitVec 4) (dt : BitVec 31) (c : Word) : (s.setTruncation o dt c).delays = s.delays := rfl
@[simp] theorem State.setTruncation_delay (s : State) (o : BitVec 4) (dt : BitVec 31) (c : Word) : (s.setTruncation o dt c).delay = s.delay := rfl
@[simp] theorem State.setTruncation_draws (s : State) (o : BitVec 4) (dt : BitVec 31) (c : Word) : (s.setTruncation o dt c).draws = s.draws := rfl

@[simp] theorem State.setInstance_status (s : State) (ip op : Digest) (len : BitVec 4) : (s.setInstance ip op len).status = { s.status with actlen := len, keyvalid := true } := rfl
@[simp] theorem State.setInstance_inten (s : State) (ip op : Digest) (len : BitVec 4) : (s.setInstance ip op len).inten = s.inten := rfl
@[simp] theorem State.setInstance_codelen (s : State) (ip op : Digest) (len : BitVec 4) : (s.setInstance ip op len).codelen = s.codelen := rfl
@[simp] theorem State.setInstance_keylen (s : State) (ip op : Digest) (len : BitVec 4) : (s.setInstance ip op len).keylen = s.keylen := rfl
@[simp] theorem State.setInstance_window (s : State) (ip op : Digest) (len : BitVec 4) : (s.setInstance ip op len).window = s.window := rfl
@[simp] theorem State.setInstance_candlen (s : State) (ip op : Digest) (len : BitVec 4) : (s.setInstance ip op len).candlen = s.candlen := rfl
@[simp] theorem State.setInstance_timeLo (s : State) (ip op : Digest) (len : BitVec 4) : (s.setInstance ip op len).timeLo = s.timeLo := rfl
@[simp] theorem State.setInstance_timeHi (s : State) (ip op : Digest) (len : BitVec 4) : (s.setInstance ip op len).timeHi = s.timeHi := rfl
@[simp] theorem State.setInstance_periodLo (s : State) (ip op : Digest) (len : BitVec 4) : (s.setInstance ip op len).periodLo = s.periodLo := rfl
@[simp] theorem State.setInstance_periodHi (s : State) (ip op : Digest) (len : BitVec 4) : (s.setInstance ip op len).periodHi = s.periodHi := rfl
@[simp] theorem State.setInstance_counterLo (s : State) (ip op : Digest) (len : BitVec 4) : (s.setInstance ip op len).counterLo = s.counterLo := rfl
@[simp] theorem State.setInstance_counterHi (s : State) (ip op : Digest) (len : BitVec 4) : (s.setInstance ip op len).counterHi = s.counterHi := rfl
@[simp] theorem State.setInstance_candLo (s : State) (ip op : Digest) (len : BitVec 4) : (s.setInstance ip op len).candLo = s.candLo := rfl
@[simp] theorem State.setInstance_candHi (s : State) (ip op : Digest) (len : BitVec 4) : (s.setInstance ip op len).candHi = s.candHi := rfl
@[simp] theorem State.setInstance_matchctrLo (s : State) (ip op : Digest) (len : BitVec 4) : (s.setInstance ip op len).matchctrLo = s.matchctrLo := rfl
@[simp] theorem State.setInstance_matchctrHi (s : State) (ip op : Digest) (len : BitVec 4) : (s.setInstance ip op len).matchctrHi = s.matchctrHi := rfl
@[simp] theorem State.setInstance_dtval (s : State) (ip op : Digest) (len : BitVec 4) : (s.setInstance ip op len).dtval = s.dtval := rfl
@[simp] theorem State.setInstance_code (s : State) (ip op : Digest) (len : BitVec 4) : (s.setInstance ip op len).code = s.code := rfl
@[simp] theorem State.setInstance_offset (s : State) (ip op : Digest) (len : BitVec 4) : (s.setInstance ip op len).offset = s.offset := rfl
@[simp] theorem State.setInstance_digest (s : State) (ip op : Digest) (len : BitVec 4) : (s.setInstance ip op len).digest = s.digest := rfl
@[simp] theorem State.setInstance_h (s : State) (ip op : Digest) (len : BitVec 4) : (s.setInstance ip op len).h = s.h := rfl
@[simp] theorem State.setInstance_block (s : State) (ip op : Digest) (len : BitVec 4) : (s.setInstance ip op len).block = s.block := rfl
@[simp] theorem State.setInstance_key (s : State) (ip op : Digest) (len : BitVec 4) : (s.setInstance ip op len).key = s.key := rfl
@[simp] theorem State.setInstance_ipadH (s : State) (ip op : Digest) (len : BitVec 4) : (s.setInstance ip op len).ipadH = ip := rfl
@[simp] theorem State.setInstance_opadH (s : State) (ip op : Digest) (len : BitVec 4) : (s.setInstance ip op len).opadH = op := rfl
@[simp] theorem State.setInstance_pending (s : State) (ip op : Digest) (len : BitVec 4) : (s.setInstance ip op len).pending = s.pending := rfl
@[simp] theorem State.setInstance_rst (s : State) (ip op : Digest) (len : BitVec 4) : (s.setInstance ip op len).rst = s.rst := rfl
@[simp] theorem State.setInstance_inputs (s : State) (ip op : Digest) (len : BitVec 4) : (s.setInstance ip op len).inputs = s.inputs := rfl
@[simp] theorem State.setInstance_reads (s : State) (ip op : Digest) (len : BitVec 4) : (s.setInstance ip op len).reads = s.reads := rfl
@[simp] theorem State.setInstance_delays (s : State) (ip op : Digest) (len : BitVec 4) : (s.setInstance ip op len).delays = s.delays := rfl
@[simp] theorem State.setInstance_delay (s : State) (ip op : Digest) (len : BitVec 4) : (s.setInstance ip op len).delay = s.delay := rfl
@[simp] theorem State.setInstance_draws (s : State) (ip op : Digest) (len : BitVec 4) : (s.setInstance ip op len).draws = s.draws := rfl

@[simp] theorem State.setSchedule_status (s : State) (d : Nat) (ds : List Nat) (n : Nat) : (s.setSchedule d ds n).status = s.status := rfl
@[simp] theorem State.setSchedule_inten (s : State) (d : Nat) (ds : List Nat) (n : Nat) : (s.setSchedule d ds n).inten = s.inten := rfl
@[simp] theorem State.setSchedule_codelen (s : State) (d : Nat) (ds : List Nat) (n : Nat) : (s.setSchedule d ds n).codelen = s.codelen := rfl
@[simp] theorem State.setSchedule_keylen (s : State) (d : Nat) (ds : List Nat) (n : Nat) : (s.setSchedule d ds n).keylen = s.keylen := rfl
@[simp] theorem State.setSchedule_window (s : State) (d : Nat) (ds : List Nat) (n : Nat) : (s.setSchedule d ds n).window = s.window := rfl
@[simp] theorem State.setSchedule_candlen (s : State) (d : Nat) (ds : List Nat) (n : Nat) : (s.setSchedule d ds n).candlen = s.candlen := rfl
@[simp] theorem State.setSchedule_timeLo (s : State) (d : Nat) (ds : List Nat) (n : Nat) : (s.setSchedule d ds n).timeLo = s.timeLo := rfl
@[simp] theorem State.setSchedule_timeHi (s : State) (d : Nat) (ds : List Nat) (n : Nat) : (s.setSchedule d ds n).timeHi = s.timeHi := rfl
@[simp] theorem State.setSchedule_periodLo (s : State) (d : Nat) (ds : List Nat) (n : Nat) : (s.setSchedule d ds n).periodLo = s.periodLo := rfl
@[simp] theorem State.setSchedule_periodHi (s : State) (d : Nat) (ds : List Nat) (n : Nat) : (s.setSchedule d ds n).periodHi = s.periodHi := rfl
@[simp] theorem State.setSchedule_counterLo (s : State) (d : Nat) (ds : List Nat) (n : Nat) : (s.setSchedule d ds n).counterLo = s.counterLo := rfl
@[simp] theorem State.setSchedule_counterHi (s : State) (d : Nat) (ds : List Nat) (n : Nat) : (s.setSchedule d ds n).counterHi = s.counterHi := rfl
@[simp] theorem State.setSchedule_candLo (s : State) (d : Nat) (ds : List Nat) (n : Nat) : (s.setSchedule d ds n).candLo = s.candLo := rfl
@[simp] theorem State.setSchedule_candHi (s : State) (d : Nat) (ds : List Nat) (n : Nat) : (s.setSchedule d ds n).candHi = s.candHi := rfl
@[simp] theorem State.setSchedule_matchctrLo (s : State) (d : Nat) (ds : List Nat) (n : Nat) : (s.setSchedule d ds n).matchctrLo = s.matchctrLo := rfl
@[simp] theorem State.setSchedule_matchctrHi (s : State) (d : Nat) (ds : List Nat) (n : Nat) : (s.setSchedule d ds n).matchctrHi = s.matchctrHi := rfl
@[simp] theorem State.setSchedule_dtval (s : State) (d : Nat) (ds : List Nat) (n : Nat) : (s.setSchedule d ds n).dtval = s.dtval := rfl
@[simp] theorem State.setSchedule_code (s : State) (d : Nat) (ds : List Nat) (n : Nat) : (s.setSchedule d ds n).code = s.code := rfl
@[simp] theorem State.setSchedule_offset (s : State) (d : Nat) (ds : List Nat) (n : Nat) : (s.setSchedule d ds n).offset = s.offset := rfl
@[simp] theorem State.setSchedule_digest (s : State) (d : Nat) (ds : List Nat) (n : Nat) : (s.setSchedule d ds n).digest = s.digest := rfl
@[simp] theorem State.setSchedule_h (s : State) (d : Nat) (ds : List Nat) (n : Nat) : (s.setSchedule d ds n).h = s.h := rfl
@[simp] theorem State.setSchedule_block (s : State) (d : Nat) (ds : List Nat) (n : Nat) : (s.setSchedule d ds n).block = s.block := rfl
@[simp] theorem State.setSchedule_key (s : State) (d : Nat) (ds : List Nat) (n : Nat) : (s.setSchedule d ds n).key = s.key := rfl
@[simp] theorem State.setSchedule_ipadH (s : State) (d : Nat) (ds : List Nat) (n : Nat) : (s.setSchedule d ds n).ipadH = s.ipadH := rfl
@[simp] theorem State.setSchedule_opadH (s : State) (d : Nat) (ds : List Nat) (n : Nat) : (s.setSchedule d ds n).opadH = s.opadH := rfl
@[simp] theorem State.setSchedule_pending (s : State) (d : Nat) (ds : List Nat) (n : Nat) : (s.setSchedule d ds n).pending = s.pending := rfl
@[simp] theorem State.setSchedule_rst (s : State) (d : Nat) (ds : List Nat) (n : Nat) : (s.setSchedule d ds n).rst = s.rst := rfl
@[simp] theorem State.setSchedule_inputs (s : State) (d : Nat) (ds : List Nat) (n : Nat) : (s.setSchedule d ds n).inputs = s.inputs := rfl
@[simp] theorem State.setSchedule_reads (s : State) (d : Nat) (ds : List Nat) (n : Nat) : (s.setSchedule d ds n).reads = s.reads := rfl
@[simp] theorem State.setSchedule_delays (s : State) (d : Nat) (ds : List Nat) (n : Nat) : (s.setSchedule d ds n).delays = ds := rfl
@[simp] theorem State.setSchedule_delay (s : State) (d : Nat) (ds : List Nat) (n : Nat) : (s.setSchedule d ds n).delay = d := rfl
@[simp] theorem State.setSchedule_draws (s : State) (d : Nat) (ds : List Nat) (n : Nat) : (s.setSchedule d ds n).draws = n := rfl

@[simp] theorem State.setVmatch_status (s : State) (m : Bool) : (s.setVmatch m).status = { s.status with vmatch := m } := rfl
@[simp] theorem State.setVmatch_inten (s : State) (m : Bool) : (s.setVmatch m).inten = s.inten := rfl
@[simp] theorem State.setVmatch_codelen (s : State) (m : Bool) : (s.setVmatch m).codelen = s.codelen := rfl
@[simp] theorem State.setVmatch_keylen (s : State) (m : Bool) : (s.setVmatch m).keylen = s.keylen := rfl
@[simp] theorem State.setVmatch_window (s : State) (m : Bool) : (s.setVmatch m).window = s.window := rfl
@[simp] theorem State.setVmatch_candlen (s : State) (m : Bool) : (s.setVmatch m).candlen = s.candlen := rfl
@[simp] theorem State.setVmatch_timeLo (s : State) (m : Bool) : (s.setVmatch m).timeLo = s.timeLo := rfl
@[simp] theorem State.setVmatch_timeHi (s : State) (m : Bool) : (s.setVmatch m).timeHi = s.timeHi := rfl
@[simp] theorem State.setVmatch_periodLo (s : State) (m : Bool) : (s.setVmatch m).periodLo = s.periodLo := rfl
@[simp] theorem State.setVmatch_periodHi (s : State) (m : Bool) : (s.setVmatch m).periodHi = s.periodHi := rfl
@[simp] theorem State.setVmatch_counterLo (s : State) (m : Bool) : (s.setVmatch m).counterLo = s.counterLo := rfl
@[simp] theorem State.setVmatch_counterHi (s : State) (m : Bool) : (s.setVmatch m).counterHi = s.counterHi := rfl
@[simp] theorem State.setVmatch_candLo (s : State) (m : Bool) : (s.setVmatch m).candLo = s.candLo := rfl
@[simp] theorem State.setVmatch_candHi (s : State) (m : Bool) : (s.setVmatch m).candHi = s.candHi := rfl
@[simp] theorem State.setVmatch_matchctrLo (s : State) (m : Bool) : (s.setVmatch m).matchctrLo = s.matchctrLo := rfl
@[simp] theorem State.setVmatch_matchctrHi (s : State) (m : Bool) : (s.setVmatch m).matchctrHi = s.matchctrHi := rfl
@[simp] theorem State.setVmatch_dtval (s : State) (m : Bool) : (s.setVmatch m).dtval = s.dtval := rfl
@[simp] theorem State.setVmatch_code (s : State) (m : Bool) : (s.setVmatch m).code = s.code := rfl
@[simp] theorem State.setVmatch_offset (s : State) (m : Bool) : (s.setVmatch m).offset = s.offset := rfl
@[simp] theorem State.setVmatch_digest (s : State) (m : Bool) : (s.setVmatch m).digest = s.digest := rfl
@[simp] theorem State.setVmatch_h (s : State) (m : Bool) : (s.setVmatch m).h = s.h := rfl
@[simp] theorem State.setVmatch_block (s : State) (m : Bool) : (s.setVmatch m).block = s.block := rfl
@[simp] theorem State.setVmatch_key (s : State) (m : Bool) : (s.setVmatch m).key = s.key := rfl
@[simp] theorem State.setVmatch_ipadH (s : State) (m : Bool) : (s.setVmatch m).ipadH = s.ipadH := rfl
@[simp] theorem State.setVmatch_opadH (s : State) (m : Bool) : (s.setVmatch m).opadH = s.opadH := rfl
@[simp] theorem State.setVmatch_pending (s : State) (m : Bool) : (s.setVmatch m).pending = s.pending := rfl
@[simp] theorem State.setVmatch_rst (s : State) (m : Bool) : (s.setVmatch m).rst = s.rst := rfl
@[simp] theorem State.setVmatch_inputs (s : State) (m : Bool) : (s.setVmatch m).inputs = s.inputs := rfl
@[simp] theorem State.setVmatch_reads (s : State) (m : Bool) : (s.setVmatch m).reads = s.reads := rfl
@[simp] theorem State.setVmatch_delays (s : State) (m : Bool) : (s.setVmatch m).delays = s.delays := rfl
@[simp] theorem State.setVmatch_delay (s : State) (m : Bool) : (s.setVmatch m).delay = s.delay := rfl
@[simp] theorem State.setVmatch_draws (s : State) (m : Bool) : (s.setVmatch m).draws = s.draws := rfl

@[simp] theorem truncateDigest_status (d : Digest) (s : State) : (truncateDigest d s).status = s.status := State.setTruncation_status ..
@[simp] theorem truncateDigest_inten (d : Digest) (s : State) : (truncateDigest d s).inten = s.inten := State.setTruncation_inten ..
@[simp] theorem truncateDigest_codelen (d : Digest) (s : State) : (truncateDigest d s).codelen = s.codelen := State.setTruncation_codelen ..
@[simp] theorem truncateDigest_keylen (d : Digest) (s : State) : (truncateDigest d s).keylen = s.keylen := State.setTruncation_keylen ..
@[simp] theorem truncateDigest_window (d : Digest) (s : State) : (truncateDigest d s).window = s.window := State.setTruncation_window ..
@[simp] theorem truncateDigest_candlen (d : Digest) (s : State) : (truncateDigest d s).candlen = s.candlen := State.setTruncation_candlen ..
@[simp] theorem truncateDigest_timeLo (d : Digest) (s : State) : (truncateDigest d s).timeLo = s.timeLo := State.setTruncation_timeLo ..
@[simp] theorem truncateDigest_timeHi (d : Digest) (s : State) : (truncateDigest d s).timeHi = s.timeHi := State.setTruncation_timeHi ..
@[simp] theorem truncateDigest_periodLo (d : Digest) (s : State) : (truncateDigest d s).periodLo = s.periodLo := State.setTruncation_periodLo ..
@[simp] theorem truncateDigest_periodHi (d : Digest) (s : State) : (truncateDigest d s).periodHi = s.periodHi := State.setTruncation_periodHi ..
@[simp] theorem truncateDigest_counterLo (d : Digest) (s : State) : (truncateDigest d s).counterLo = s.counterLo := State.setTruncation_counterLo ..
@[simp] theorem truncateDigest_counterHi (d : Digest) (s : State) : (truncateDigest d s).counterHi = s.counterHi := State.setTruncation_counterHi ..
@[simp] theorem truncateDigest_candLo (d : Digest) (s : State) : (truncateDigest d s).candLo = s.candLo := State.setTruncation_candLo ..
@[simp] theorem truncateDigest_candHi (d : Digest) (s : State) : (truncateDigest d s).candHi = s.candHi := State.setTruncation_candHi ..
@[simp] theorem truncateDigest_matchctrLo (d : Digest) (s : State) : (truncateDigest d s).matchctrLo = s.matchctrLo := State.setTruncation_matchctrLo ..
@[simp] theorem truncateDigest_matchctrHi (d : Digest) (s : State) : (truncateDigest d s).matchctrHi = s.matchctrHi := State.setTruncation_matchctrHi ..
@[simp] theorem truncateDigest_dtval (d : Digest) (s : State) : (truncateDigest d s).dtval = truncValue d := State.setTruncation_dtval ..
@[simp] theorem truncateDigest_code (d : Digest) (s : State) : (truncateDigest d s).code = codeOf (truncValue d) s.status.actlen := State.setTruncation_code ..
@[simp] theorem truncateDigest_offset (d : Digest) (s : State) : (truncateDigest d s).offset = truncOffset d := State.setTruncation_offset ..
@[simp] theorem truncateDigest_digest (d : Digest) (s : State) : (truncateDigest d s).digest = s.digest := State.setTruncation_digest ..
@[simp] theorem truncateDigest_h (d : Digest) (s : State) : (truncateDigest d s).h = s.h := State.setTruncation_h ..
@[simp] theorem truncateDigest_block (d : Digest) (s : State) : (truncateDigest d s).block = s.block := State.setTruncation_block ..
@[simp] theorem truncateDigest_key (d : Digest) (s : State) : (truncateDigest d s).key = s.key := State.setTruncation_key ..
@[simp] theorem truncateDigest_ipadH (d : Digest) (s : State) : (truncateDigest d s).ipadH = s.ipadH := State.setTruncation_ipadH ..
@[simp] theorem truncateDigest_opadH (d : Digest) (s : State) : (truncateDigest d s).opadH = s.opadH := State.setTruncation_opadH ..
@[simp] theorem truncateDigest_pending (d : Digest) (s : State) : (truncateDigest d s).pending = s.pending := State.setTruncation_pending ..
@[simp] theorem truncateDigest_rst (d : Digest) (s : State) : (truncateDigest d s).rst = s.rst := State.setTruncation_rst ..
@[simp] theorem truncateDigest_inputs (d : Digest) (s : State) : (truncateDigest d s).inputs = s.inputs := State.setTruncation_inputs ..
@[simp] theorem truncateDigest_reads (d : Digest) (s : State) : (truncateDigest d s).reads = s.reads := State.setTruncation_reads ..
@[simp] theorem truncateDigest_delays (d : Digest) (s : State) : (truncateDigest d s).delays = s.delays := State.setTruncation_delays ..
@[simp] theorem truncateDigest_delay (d : Digest) (s : State) : (truncateDigest d s).delay = s.delay := State.setTruncation_delay ..
@[simp] theorem truncateDigest_draws (d : Digest) (s : State) : (truncateDigest d s).draws = s.draws := State.setTruncation_draws ..

@[simp] theorem setHotp_status (c : DWord) (s : State) : (setHotp c s).status = s.status := (truncateDigest_status ..).trans (State.setDigest_status ..)
@[simp] theorem setHotp_inten (c : DWord) (s : State) : (setHotp c s).inten = s.inten := (truncateDigest_inten ..).trans (State.setDigest_inten ..)
@[simp] theorem setHotp_codelen (c : DWord) (s : State) : (setHotp c s).codelen = s.codelen := (truncateDigest_codelen ..).trans (State.setDigest_codelen ..)
@[simp] theorem setHotp_keylen (c : DWord) (s : State) : (setHotp c s).keylen = s.keylen := (truncateDigest_keylen ..).trans (State.setDigest_keylen ..)
@[simp] theorem setHotp_window (c : DWord) (s : State) : (setHotp c s).window = s.window := (truncateDigest_window ..).trans (State.setDigest_window ..)
@[simp] theorem setHotp_candlen (c : DWord) (s : State) : (setHotp c s).candlen = s.candlen := (truncateDigest_candlen ..).trans (State.setDigest_candlen ..)
@[simp] theorem setHotp_timeLo (c : DWord) (s : State) : (setHotp c s).timeLo = s.timeLo := (truncateDigest_timeLo ..).trans (State.setDigest_timeLo ..)
@[simp] theorem setHotp_timeHi (c : DWord) (s : State) : (setHotp c s).timeHi = s.timeHi := (truncateDigest_timeHi ..).trans (State.setDigest_timeHi ..)
@[simp] theorem setHotp_periodLo (c : DWord) (s : State) : (setHotp c s).periodLo = s.periodLo := (truncateDigest_periodLo ..).trans (State.setDigest_periodLo ..)
@[simp] theorem setHotp_periodHi (c : DWord) (s : State) : (setHotp c s).periodHi = s.periodHi := (truncateDigest_periodHi ..).trans (State.setDigest_periodHi ..)
@[simp] theorem setHotp_counterLo (c : DWord) (s : State) : (setHotp c s).counterLo = s.counterLo := (truncateDigest_counterLo ..).trans (State.setDigest_counterLo ..)
@[simp] theorem setHotp_counterHi (c : DWord) (s : State) : (setHotp c s).counterHi = s.counterHi := (truncateDigest_counterHi ..).trans (State.setDigest_counterHi ..)
@[simp] theorem setHotp_candLo (c : DWord) (s : State) : (setHotp c s).candLo = s.candLo := (truncateDigest_candLo ..).trans (State.setDigest_candLo ..)
@[simp] theorem setHotp_candHi (c : DWord) (s : State) : (setHotp c s).candHi = s.candHi := (truncateDigest_candHi ..).trans (State.setDigest_candHi ..)
@[simp] theorem setHotp_matchctrLo (c : DWord) (s : State) : (setHotp c s).matchctrLo = s.matchctrLo := (truncateDigest_matchctrLo ..).trans (State.setDigest_matchctrLo ..)
@[simp] theorem setHotp_matchctrHi (c : DWord) (s : State) : (setHotp c s).matchctrHi = s.matchctrHi := (truncateDigest_matchctrHi ..).trans (State.setDigest_matchctrHi ..)
@[simp] theorem setHotp_dtval (c : DWord) (s : State) : (setHotp c s).dtval = truncValue (hmacOfCounter s.ipadH s.opadH c) := truncateDigest_dtval ..
@[simp] theorem setHotp_code (c : DWord) (s : State) : (setHotp c s).code = hotpCode s.ipadH s.opadH s.status.actlen c := rfl
@[simp] theorem setHotp_offset (c : DWord) (s : State) : (setHotp c s).offset = truncOffset (hmacOfCounter s.ipadH s.opadH c) := truncateDigest_offset ..
@[simp] theorem setHotp_digest (c : DWord) (s : State) : (setHotp c s).digest = hmacOfCounter s.ipadH s.opadH c := (truncateDigest_digest ..).trans (State.setDigest_digest ..)
@[simp] theorem setHotp_h (c : DWord) (s : State) : (setHotp c s).h = s.h := (truncateDigest_h ..).trans (State.setDigest_h ..)
@[simp] theorem setHotp_block (c : DWord) (s : State) : (setHotp c s).block = s.block := (truncateDigest_block ..).trans (State.setDigest_block ..)
@[simp] theorem setHotp_key (c : DWord) (s : State) : (setHotp c s).key = s.key := (truncateDigest_key ..).trans (State.setDigest_key ..)
@[simp] theorem setHotp_ipadH (c : DWord) (s : State) : (setHotp c s).ipadH = s.ipadH := (truncateDigest_ipadH ..).trans (State.setDigest_ipadH ..)
@[simp] theorem setHotp_opadH (c : DWord) (s : State) : (setHotp c s).opadH = s.opadH := (truncateDigest_opadH ..).trans (State.setDigest_opadH ..)
@[simp] theorem setHotp_pending (c : DWord) (s : State) : (setHotp c s).pending = s.pending := (truncateDigest_pending ..).trans (State.setDigest_pending ..)
@[simp] theorem setHotp_rst (c : DWord) (s : State) : (setHotp c s).rst = s.rst := (truncateDigest_rst ..).trans (State.setDigest_rst ..)
@[simp] theorem setHotp_inputs (c : DWord) (s : State) : (setHotp c s).inputs = s.inputs := (truncateDigest_inputs ..).trans (State.setDigest_inputs ..)
@[simp] theorem setHotp_reads (c : DWord) (s : State) : (setHotp c s).reads = s.reads := (truncateDigest_reads ..).trans (State.setDigest_reads ..)
@[simp] theorem setHotp_delays (c : DWord) (s : State) : (setHotp c s).delays = s.delays := (truncateDigest_delays ..).trans (State.setDigest_delays ..)
@[simp] theorem setHotp_delay (c : DWord) (s : State) : (setHotp c s).delay = s.delay := (truncateDigest_delay ..).trans (State.setDigest_delay ..)
@[simp] theorem setHotp_draws (c : DWord) (s : State) : (setHotp c s).draws = s.draws := (truncateDigest_draws ..).trans (State.setDigest_draws ..)

@[simp] theorem clearKeyMaterial_status (s : State) : (clearKeyMaterial s).status = { s.status with keyvalid := false, actlen := 0 } := rfl
@[simp] theorem clearKeyMaterial_inten (s : State) : (clearKeyMaterial s).inten = s.inten := rfl
@[simp] theorem clearKeyMaterial_codelen (s : State) : (clearKeyMaterial s).codelen = s.codelen := rfl
@[simp] theorem clearKeyMaterial_keylen (s : State) : (clearKeyMaterial s).keylen = 0 := rfl
@[simp] theorem clearKeyMaterial_window (s : State) : (clearKeyMaterial s).window = s.window := rfl
@[simp] theorem clearKeyMaterial_candlen (s : State) : (clearKeyMaterial s).candlen = 0 := rfl
@[simp] theorem clearKeyMaterial_timeLo (s : State) : (clearKeyMaterial s).timeLo = s.timeLo := rfl
@[simp] theorem clearKeyMaterial_timeHi (s : State) : (clearKeyMaterial s).timeHi = s.timeHi := rfl
@[simp] theorem clearKeyMaterial_periodLo (s : State) : (clearKeyMaterial s).periodLo = s.periodLo := rfl
@[simp] theorem clearKeyMaterial_periodHi (s : State) : (clearKeyMaterial s).periodHi = s.periodHi := rfl
@[simp] theorem clearKeyMaterial_counterLo (s : State) : (clearKeyMaterial s).counterLo = s.counterLo := rfl
@[simp] theorem clearKeyMaterial_counterHi (s : State) : (clearKeyMaterial s).counterHi = s.counterHi := rfl
@[simp] theorem clearKeyMaterial_candLo (s : State) : (clearKeyMaterial s).candLo = 0 := rfl
@[simp] theorem clearKeyMaterial_candHi (s : State) : (clearKeyMaterial s).candHi = 0 := rfl
@[simp] theorem clearKeyMaterial_matchctrLo (s : State) : (clearKeyMaterial s).matchctrLo = s.matchctrLo := rfl
@[simp] theorem clearKeyMaterial_matchctrHi (s : State) : (clearKeyMaterial s).matchctrHi = s.matchctrHi := rfl
@[simp] theorem clearKeyMaterial_dtval (s : State) : (clearKeyMaterial s).dtval = 0 := rfl
@[simp] theorem clearKeyMaterial_code (s : State) : (clearKeyMaterial s).code = 0 := rfl
@[simp] theorem clearKeyMaterial_offset (s : State) : (clearKeyMaterial s).offset = 0 := rfl
@[simp] theorem clearKeyMaterial_digest (s : State) : (clearKeyMaterial s).digest = Digest.zero := rfl
@[simp] theorem clearKeyMaterial_h (s : State) : (clearKeyMaterial s).h = Digest.zero := rfl
@[simp] theorem clearKeyMaterial_block (s : State) : (clearKeyMaterial s).block = Block.zero := rfl
@[simp] theorem clearKeyMaterial_key (s : State) : (clearKeyMaterial s).key = Block.zero := rfl
@[simp] theorem clearKeyMaterial_ipadH (s : State) : (clearKeyMaterial s).ipadH = Digest.zero := rfl
@[simp] theorem clearKeyMaterial_opadH (s : State) : (clearKeyMaterial s).opadH = Digest.zero := rfl
@[simp] theorem clearKeyMaterial_pending (s : State) : (clearKeyMaterial s).pending = s.pending := rfl
@[simp] theorem clearKeyMaterial_rst (s : State) : (clearKeyMaterial s).rst = s.rst := rfl
@[simp] theorem clearKeyMaterial_inputs (s : State) : (clearKeyMaterial s).inputs = s.inputs := rfl
@[simp] theorem clearKeyMaterial_reads (s : State) : (clearKeyMaterial s).reads = s.reads := rfl
@[simp] theorem clearKeyMaterial_delays (s : State) : (clearKeyMaterial s).delays = s.delays := rfl
@[simp] theorem clearKeyMaterial_delay (s : State) : (clearKeyMaterial s).delay = s.delay := rfl
@[simp] theorem clearKeyMaterial_draws (s : State) : (clearKeyMaterial s).draws = s.draws := rfl

@[simp] theorem passTurn_status (rest : List Input) (s : State) : (passTurn rest s).status = s.status := rfl
@[simp] theorem passTurn_inten (rest : List Input) (s : State) : (passTurn rest s).inten = s.inten := rfl
@[simp] theorem passTurn_codelen (rest : List Input) (s : State) : (passTurn rest s).codelen = s.codelen := rfl
@[simp] theorem passTurn_keylen (rest : List Input) (s : State) : (passTurn rest s).keylen = s.keylen := rfl
@[simp] theorem passTurn_window (rest : List Input) (s : State) : (passTurn rest s).window = s.window := rfl
@[simp] theorem passTurn_candlen (rest : List Input) (s : State) : (passTurn rest s).candlen = s.candlen := rfl
@[simp] theorem passTurn_timeLo (rest : List Input) (s : State) : (passTurn rest s).timeLo = s.timeLo := rfl
@[simp] theorem passTurn_timeHi (rest : List Input) (s : State) : (passTurn rest s).timeHi = s.timeHi := rfl
@[simp] theorem passTurn_periodLo (rest : List Input) (s : State) : (passTurn rest s).periodLo = s.periodLo := rfl
@[simp] theorem passTurn_periodHi (rest : List Input) (s : State) : (passTurn rest s).periodHi = s.periodHi := rfl
@[simp] theorem passTurn_counterLo (rest : List Input) (s : State) : (passTurn rest s).counterLo = s.counterLo := rfl
@[simp] theorem passTurn_counterHi (rest : List Input) (s : State) : (passTurn rest s).counterHi = s.counterHi := rfl
@[simp] theorem passTurn_candLo (rest : List Input) (s : State) : (passTurn rest s).candLo = s.candLo := rfl
@[simp] theorem passTurn_candHi (rest : List Input) (s : State) : (passTurn rest s).candHi = s.candHi := rfl
@[simp] theorem passTurn_matchctrLo (rest : List Input) (s : State) : (passTurn rest s).matchctrLo = s.matchctrLo := rfl
@[simp] theorem passTurn_matchctrHi (rest : List Input) (s : State) : (passTurn rest s).matchctrHi = s.matchctrHi := rfl
@[simp] theorem passTurn_dtval (rest : List Input) (s : State) : (passTurn rest s).dtval = s.dtval := rfl
@[simp] theorem passTurn_code (rest : List Input) (s : State) : (passTurn rest s).code = s.code := rfl
@[simp] theorem passTurn_offset (rest : List Input) (s : State) : (passTurn rest s).offset = s.offset := rfl
@[simp] theorem passTurn_digest (rest : List Input) (s : State) : (passTurn rest s).digest = s.digest := rfl
@[simp] theorem passTurn_h (rest : List Input) (s : State) : (passTurn rest s).h = s.h := rfl
@[simp] theorem passTurn_block (rest : List Input) (s : State) : (passTurn rest s).block = s.block := rfl
@[simp] theorem passTurn_key (rest : List Input) (s : State) : (passTurn rest s).key = s.key := rfl
@[simp] theorem passTurn_ipadH (rest : List Input) (s : State) : (passTurn rest s).ipadH = s.ipadH := rfl
@[simp] theorem passTurn_opadH (rest : List Input) (s : State) : (passTurn rest s).opadH = s.opadH := rfl
@[simp] theorem passTurn_pending (rest : List Input) (s : State) : (passTurn rest s).pending = s.pending := rfl
@[simp] theorem passTurn_rst (rest : List Input) (s : State) : (passTurn rest s).rst = s.rst := rfl
@[simp] theorem passTurn_inputs (rest : List Input) (s : State) : (passTurn rest s).inputs = rest := rfl
@[simp] theorem passTurn_reads (rest : List Input) (s : State) : (passTurn rest s).reads = s.reads := rfl
@[simp] theorem passTurn_delays (rest : List Input) (s : State) : (passTurn rest s).delays = s.delays := rfl
@[simp] theorem passTurn_delay (rest : List Input) (s : State) : (passTurn rest s).delay = s.delay - 1 := rfl
@[simp] theorem passTurn_draws (rest : List Input) (s : State) : (passTurn rest s).draws = s.draws := rfl

@[simp] theorem logRead_status (off : Nat) (v : Word) (n : Nat) (s : State) : (logRead off v n s).status = s.status := rfl
@[simp] theorem logRead_inten (off : Nat) (v : Word) (n : Nat) (s : State) : (logRead off v n s).inten = s.inten := rfl
@[simp] theorem logRead_codelen (off : Nat) (v : Word) (n : Nat) (s : State) : (logRead off v n s).codelen = s.codelen := rfl
@[simp] theorem logRead_keylen (off : Nat) (v : Word) (n : Nat) (s : State) : (logRead off v n s).keylen = s.keylen := rfl
@[simp] theorem logRead_window (off : Nat) (v : Word) (n : Nat) (s : State) : (logRead off v n s).window = s.window := rfl
@[simp] theorem logRead_candlen (off : Nat) (v : Word) (n : Nat) (s : State) : (logRead off v n s).candlen = s.candlen := rfl
@[simp] theorem logRead_timeLo (off : Nat) (v : Word) (n : Nat) (s : State) : (logRead off v n s).timeLo = s.timeLo := rfl
@[simp] theorem logRead_timeHi (off : Nat) (v : Word) (n : Nat) (s : State) : (logRead off v n s).timeHi = s.timeHi := rfl
@[simp] theorem logRead_periodLo (off : Nat) (v : Word) (n : Nat) (s : State) : (logRead off v n s).periodLo = s.periodLo := rfl
@[simp] theorem logRead_periodHi (off : Nat) (v : Word) (n : Nat) (s : State) : (logRead off v n s).periodHi = s.periodHi := rfl
@[simp] theorem logRead_counterLo (off : Nat) (v : Word) (n : Nat) (s : State) : (logRead off v n s).counterLo = s.counterLo := rfl
@[simp] theorem logRead_counterHi (off : Nat) (v : Word) (n : Nat) (s : State) : (logRead off v n s).counterHi = s.counterHi := rfl
@[simp] theorem logRead_candLo (off : Nat) (v : Word) (n : Nat) (s : State) : (logRead off v n s).candLo = s.candLo := rfl
@[simp] theorem logRead_candHi (off : Nat) (v : Word) (n : Nat) (s : State) : (logRead off v n s).candHi = s.candHi := rfl
@[simp] theorem logRead_matchctrLo (off : Nat) (v : Word) (n : Nat) (s : State) : (logRead off v n s).matchctrLo = s.matchctrLo := rfl
@[simp] theorem logRead_matchctrHi (off : Nat) (v : Word) (n : Nat) (s : State) : (logRead off v n s).matchctrHi = s.matchctrHi := rfl
@[simp] theorem logRead_dtval (off : Nat) (v : Word) (n : Nat) (s : State) : (logRead off v n s).dtval = s.dtval := rfl
@[simp] theorem logRead_code (off : Nat) (v : Word) (n : Nat) (s : State) : (logRead off v n s).code = s.code := rfl
@[simp] theorem logRead_offset (off : Nat) (v : Word) (n : Nat) (s : State) : (logRead off v n s).offset = s.offset := rfl
@[simp] theorem logRead_digest (off : Nat) (v : Word) (n : Nat) (s : State) : (logRead off v n s).digest = s.digest := rfl
@[simp] theorem logRead_h (off : Nat) (v : Word) (n : Nat) (s : State) : (logRead off v n s).h = s.h := rfl
@[simp] theorem logRead_block (off : Nat) (v : Word) (n : Nat) (s : State) : (logRead off v n s).block = s.block := rfl
@[simp] theorem logRead_key (off : Nat) (v : Word) (n : Nat) (s : State) : (logRead off v n s).key = s.key := rfl
@[simp] theorem logRead_ipadH (off : Nat) (v : Word) (n : Nat) (s : State) : (logRead off v n s).ipadH = s.ipadH := rfl
@[simp] theorem logRead_opadH (off : Nat) (v : Word) (n : Nat) (s : State) : (logRead off v n s).opadH = s.opadH := rfl
@[simp] theorem logRead_pending (off : Nat) (v : Word) (n : Nat) (s : State) : (logRead off v n s).pending = s.pending := rfl
@[simp] theorem logRead_rst (off : Nat) (v : Word) (n : Nat) (s : State) : (logRead off v n s).rst = s.rst := rfl
@[simp] theorem logRead_inputs (off : Nat) (v : Word) (n : Nat) (s : State) : (logRead off v n s).inputs = s.inputs := rfl
@[simp] theorem logRead_reads (off : Nat) (v : Word) (n : Nat) (s : State) : (logRead off v n s).reads = (off, v) :: s.reads := rfl
@[simp] theorem logRead_delays (off : Nat) (v : Word) (n : Nat) (s : State) : (logRead off v n s).delays = s.delays := rfl
@[simp] theorem logRead_delay (off : Nat) (v : Word) (n : Nat) (s : State) : (logRead off v n s).delay = s.delay := rfl
@[simp] theorem logRead_draws (off : Nat) (v : Word) (n : Nat) (s : State) : (logRead off v n s).draws = n := rfl

@[simp] theorem setInten_status (n : Inten) (s : State) : (setInten n s).status = s.status := rfl
@[simp] theorem setInten_inten (n : Inten) (s : State) : (setInten n s).inten = n := rfl
@[simp] theorem setInten_codelen (n : Inten) (s : State) : (setInten n s).codelen = s.codelen := rfl
@[simp] theorem setInten_keylen (n : Inten) (s : State) : (setInten n s).keylen = s.keylen := rfl
@[simp] theorem setInten_window (n : Inten) (s : State) : (setInten n s).window = s.window := rfl
@[simp] theorem setInten_candlen (n : Inten) (s : State) : (setInten n s).candlen = s.candlen := rfl
@[simp] theorem setInten_timeLo (n : Inten) (s : State) : (setInten n s).timeLo = s.timeLo := rfl
@[simp] theorem setInten_timeHi (n : Inten) (s : State) : (setInten n s).timeHi = s.timeHi := rfl
@[simp] theorem setInten_periodLo (n : Inten) (s : State) : (setInten n s).periodLo = s.periodLo := rfl
@[simp] theorem setInten_periodHi (n : Inten) (s : State) : (setInten n s).periodHi = s.periodHi := rfl
@[simp] theorem setInten_counterLo (n : Inten) (s : State) : (setInten n s).counterLo = s.counterLo := rfl
@[simp] theorem setInten_counterHi (n : Inten) (s : State) : (setInten n s).counterHi = s.counterHi := rfl
@[simp] theorem setInten_candLo (n : Inten) (s : State) : (setInten n s).candLo = s.candLo := rfl
@[simp] theorem setInten_candHi (n : Inten) (s : State) : (setInten n s).candHi = s.candHi := rfl
@[simp] theorem setInten_matchctrLo (n : Inten) (s : State) : (setInten n s).matchctrLo = s.matchctrLo := rfl
@[simp] theorem setInten_matchctrHi (n : Inten) (s : State) : (setInten n s).matchctrHi = s.matchctrHi := rfl
@[simp] theorem setInten_dtval (n : Inten) (s : State) : (setInten n s).dtval = s.dtval := rfl
@[simp] theorem setInten_code (n : Inten) (s : State) : (setInten n s).code = s.code := rfl
@[simp] theorem setInten_offset (n : Inten) (s : State) : (setInten n s).offset = s.offset := rfl
@[simp] theorem setInten_digest (n : Inten) (s : State) : (setInten n s).digest = s.digest := rfl
@[simp] theorem setInten_h (n : Inten) (s : State) : (setInten n s).h = s.h := rfl
@[simp] theorem setInten_block (n : Inten) (s : State) : (setInten n s).block = s.block := rfl
@[simp] theorem setInten_key (n : Inten) (s : State) : (setInten n s).key = s.key := rfl
@[simp] theorem setInten_ipadH (n : Inten) (s : State) : (setInten n s).ipadH = s.ipadH := rfl
@[simp] theorem setInten_opadH (n : Inten) (s : State) : (setInten n s).opadH = s.opadH := rfl
@[simp] theorem setInten_pending (n : Inten) (s : State) : (setInten n s).pending = s.pending := rfl
@[simp] theorem setInten_rst (n : Inten) (s : State) : (setInten n s).rst = s.rst := rfl
@[simp] theorem setInten_inputs (n : Inten) (s : State) : (setInten n s).inputs = s.inputs := rfl
@[simp] theorem setInten_reads (n : Inten) (s : State) : (setInten n s).reads = s.reads := rfl
@[simp] theorem setInten_delays (n : Inten) (s : State) : (setInten n s).delays = s.delays := rfl
@[simp] theorem setInten_delay (n : Inten) (s : State) : (setInten n s).delay = s.delay := rfl
@[simp] theorem setInten_draws (n : Inten) (s : State) : (setInten n s).draws = s.draws := rfl

@[simp] theorem flagIgnored_status (s : State) : (flagIgnored s).status = s.status.ignoredWrite := rfl
@[simp] theorem flagIgnored_inten (s : State) : (flagIgnored s).inten = s.inten := rfl
@[simp] theorem flagIgnored_codelen (s : State) : (flagIgnored s).codelen = s.codelen := rfl
@[simp] theorem flagIgnored_keylen (s : State) : (flagIgnored s).keylen = s.keylen := rfl
@[simp] theorem flagIgnored_window (s : State) : (flagIgnored s).window = s.window := rfl
@[simp] theorem flagIgnored_candlen (s : State) : (flagIgnored s).candlen = s.candlen := rfl
@[simp] theorem flagIgnored_timeLo (s : State) : (flagIgnored s).timeLo = s.timeLo := rfl
@[simp] theorem flagIgnored_timeHi (s : State) : (flagIgnored s).timeHi = s.timeHi := rfl
@[simp] theorem flagIgnored_periodLo (s : State) : (flagIgnored s).periodLo = s.periodLo := rfl
@[simp] theorem flagIgnored_periodHi (s : State) : (flagIgnored s).periodHi = s.periodHi := rfl
@[simp] theorem flagIgnored_counterLo (s : State) : (flagIgnored s).counterLo = s.counterLo := rfl
@[simp] theorem flagIgnored_counterHi (s : State) : (flagIgnored s).counterHi = s.counterHi := rfl
@[simp] theorem flagIgnored_candLo (s : State) : (flagIgnored s).candLo = s.candLo := rfl
@[simp] theorem flagIgnored_candHi (s : State) : (flagIgnored s).candHi = s.candHi := rfl
@[simp] theorem flagIgnored_matchctrLo (s : State) : (flagIgnored s).matchctrLo = s.matchctrLo := rfl
@[simp] theorem flagIgnored_matchctrHi (s : State) : (flagIgnored s).matchctrHi = s.matchctrHi := rfl
@[simp] theorem flagIgnored_dtval (s : State) : (flagIgnored s).dtval = s.dtval := rfl
@[simp] theorem flagIgnored_code (s : State) : (flagIgnored s).code = s.code := rfl
@[simp] theorem flagIgnored_offset (s : State) : (flagIgnored s).offset = s.offset := rfl
@[simp] theorem flagIgnored_digest (s : State) : (flagIgnored s).digest = s.digest := rfl
@[simp] theorem flagIgnored_h (s : State) : (flagIgnored s).h = s.h := rfl
@[simp] theorem flagIgnored_block (s : State) : (flagIgnored s).block = s.block := rfl
@[simp] theorem flagIgnored_key (s : State) : (flagIgnored s).key = s.key := rfl
@[simp] theorem flagIgnored_ipadH (s : State) : (flagIgnored s).ipadH = s.ipadH := rfl
@[simp] theorem flagIgnored_opadH (s : State) : (flagIgnored s).opadH = s.opadH := rfl
@[simp] theorem flagIgnored_pending (s : State) : (flagIgnored s).pending = s.pending := rfl
@[simp] theorem flagIgnored_rst (s : State) : (flagIgnored s).rst = s.rst := rfl
@[simp] theorem flagIgnored_inputs (s : State) : (flagIgnored s).inputs = s.inputs := rfl
@[simp] theorem flagIgnored_reads (s : State) : (flagIgnored s).reads = s.reads := rfl
@[simp] theorem flagIgnored_delays (s : State) : (flagIgnored s).delays = s.delays := rfl
@[simp] theorem flagIgnored_delay (s : State) : (flagIgnored s).delay = s.delay := rfl
@[simp] theorem flagIgnored_draws (s : State) : (flagIgnored s).draws = s.draws := rfl

@[simp] theorem resetCore_status (l : Bool) (s : State) : (resetCore l s).status = State.reset.status := rfl
@[simp] theorem resetCore_inten (l : Bool) (s : State) : (resetCore l s).inten = State.reset.inten := rfl
@[simp] theorem resetCore_codelen (l : Bool) (s : State) : (resetCore l s).codelen = State.reset.codelen := rfl
@[simp] theorem resetCore_keylen (l : Bool) (s : State) : (resetCore l s).keylen = State.reset.keylen := rfl
@[simp] theorem resetCore_window (l : Bool) (s : State) : (resetCore l s).window = State.reset.window := rfl
@[simp] theorem resetCore_candlen (l : Bool) (s : State) : (resetCore l s).candlen = State.reset.candlen := rfl
@[simp] theorem resetCore_timeLo (l : Bool) (s : State) : (resetCore l s).timeLo = State.reset.timeLo := rfl
@[simp] theorem resetCore_timeHi (l : Bool) (s : State) : (resetCore l s).timeHi = State.reset.timeHi := rfl
@[simp] theorem resetCore_periodLo (l : Bool) (s : State) : (resetCore l s).periodLo = State.reset.periodLo := rfl
@[simp] theorem resetCore_periodHi (l : Bool) (s : State) : (resetCore l s).periodHi = State.reset.periodHi := rfl
@[simp] theorem resetCore_counterLo (l : Bool) (s : State) : (resetCore l s).counterLo = State.reset.counterLo := rfl
@[simp] theorem resetCore_counterHi (l : Bool) (s : State) : (resetCore l s).counterHi = State.reset.counterHi := rfl
@[simp] theorem resetCore_candLo (l : Bool) (s : State) : (resetCore l s).candLo = State.reset.candLo := rfl
@[simp] theorem resetCore_candHi (l : Bool) (s : State) : (resetCore l s).candHi = State.reset.candHi := rfl
@[simp] theorem resetCore_matchctrLo (l : Bool) (s : State) : (resetCore l s).matchctrLo = State.reset.matchctrLo := rfl
@[simp] theorem resetCore_matchctrHi (l : Bool) (s : State) : (resetCore l s).matchctrHi = State.reset.matchctrHi := rfl
@[simp] theorem resetCore_dtval (l : Bool) (s : State) : (resetCore l s).dtval = State.reset.dtval := rfl
@[simp] theorem resetCore_code (l : Bool) (s : State) : (resetCore l s).code = State.reset.code := rfl
@[simp] theorem resetCore_offset (l : Bool) (s : State) : (resetCore l s).offset = State.reset.offset := rfl
@[simp] theorem resetCore_digest (l : Bool) (s : State) : (resetCore l s).digest = State.reset.digest := rfl
@[simp] theorem resetCore_h (l : Bool) (s : State) : (resetCore l s).h = State.reset.h := rfl
@[simp] theorem resetCore_block (l : Bool) (s : State) : (resetCore l s).block = State.reset.block := rfl
@[simp] theorem resetCore_key (l : Bool) (s : State) : (resetCore l s).key = State.reset.key := rfl
@[simp] theorem resetCore_ipadH (l : Bool) (s : State) : (resetCore l s).ipadH = State.reset.ipadH := rfl
@[simp] theorem resetCore_opadH (l : Bool) (s : State) : (resetCore l s).opadH = State.reset.opadH := rfl
@[simp] theorem resetCore_pending (l : Bool) (s : State) : (resetCore l s).pending = State.reset.pending := rfl
@[simp] theorem resetCore_rst (l : Bool) (s : State) : (resetCore l s).rst = l := rfl
@[simp] theorem resetCore_inputs (l : Bool) (s : State) : (resetCore l s).inputs = s.inputs := rfl
@[simp] theorem resetCore_reads (l : Bool) (s : State) : (resetCore l s).reads = s.reads := rfl
@[simp] theorem resetCore_delays (l : Bool) (s : State) : (resetCore l s).delays = s.delays := rfl
@[simp] theorem resetCore_delay (l : Bool) (s : State) : (resetCore l s).delay = State.reset.delay := rfl
@[simp] theorem resetCore_draws (l : Bool) (s : State) : (resetCore l s).draws = s.draws := rfl

end Sys2Proof.Machine
end

