-- ==== Sys2Proof/Laws/Bus.lean ====
section
/-! SUPPORT. What a host turn can do, said once: the register map as an equivalence, the cases of a register write, the shape of
a register read, and the inversion of the host's turn. -/

namespace Sys2Proof.Machine

/-- Every register stands in the list of the map. -/
theorem Reg.mem_all (r : Reg) : r ∈ Reg.all := by
  cases r with
  | digest i => exact (by decide : ∀ i : Fin 5, Reg.digest i ∈ Reg.all) i
  | h i => exact (by decide : ∀ i : Fin 5, Reg.h i ∈ Reg.all) i
  | block i => exact (by decide : ∀ i : Fin 16, Reg.block i ∈ Reg.all) i
  | key i => exact (by decide : ∀ i : Fin 16, Reg.key i ∈ Reg.all) i
  | _ => decide

/-- A property decided over the list of the map holds of every register. -/
theorem Reg.forall_of_all {p : Reg → Bool} (h : Reg.all.all p = true) (r : Reg) : p r = true :=
  List.all_eq_true.mp h r (Reg.mem_all r)

/-- A register is the one at its own offset. -/
theorem Reg.ofOffset_byteOffset (r : Reg) : Reg.ofOffset r.byteOffset = some r := by
  have h := Reg.forall_of_all (p := fun r => decide (Reg.ofOffset r.byteOffset = some r)) (by decide +kernel) r
  simpa using h

/-- The register map, in both directions. -/
theorem Reg.ofOffset_eq_some {off : Nat} {r : Reg} : Reg.ofOffset off = some r ↔ r.byteOffset = off := by
  constructor
  · intro h
    have := List.find?_some h
    simpa using this
  · rintro rfl; exact Reg.ofOffset_byteOffset r

/-- No two registers share an offset. -/
theorem Reg.byteOffset_inj {r q : Reg} : r.byteOffset = q.byteOffset ↔ r = q := by
  constructor
  · intro h
    have h1 := Reg.ofOffset_byteOffset r
    rw [h, Reg.ofOffset_byteOffset] at h1
    exact (Option.some.inj h1).symm
  · rintro rfl; rfl

/-- An offset with no register holds none. -/
theorem Reg.ofOffset_eq_none {off : Nat} : Reg.ofOffset off = none ↔ ∀ r : Reg, r.byteOffset ≠ off := by
  constructor
  · intro h r hr
    rw [Reg.ofOffset_eq_some.mpr hr] at h
    cases h
  · intro h
    cases hc : Reg.ofOffset off with
    | none => rfl
    | some r => exact absurd (Reg.ofOffset_eq_some.mp hc) (h r)

/-- A write to a register's own offset, outside reset, is `writeReg` of it. -/
theorem busWrite_byteOffset (r : Reg) (v : Word) (s : State) (h : s.rst = false) :
    busWrite r.byteOffset v s = writeReg v s r := by
  simp [busWrite, h, Reg.ofOffset_byteOffset]

/-- While `rst` is high a write does nothing. -/
theorem busWrite_rst (off : Nat) (v : Word) (s : State) (h : s.rst = true) : busWrite off v s = s := by
  simp [busWrite, h]

/-- Everything a register write can do. -/
theorem busWrite_cases (off : Nat) (v : Word) (s : State) :
    busWrite off v s = s ∨
    (s.rst = false ∧ off = Reg.status.byteOffset ∧ busWrite off v s = acknowledge v s) ∨
    (s.rst = false ∧ off = Reg.inten.byteOffset ∧ busWrite off v s = setInten (Inten.ofWord v) s) ∨
    (s.rst = false ∧ ∃ r : Reg, r.access = .gated ∧ r.byteOffset = off ∧ s.status.busy = true ∧
      busWrite off v s = flagIgnored s) ∨
    (s.rst = false ∧ off = Reg.ctrl.byteOffset ∧ s.status.busy = false ∧ busWrite off v s = accept v s) ∨
    (s.rst = false ∧ ∃ r : Reg, r.access = .gated ∧ r ≠ .ctrl ∧ r.byteOffset = off ∧ s.status.busy = false ∧
      busWrite off v s = storeInput s v r) := by
  by_cases hr : s.rst = true
  · exact .inl (busWrite_rst off v s hr)
  · replace hr : s.rst = false := by simpa using hr
    cases ho : Reg.ofOffset off with
    | none => left; simp [busWrite, ho]
    | some r =>
      have hoff := Reg.ofOffset_eq_some.mp ho
      have hw : busWrite off v s = writeReg v s r := by simp [busWrite, hr, ho]
      cases ha : r.access with
      | readOnly => left; rw [hw]; simp only [writeReg, ha]
      | always =>
        by_cases hs : r = .status
        · right; left; subst hs; exact ⟨hr, hoff.symm, by rw [hw]; simp [writeReg, ha]⟩
        · right; right; left
          have hi : r = .inten := by
            have := Reg.forall_of_all (p := fun r => decide (r.access = .always → r ≠ .status → r = .inten)) (by decide) r
            simp only [decide_eq_true_eq] at this
            exact this ha hs
          subst hi; exact ⟨hr, hoff.symm, by rw [hw]; simp [writeReg, ha]⟩
      | gated =>
        by_cases hb : s.status.busy = true
        · right; right; right; left; exact ⟨hr, r, ha, hoff, hb, by rw [hw]; simp [writeReg, ha, hb]⟩
        · replace hb : s.status.busy = false := by simpa using hb
          by_cases hc : r = .ctrl
          · right; right; right; right; left
            subst hc; exact ⟨hr, hoff.symm, hb, by rw [hw]; simp [writeReg, ha, hb]⟩
          · right; right; right; right; right
            exact ⟨hr, r, ha, hc, hoff, hb, by rw [hw]; simp [writeReg, ha, hb, hc]⟩

/-- Acceptance is the latch and a schedule. -/
theorem accept_eq (v : Word) (s : State) : ∃ d ds n, accept v s = (latch v s).setSchedule d ds n := by
  unfold accept startDelay
  split <;> exact ⟨_, _, _, rfl⟩

/-- A transfer is refused exactly when it is not well formed. -/
theorem transferRefusal_eq_none {off size : Nat} :
    transferRefusal off size = none ↔ Transfer.wellFormed off size = true := by
  unfold transferRefusal Transfer.wellFormed Transfer.sizeOk Transfer.aligned Transfer.inWindow
  split
  · simp_all
  · split
    · simp_all
    · split <;> simp_all

/-- A read that answers changes the host's own data alone. -/
theorem busRead_inv {off : Nat} {s t : State} (h : busRead off s = .next t) :
    ∃ n, t = logRead off (readValue off s) n s := by
  unfold busRead at h
  split at h
  · cases h
  · injection h with h; exact ⟨_, h.symm⟩

/-- A due write of an aligned word of the window is performed. -/
theorem hostTurn_write {s : State} {off : Nat} {v : Word} {rest : List Input} (hi : s.inputs = .write off 4 v :: rest)
    (ha : off % 4 = 0) (hw : off < 4096) : hostTurn s = .next (busWrite off v (passTurn rest s)) := by
  simp [hostTurn, hi, transferRefusal, ha, hw]

/-- A due read of an aligned word of the window is performed. -/
theorem hostTurn_read {s : State} {off : Nat} {rest : List Input} (hi : s.inputs = .read off 4 :: rest)
    (ha : off % 4 = 0) (hw : off < 4096) : hostTurn s = busRead off (passTurn rest s) := by
  simp [hostTurn, hi, transferRefusal, ha, hw]

/-- Every register lies in the window, at an aligned offset. -/
theorem Reg.byteOffset_ok (r : Reg) : r.byteOffset % 4 = 0 ∧ r.byteOffset < 4096 := by
  have := Reg.forall_of_all (p := fun r => decide (r.byteOffset % 4 = 0 ∧ r.byteOffset < 4096)) (by decide) r
  simpa using this

/-- The inversion of the host's turn: idle, a write, a read, a poll, or the reset line. -/
theorem hostTurn_inv {s t : State} (h : hostTurn s = .next t) :
    (s.inputs = [] ∧ t = passTurn [] s) ∨
    (∃ off v rest, s.inputs = .write off 4 v :: rest ∧ off % 4 = 0 ∧ off < 4096 ∧
      t = busWrite off v (passTurn rest s)) ∨
    (∃ off rest, s.inputs = .read off 4 :: rest ∧ off % 4 = 0 ∧ off < 4096 ∧
      busRead off (passTurn rest s) = .next t) ∨
    (∃ rest left, s.inputs = .wait :: rest ∧ (left = s.inputs ∨ left = rest) ∧
      busRead Reg.status.byteOffset (passTurn left s) = .next t) ∨
    (∃ level rest, s.inputs = .reset level :: rest ∧ t = driveReset level (passTurn rest s)) := by
  have wf : ∀ {off size : Nat}, transferRefusal off size = none → size = 4 ∧ off % 4 = 0 ∧ off < 4096 := by
    intro off size h
    have := transferRefusal_eq_none.mp h
    simp only [Transfer.wellFormed, Transfer.sizeOk, Transfer.aligned, Transfer.inWindow, Bool.and_eq_true,
      beq_iff_eq, decide_eq_true_eq] at this
    exact ⟨this.1.1, this.1.2, this.2⟩
  unfold hostTurn at h
  split at h
  · rename_i hi; injection h with h; exact .inl ⟨hi, h.symm⟩
  · rename_i off size v rest hi
    split at h
    · cases h
    · rename_i hn; obtain ⟨rfl, h1, h2⟩ := wf hn
      injection h with h; exact .inr (.inl ⟨off, v, rest, hi, h1, h2, h.symm⟩)
  · rename_i off size rest hi
    split at h
    · cases h
    · rename_i hn; obtain ⟨rfl, h1, h2⟩ := wf hn
      exact .inr (.inr (.inl ⟨off, rest, hi, h1, h2, h⟩))
  · rename_i rest hi
    split at h
    · exact .inr (.inr (.inr (.inl ⟨rest, s.inputs, hi, .inl rfl, h⟩)))
    · exact .inr (.inr (.inr (.inl ⟨rest, rest, hi, .inr rfl, h⟩)))
  · rename_i level rest hi
    injection h with h; exact .inr (.inr (.inr (.inr ⟨level, rest, hi, h.symm⟩)))

end Sys2Proof.Machine
end

