-- ==== Sys2Proof/Laws/Bytes.lean ====
section
/-! SUPPORT. The halves of a 64-bit quantity (30_encoding.md R83) in natural numbers. -/

namespace Sys2Proof.Machine

/-- A pair's value: the high word counts 2^32. -/
theorem pair_toNat (hi lo : Word) : (pair hi lo).toNat = hi.toNat * 2 ^ 32 + lo.toNat := by
  show (hi ++ lo).toNat = _
  rw [BitVec.toNat_append, ← Nat.shiftLeft_add_eq_or_of_lt lo.isLt, Nat.shiftLeft_eq]

theorem hiWord_toNat (v : DWord) : (hiWord v).toNat = v.toNat / 2 ^ 32 := by
  have := v.isLt
  simp only [hiWord, BitVec.extractLsb'_toNat, Nat.shiftRight_eq_div_pow]
  omega

theorem loWord_toNat (v : DWord) : (loWord v).toNat = v.toNat % 2 ^ 32 := by
  simp [loWord, BitVec.extractLsb'_toNat]

/-- Splitting a 64-bit value into words and pairing them gives it back. -/
@[simp] theorem pair_hiWord_loWord (v : DWord) : pair (hiWord v) (loWord v) = v := by
  apply BitVec.eq_of_toNat_eq
  rw [pair_toNat, hiWord_toNat, loWord_toNat]
  omega

@[simp] theorem hiWord_pair (hi lo : Word) : hiWord (pair hi lo) = hi := by
  apply BitVec.eq_of_toNat_eq
  have := lo.isLt
  rw [hiWord_toNat, pair_toNat]
  omega

@[simp] theorem loWord_pair (hi lo : Word) : loWord (pair hi lo) = lo := by
  apply BitVec.eq_of_toNat_eq
  have := lo.isLt
  rw [loWord_toNat, pair_toNat]
  omega

/-- A big-endian word's value. -/
theorem be32_toNat (a b c d : Byte) :
    (be32 a b c d).toNat = a.toNat * 2 ^ 24 + b.toNat * 2 ^ 16 + c.toNat * 2 ^ 8 + d.toNat := by
  have app : ∀ {n m : Nat} (x : BitVec n) (y : BitVec m), (x ++ y).toNat = x.toNat * 2 ^ m + y.toNat := by
    intro n m x y
    rw [BitVec.toNat_append, ← Nat.shiftLeft_add_eq_or_of_lt y.isLt, Nat.shiftLeft_eq]
  unfold be32
  rw [app, app, app]
  ring

/-- The bytes of a word assembled from four bytes are those bytes (R12, R14). -/
theorem wordBytes_be32 (a b c d : Byte) : wordBytes (be32 a b c d) = [a, b, c, d] := by
  have ha := a.isLt
  have hb := b.isLt
  have hc := c.isLt
  have hd := d.isLt
  unfold wordBytes
  congr 1
  · apply BitVec.eq_of_toNat_eq
    rw [BitVec.extractLsb'_toNat, be32_toNat, Nat.shiftRight_eq_div_pow]; omega
  congr 1
  · apply BitVec.eq_of_toNat_eq
    rw [BitVec.extractLsb'_toNat, be32_toNat, Nat.shiftRight_eq_div_pow]; omega
  congr 1
  · apply BitVec.eq_of_toNat_eq
    rw [BitVec.extractLsb'_toNat, be32_toNat, Nat.shiftRight_eq_div_pow]; omega
  congr 1
  apply BitVec.eq_of_toNat_eq
  rw [BitVec.extractLsb'_toNat, be32_toNat, Nat.shiftRight_eq_div_pow]; omega

/-- The word assembled from a word's bytes is that word. -/
theorem be32_wordBytes (w : Word) :
    be32 (w.extractLsb' 24 8) (w.extractLsb' 16 8) (w.extractLsb' 8 8) (w.extractLsb' 0 8) = w := by
  have hw := w.isLt
  apply BitVec.eq_of_toNat_eq
  rw [be32_toNat]
  simp only [BitVec.extractLsb'_toNat, Nat.shiftRight_eq_div_pow]
  omega

theorem bytesOf_cons (w : Word) (ws : List Word) : bytesOf (w :: ws) = wordBytes w ++ bytesOf ws := rfl

theorem bytesOf_length (ws : List Word) : (bytesOf ws).length = 4 * ws.length := by
  induction ws with
  | nil => rfl
  | cons w ws ih =>
    rw [bytesOf_cons, List.length_append, ih]
    simp only [wordBytes, List.length_cons, List.length_nil]
    omega

/-- Splitting a word string into bytes and assembling it again gives it back. -/
theorem wordsOf_bytesOf (ws : List Word) : wordsOf (bytesOf ws) = ws := by
  induction ws with
  | nil => rfl
  | cons w ws ih =>
    rw [bytesOf_cons]
    simp only [wordBytes, List.cons_append, List.nil_append, wordsOf, be32_wordBytes, ih]

/-- `COUNTER` reads back the 64-bit value written to it. -/
@[simp] theorem State.counter_setCounter (s : State) (v : DWord) : (s.setCounter v).counter = v := by
  simp [State.counter]

/-- `MATCHCTR` reads back the 64-bit value written to it. -/
@[simp] theorem State.matchctr_setMatchctr (s : State) (v : DWord) : (s.setMatchctr v).matchctr = v := by
  simp [State.matchctr]

/-- The time step is the quotient of natural numbers (43_counter.md R150). -/
theorem timeStep_toNat (t p : DWord) : (timeStep t p).toNat = t.toNat / p.toNat := by
  have h := Nat.lt_of_le_of_lt (Nat.div_le_self t.toNat p.toNat) t.isLt
  simp only [timeStep, BitVec.toNat_ofNat]
  exact Nat.mod_eq_of_lt h

end Sys2Proof.Machine
end

