-- ==== Sys2Proof/Laws/Exec.lean ====
section
/-! SUPPORT. What a command can do, said once: every command answers a next state, which is the completion of an error over the
unchanged state or the completion of its effect. Later proofs cite `exec_cases` and the per-command lemmas. -/

namespace Sys2Proof.Machine

/-- The data effect of a command that raises nothing, with the checks it passed. -/
def Effect : Instr → State → State → Prop
  | .nop, s, u => u = s
  | .shaInit, s, u => u = s.setH sha1IV
  | .shaBlock, s, u => u = s.setH (compress s.h s.block)
  | .keySetup, s, u =>
    s.keylen.toNat ≤ 64 ∧ 1 ≤ s.codelen.toNat ∧ s.codelen.toNat ≤ 10 ∧
      u = s.setInstance (ipadState s.key s.keylen) (opadState s.key s.keylen) s.codelen
  | .hmacCtr, s, u => s.status.keyvalid = true ∧ u = s.setDigest (hmacOfCounter s.ipadH s.opadH s.counter)
  | .trunc, s, u => s.status.keyvalid = true ∧ u = truncateDigest s.digest s
  | .hotp, s, u => s.status.keyvalid = true ∧ u = setHotp s.counter s
  | .tstep, s, u => s.period ≠ 0 ∧ u = s.setCounter (timeStep s.time s.period)
  | .totpGen, s, u =>
    s.status.keyvalid = true ∧ s.period ≠ 0 ∧
      u = setHotp (timeStep s.time s.period) (s.setCounter (timeStep s.time s.period))
  | .totpVerify, s, u =>
    s.status.keyvalid = true ∧ s.period ≠ 0 ∧ u = setVerified (timeStep s.time s.period) s
  | .zeroize, s, u => u = clearKeyMaterial s

/-- A command with its effect available succeeds with it. -/
theorem exec_of_effect {i : Instr} {s u : State} (h : Effect i s u) : exec i s = .next (complete .ok u) := by
  cases i with
  | nop => cases h; rfl
  | shaInit => cases h; rfl
  | shaBlock => cases h; rfl
  | zeroize => cases h; rfl
  | keySetup =>
    obtain ⟨h1, h2, h3, rfl⟩ := h
    simp only [exec, execKeySetup, succeed]
    rw [if_neg (by omega), if_neg (by omega)]
  | hmacCtr => obtain ⟨h1, rfl⟩ := h; simp only [exec, execHmacCtr, succeed, h1, Bool.true_eq_false, if_false]
  | trunc => obtain ⟨h1, rfl⟩ := h; simp only [exec, execTrunc, succeed, h1, Bool.true_eq_false, if_false]
  | hotp => obtain ⟨h1, rfl⟩ := h; simp only [exec, execHotp, succeed, h1, Bool.true_eq_false, if_false]
  | tstep => obtain ⟨h1, rfl⟩ := h; simp only [exec, execTstep, succeed, h1, if_false]
  | totpGen => obtain ⟨h1, h2, rfl⟩ := h; simp only [exec, execTotpGen, succeed, h1, h2, Bool.true_eq_false, if_false]
  | totpVerify =>
    obtain ⟨h1, h2, rfl⟩ := h; simp only [exec, execTotpVerify, succeed, h1, h2, Bool.true_eq_false, if_false]

/-- Every command raises an error, its state otherwise unchanged, or succeeds with its effect. -/
theorem exec_cases (i : Instr) (s : State) :
    (∃ e, e ≠ .ok ∧ exec i s = .next (complete e s)) ∨ ∃ u, Effect i s u ∧ exec i s = .next (complete .ok u) := by
  have ok : ∀ {u}, Effect i s u → (∃ e, e ≠ .ok ∧ exec i s = .next (complete e s)) ∨
      ∃ u, Effect i s u ∧ exec i s = .next (complete .ok u) := fun h => .inr ⟨_, h, exec_of_effect h⟩
  cases i with
  | nop => exact ok rfl
  | shaInit => exact ok rfl
  | shaBlock => exact ok rfl
  | zeroize => exact ok rfl
  | keySetup =>
    by_cases h1 : s.keylen.toNat > 64
    · exact .inl ⟨.invalidKeyLength, by simp, by simp only [exec, execKeySetup, if_pos h1, raiseError]⟩
    · by_cases h2 : s.codelen.toNat < 1 ∨ s.codelen.toNat > 10
      · exact .inl ⟨.invalidCodeLength, by simp, by simp only [exec, execKeySetup, if_neg h1, if_pos h2, raiseError]⟩
      · exact ok ⟨by omega, by omega, by omega, rfl⟩
  | hmacCtr =>
    by_cases h : s.status.keyvalid = false
    · exact .inl ⟨.keyNotSetup, by simp, by simp only [exec, execHmacCtr, if_pos h, raiseError]⟩
    · exact ok ⟨by simpa using h, rfl⟩
  | trunc =>
    by_cases h : s.status.keyvalid = false
    · exact .inl ⟨.keyNotSetup, by simp, by simp only [exec, execTrunc, if_pos h, raiseError]⟩
    · exact ok ⟨by simpa using h, rfl⟩
  | hotp =>
    by_cases h : s.status.keyvalid = false
    · exact .inl ⟨.keyNotSetup, by simp, by simp only [exec, execHotp, if_pos h, raiseError]⟩
    · exact ok ⟨by simpa using h, rfl⟩
  | tstep =>
    by_cases h : s.period = 0
    · exact .inl ⟨.invalidPeriod, by simp, by simp only [exec, execTstep, if_pos h, raiseError]⟩
    · exact ok ⟨h, rfl⟩
  | totpGen =>
    by_cases h : s.status.keyvalid = false
    · exact .inl ⟨.keyNotSetup, by simp, by simp only [exec, execTotpGen, if_pos h, raiseError]⟩
    · by_cases hp : s.period = 0
      · exact .inl ⟨.invalidPeriod, by simp, by simp only [exec, execTotpGen, if_neg h, if_pos hp, raiseError]⟩
      · exact ok ⟨by simpa using h, hp, rfl⟩
  | totpVerify =>
    by_cases h : s.status.keyvalid = false
    · exact .inl ⟨.keyNotSetup, by simp, by simp only [exec, execTotpVerify, if_pos h, raiseError]⟩
    · by_cases hp : s.period = 0
      · exact .inl ⟨.invalidPeriod, by simp, by simp only [exec, execTotpVerify, if_neg h, if_pos hp, raiseError]⟩
      · exact ok ⟨by simpa using h, hp, rfl⟩

/-- The inversion of `exec`: the two ways a next state comes about. -/
theorem exec_inv {i : Instr} {s t : State} (h : exec i s = .next t) :
    (∃ e, e ≠ .ok ∧ t = complete e s) ∨ ∃ u, Effect i s u ∧ t = complete .ok u := by
  rcases exec_cases i s with ⟨e, he, hx⟩ | ⟨u, hu, hx⟩
  · rw [hx] at h; injection h with h; exact .inl ⟨e, he, h.symm⟩
  · rw [hx] at h; injection h with h; exact .inr ⟨u, hu, h.symm⟩

/-- The code an error reports is 0 for `ok` alone. -/
theorem Err.code_eq_zero {e : Err} : e.code = 0 ↔ e = .ok := by cases e <;> simp [Err.code]

/-- No error has a reserved code. -/
theorem Err.code_le_five (e : Err) : e.code.toNat ≤ 5 := by cases e <;> simp [Err.code]

@[simp] theorem Status.completed_busy (f : Status) (v : Word) (e : Err) : (f.completed v e).busy = false := rfl
@[simp] theorem Status.completed_done (f : Status) (v : Word) (e : Err) : (f.completed v e).done = true := rfl
@[simp] theorem Status.completed_err (f : Status) (v : Word) (e : Err) :
    (f.completed v e).err = (f.err || decide (e ≠ .ok)) := rfl
@[simp] theorem Status.completed_vmatch (f : Status) (v : Word) (e : Err) : (f.completed v e).vmatch = f.vmatch := rfl
@[simp] theorem Status.completed_keyvalid (f : Status) (v : Word) (e : Err) :
    (f.completed v e).keyvalid = f.keyvalid := rfl
@[simp] theorem Status.completed_busyerr (f : Status) (v : Word) (e : Err) :
    (f.completed v e).busyerr = f.busyerr := rfl
@[simp] theorem Status.completed_errcode (f : Status) (v : Word) (e : Err) : (f.completed v e).errcode = e.code := rfl
@[simp] theorem Status.completed_lastcmd (f : Status) (v : Word) (e : Err) :
    (f.completed v e).lastcmd = v.extractLsb' 0 4 := rfl
@[simp] theorem Status.completed_actlen (f : Status) (v : Word) (e : Err) : (f.completed v e).actlen = f.actlen := rfl

/-- Verification leaves every field of its write row as the last counter's, and touches no other. -/
theorem setVerified_eq (c : DWord) (s : State) :
    setVerified c s =
      ((setHotp (verifyResult s c).1 (s.setCounter c)).setMatchctr (verifyResult s c).1).setVmatch (verifyResult s c).2 :=
  rfl

end Sys2Proof.Machine
end

