-- ==== Sys2Proof/Laws/Hash.lean ====
section
/-! SUPPORT. The shape of the SHA-1 schedule and rounds (40_sha1.md R103, R105). -/

namespace Sys2Proof.Machine

theorem extendSchedule_length (n : Nat) (ws : List Word) : (extendSchedule n ws).length = n + ws.length := by
  induction n generalizing ws with
  | zero => simp [extendSchedule]
  | succ n ih => rw [extendSchedule, ih]; simp only [List.length_cons]; omega

/-- Continuing a schedule keeps the words so far. -/
theorem extendSchedule_suffix (n : Nat) (ws : List Word) : ∃ xs, extendSchedule n ws = xs ++ ws := by
  induction n generalizing ws with
  | zero => exact ⟨[], rfl⟩
  | succ n ih =>
    rw [extendSchedule]
    obtain ⟨xs, h⟩ := ih (rotl 1 (ws.getD 2 0 ^^^ ws.getD 7 0 ^^^ ws.getD 13 0 ^^^ ws.getD 15 0) :: ws)
    exact ⟨xs ++ [_], by rw [h, List.append_assoc, List.singleton_append]⟩

/-- Rounds over two runs of words, one after the other. -/
theorem rounds_append (t : Nat) (xs ys : List Word) (s : Work) :
    rounds t (xs ++ ys) s = rounds (t + xs.length) ys (rounds t xs s) := by
  induction xs generalizing t s with
  | nil => rfl
  | cons x xs ih =>
    simp only [List.cons_append, rounds, List.length_cons]
    rw [ih, Nat.add_assoc, Nat.add_comm 1]

end Sys2Proof.Machine
end

