-- ==== Sys2Proof/Laws/PerInstr.lean ====
section
/-! SUPPORT. A statement about every command as syntax, one lemma per constructor: the fields of its encoded word. -/

namespace Sys2Proof.Laws.WordFields

/-- The encoded word has `RSV = 0` and the command's code in `CMD` (30_encoding.md R80, R81). -/
def Statement (i : Instr) : Prop := rsvField (encode i) = 0 ∧ cmdField (encode i) = cmdCode i

theorem nop : Statement .nop := ⟨rfl, rfl⟩
theorem shaInit : Statement .shaInit := ⟨rfl, rfl⟩
theorem shaBlock : Statement .shaBlock := ⟨rfl, rfl⟩
theorem keySetup : Statement .keySetup := ⟨rfl, rfl⟩
theorem hmacCtr : Statement .hmacCtr := ⟨rfl, rfl⟩
theorem trunc : Statement .trunc := ⟨rfl, rfl⟩
theorem hotp : Statement .hotp := ⟨rfl, rfl⟩
theorem tstep : Statement .tstep := ⟨rfl, rfl⟩
theorem totpGen : Statement .totpGen := ⟨rfl, rfl⟩
theorem totpVerify : Statement .totpVerify := ⟨rfl, rfl⟩
theorem zeroize : Statement .zeroize := ⟨rfl, rfl⟩

end Sys2Proof.Laws.WordFields
end

