-- ==== Sys2Proof/Laws/Search.lean ====
section
/-! SUPPORT. The spec of the verification loop (43_counter.md R156) and of the code reduction (42_truncation.md R140). -/

namespace Sys2Proof.Machine

/-- The loop from i over n further counters: where it stops, that nothing before it matched, and that without a match it
stops at the end. -/
theorem searchWindow_spec (isMatch : DWord → Bool) (n : Nat) (i : DWord) (h : i.toNat + n < 2 ^ 64) :
    (searchWindow isMatch n i).2 = isMatch (searchWindow isMatch n i).1 ∧
    i.toNat ≤ (searchWindow isMatch n i).1.toNat ∧ (searchWindow isMatch n i).1.toNat ≤ i.toNat + n ∧
    (∀ j : DWord, i.toNat ≤ j.toNat → j.toNat < (searchWindow isMatch n i).1.toNat → isMatch j = false) ∧
    ((searchWindow isMatch n i).2 = false → (searchWindow isMatch n i).1.toNat = i.toNat + n) := by
  induction n generalizing i with
  | zero => simp only [searchWindow]; exact ⟨trivial, by omega, by omega, fun j h1 h2 => by omega, fun _ => rfl⟩
  | succ n ih =>
    unfold searchWindow
    by_cases hf : isMatch i = true
    · simp only [hf, if_true]
      exact ⟨trivial, by omega, by omega, fun j h1 h2 => by omega, fun h => by cases h⟩
    · rw [if_neg hf]
      have hi : (i + 1).toNat = i.toNat + 1 := by
        rw [BitVec.toNat_add, show (1 : DWord).toNat = 1 from rfl]; omega
      obtain ⟨a, b, c, d, e⟩ := ih (i + 1) (by omega)
      refine ⟨a, by omega, by omega, fun j h1 h2 => ?_, fun h => by have := e h; omega⟩
      by_cases hj : j.toNat = i.toNat
      · rw [BitVec.eq_of_toNat_eq hj]; simpa using hf
      · exact d j (by omega) h2

/-- The code is the natural-number remainder. -/
theorem codeOf_toNat (dt : BitVec 31) (len : BitVec 4) : (codeOf dt len).toNat = dt.toNat % 10 ^ len.toNat := by
  have h1 := Nat.mod_le dt.toNat (10 ^ len.toNat)
  have h2 := dt.isLt
  simp only [codeOf, BitVec.toNat_ofNat]
  exact Nat.mod_eq_of_lt (by omega)

/-- A code never exceeds the value it was reduced from. -/
theorem codeOf_le (dt : BitVec 31) (len : BitVec 4) : (codeOf dt len).toNat ≤ dt.toNat := by
  rw [codeOf_toNat]; exact Nat.mod_le _ _

end Sys2Proof.Machine
end

