-- ==== Sys2Proof/Laws/Step.lean ====
section
/-! SUPPORT. What one step can do, said once: the engine's completion of the pending word, or one of the host's turns. -/

namespace Sys2Proof.Machine

theorem step_engine {s : State} (h : engineTurn s = true) : step s = engineStep s := by simp [step, h]

theorem step_host {s : State} (h : engineTurn s = false) : step s = hostTurn s := by simp [step, h]

theorem engineStep_ok {s : State} {i : Instr} (h : decode s.pending = .ok i) : engineStep s = exec i s := by
  simp [engineStep, fetched, h]

theorem engineStep_error {s : State} {e : DecodeError} (h : decode s.pending = .error e) :
    engineStep s = .next (complete .illegalCommand s) := by
  simp [engineStep, fetched, h, execIllegal, raiseError]

/-- What the engine's turn means (R172). -/
theorem engineTurn_iff {s : State} :
    engineTurn s = true ↔ s.status.busy = true ∧ s.rst = false ∧ s.delay = 0 := by
  simp [engineTurn, and_assoc]

/-- The inversion of a step: the engine completes the pending word, by an error or by its effect, or the host moves. -/
theorem step_inv {s t : State} (h : step s = .next t) :
    (engineTurn s = true ∧ ∃ e, e ≠ .ok ∧ t = complete e s) ∨
    (engineTurn s = true ∧ ∃ i u, decode s.pending = .ok i ∧ Effect i s u ∧ t = complete .ok u) ∨
    (engineTurn s = false ∧ hostTurn s = .next t) := by
  cases ht : engineTurn s with
  | false => rw [step_host ht] at h; exact .inr (.inr ⟨rfl, h⟩)
  | true =>
    rw [step_engine ht] at h
    cases hd : decode s.pending with
    | error e =>
      rw [engineStep_error hd] at h
      injection h with h
      exact .inl ⟨rfl, _, by simp, h.symm⟩
    | ok i =>
      rw [engineStep_ok hd] at h
      rcases exec_inv h with ⟨e, he, ht⟩ | ⟨u, hu, ht⟩
      · exact .inl ⟨rfl, e, he, ht⟩
      · exact .inr (.inl ⟨rfl, i, u, rfl, hu, ht⟩)

/-- What every effect leaves alone: the latch, the line, the agents' own data and the flags only completion writes. -/
theorem Effect.keeps {i : Instr} {s u : State} (h : Effect i s u) :
    u.pending = s.pending ∧ u.rst = s.rst ∧ u.inputs = s.inputs ∧ u.reads = s.reads ∧ u.delays = s.delays ∧
    u.delay = s.delay ∧ u.draws = s.draws ∧ u.status.err = s.status.err ∧ u.status.busyerr = s.status.busyerr := by
  cases i <;> simp only [Effect] at h
  case nop => subst h; simp
  case shaInit => subst h; simp
  case shaBlock => subst h; simp
  case zeroize => subst h; simp
  case keySetup => obtain ⟨_, _, _, rfl⟩ := h; simp
  case hmacCtr => obtain ⟨_, rfl⟩ := h; simp
  case trunc => obtain ⟨_, rfl⟩ := h; simp
  case hotp => obtain ⟨_, rfl⟩ := h; simp
  case tstep => obtain ⟨_, rfl⟩ := h; simp
  case totpGen => obtain ⟨_, _, rfl⟩ := h; simp
  case totpVerify => obtain ⟨_, _, rfl⟩ := h; simp [setVerified]

end Sys2Proof.Machine
end

