-- ==== Sys2Proof/Tests/Slice0.lean ====
section
/-! SUPPORT. Tests against the spec's own vectors (95_test_vectors.md), one step each, and for every statement with hypotheses a
concrete state that meets them. -/

namespace Sys2Proof.Tests

set_option Elab.async false

open Sys2Proof.Machine Sys2Proof.Safety Sys2Proof.Statements

/-! ### Helpers -/

/-- The next state, if there is one. -/
def nextOf : Result → Option State
  | .next s => some s
  | .fault _ => none
  | .refused _ => none

/-- The word w is accepted and performed at s. -/
def perform (w : Nat) (s : State) : Option State := nextOf (step (s.withFetchWord 32 w))

/-- The RFC key "12345678901234567890" in the key buffer (95_test_vectors.md, conventions). -/
def rfcBuffer : Block :=
  #v[0x31323334, 0x35363738, 0x39303132, 0x33343536, 0x37383930, 0, 0, 0, 0, 0, 0, 0, 0, 0, 0, 0]

/-- The RFC key as bytes. -/
def rfcBytes : List Byte :=
  [0x31, 0x32, 0x33, 0x34, 0x35, 0x36, 0x37, 0x38, 0x39, 0x30, 0x31, 0x32, 0x33, 0x34, 0x35, 0x36, 0x37, 0x38, 0x39, 0x30]

/-- The RFC key loaded, `CFG` = len, no instance yet. -/
def loaded (len : BitVec 4) : State := { State.reset with key := rfcBuffer, keylen := 20, codelen := len }

/-- The instance V-HMAC-1 leaves, with code length len. -/
def keyed (len : BitVec 4) : State :=
  { loaded len with
    ipadH := #v[0xCBC80C8C, 0xF599E2AC, 0xBDB8C832, 0xDA95C1C3, 0xF8683025]
    opadH := #v[0x98BDBDCD, 0x58E07BFE, 0xAD5CDDEA, 0x3AC0430B, 0xFE106825]
    status := { State.reset.status with keyvalid := true, actlen := len } }

/-- A command w in progress, the engine to move after d host turns. -/
def busyWith (w : Nat) (d : Nat) (s : State) : State := { s.withFetchWord 32 w with delay := d }

/-! ### Well-formedness and decoding -/

theorem test_wellFormed_accepts : CommandWord.wellFormed 0x9 = true ∧ Transfer.wellFormed 0xFFC 4 = true ∧
    Instr.wellFormed .zeroize = true := by decide

theorem test_wellFormed_refuses_reserved_bits : CommandWord.reservedClear 0x10 = false ∧
    CommandWord.wellFormed 0x10 = false := by decide

theorem test_wellFormed_refuses_reserved_code : CommandWord.codeAssigned 0xA = false ∧
    CommandWord.wellFormed 0xE = false := by decide

theorem test_wellFormed_refuses_size : Transfer.sizeOk 2 = false ∧ Transfer.wellFormed 0x10 8 = false := by decide

theorem test_wellFormed_refuses_alignment : Transfer.aligned 0x12 = false ∧ Transfer.wellFormed 0x11 4 = false := by decide

theorem test_wellFormed_refuses_outside : Transfer.inWindow 0x1000 = false ∧ Transfer.wellFormed 0x1000 4 = false := by
  decide

/-- R81, each command's word written out bit by bit. -/
theorem test_decode_words :
    decode 0b00000000000000000000000000000000#32 = .ok .nop ∧
    decode 0b00000000000000000000000000000001#32 = .ok .shaInit ∧
    decode 0b00000000000000000000000000000010#32 = .ok .shaBlock ∧
    decode 0b00000000000000000000000000000011#32 = .ok .keySetup ∧
    decode 0b00000000000000000000000000000100#32 = .ok .hmacCtr ∧
    decode 0b00000000000000000000000000000101#32 = .ok .trunc ∧
    decode 0b00000000000000000000000000000110#32 = .ok .hotp ∧
    decode 0b00000000000000000000000000000111#32 = .ok .tstep ∧
    decode 0b00000000000000000000000000001000#32 = .ok .totpGen ∧
    decode 0b00000000000000000000000000001001#32 = .ok .totpVerify ∧
    decode 0b00000000000000000000000000001111#32 = .ok .zeroize :=
  ⟨rfl, rfl, rfl, rfl, rfl, rfl, rfl, rfl, rfl, rfl, rfl⟩

theorem test_decode_refuses : decode 0x0000000A = .error .reservedCode ∧ decode 0x0000000E = .error .reservedCode ∧
    decode 0x80000003 = .error .reservedBits := ⟨rfl, rfl, rfl⟩

theorem test_decodeTableWord : decodeTableWord 32 9 = some .totpVerify ∧ decodeTableWord 8 0x1F = none ∧
    decodeTableWord 8 0x10F = some .zeroize := ⟨rfl, rfl, rfl⟩

/-- R20: offsets of the map, first and last of each array. -/
theorem test_register_offsets : Reg.ofOffset 0x050 = some .offset ∧ Reg.ofOffset 0x070 = some (.digest 4) ∧
    Reg.ofOffset 0x080 = some (.h 0) ∧ Reg.ofOffset 0x0FC = some (.block 15) ∧ Reg.ofOffset 0x13C = some (.key 15) ∧
    Reg.ofOffset 0x054 = none ∧ Reg.ofOffset 0x094 = none ∧ Reg.ofOffset 0x140 = none := by decide +kernel

/-! ### Commands -/

/-- V-ERR-1. -/
theorem test_nop : (perform 0x0 State.reset).map (fun t => t.status.word) = some 0x00000002 := by decide +kernel

/-- V-SHA-5. -/
theorem test_shaInit : (perform 0x1 State.reset).map (fun t => (t.h, t.status.word)) =
    some (#v[0x67452301, 0xEFCDAB89, 0x98BADCFE, 0x10325476, 0xC3D2E1F0], 0x00001002) := by decide +kernel

/-- V-SHA-1: the padded "abc". -/
theorem test_shaBlock_abc :
    (perform 0x2 { State.reset with
      h := sha1IV, block := #v[0x61626380, 0, 0, 0, 0, 0, 0, 0, 0, 0, 0, 0, 0, 0, 0, 0x18] }).map
      (fun t => (t.h, t.status.word)) =
    some (#v[0xA9993E36, 0x4706816A, 0xBA3E2571, 0x7850C26C, 0x9CD0D89D], 0x00002002) := by decide +kernel

/-- V-SHA-3, second block: a chaining value that is not the initial one. -/
theorem test_shaBlock_chains :
    (perform 0x2 { State.reset with
      h := #v[0xF4286818, 0xC37B27AE, 0x0408F581, 0x84677148, 0x4A566572]
      block := #v[0, 0, 0, 0, 0, 0, 0, 0, 0, 0, 0, 0, 0, 0, 0, 0x1C0] }).map (fun t => t.h) =
    some #v[0x84983E44, 0x1C3BD26E, 0xBAAE4AA1, 0xF95129E5, 0xE54670F1] := by decide +kernel

/-- V-HMAC-1. -/
theorem test_keySetup : (perform 0x3 (loaded 8)).map (fun t => (t.ipadH, t.opadH, t.status.word)) =
    some (#v[0xCBC80C8C, 0xF599E2AC, 0xBDB8C832, 0xDA95C1C3, 0xF8683025],
      #v[0x98BDBDCD, 0x58E07BFE, 0xAD5CDDEA, 0x3AC0430B, 0xFE106825], 0x00083012) := by decide +kernel

/-- V-HMAC-6, V-ERR-5: `KEYLEN` 65 before the code length, and the code length 11. -/
theorem test_keySetup_errors :
    (perform 0x3 { State.reset with keylen := 65 }).map (fun t => t.status.word) = some 0x00003306 ∧
    (perform 0x3 { State.reset with codelen := 11 }).map (fun t => t.status.word) = some 0x00003106 := by decide +kernel

/-- V-HMAC-2. -/
theorem test_hmacCtr : (perform 0x4 { keyed 8 with counterLo := 1 }).map (fun t => (t.digest, t.status.word)) =
    some (#v[0x75A48A19, 0xD4CBE100, 0x644E8AC1, 0x397EEA74, 0x7A2D33AB], 0x00084012) := by decide +kernel

/-- The key buffer of V-HMAC-4: byte j = 0xA5 + j. -/
def a5Buffer : Block :=
  #v[0xA5A6A7A8, 0xA9AAABAC, 0xADAEAFB0, 0xB1B2B3B4, 0xB5B6B7B8, 0xB9BABBBC, 0xBDBEBFC0, 0xC1C2C3C4,
    0xC5C6C7C8, 0xC9CACBCC, 0xCDCECFD0, 0xD1D2D3D4, 0xD5D6D7D8, 0xD9DADBDC, 0xDDDEDFE0, 0xE1E2E3E4]

/-- V-HMAC-4a to 4c: key lengths 0, 1 and 64 over one buffer. -/
theorem test_hmac_key_lengths :
    hmacOfCounter (ipadState a5Buffer 0) (opadState a5Buffer 0) 0 =
      #v[0xDAB69AD9, 0x8E28764F, 0x977EE248, 0x7E4F3F68, 0x73B2A297] ∧
    hmacOfCounter (ipadState a5Buffer 1) (opadState a5Buffer 1) 0 =
      #v[0xB753B4BE, 0xA207A7B9, 0xB57135A9, 0x4124C2B4, 0x175BAA11] ∧
    hmacOfCounter (ipadState a5Buffer 64) (opadState a5Buffer 64) 0 =
      #v[0x3CD3D614, 0xB0378E3E, 0x38BAB83D, 0x53FE64B0, 0x18DFF99A] := by decide +kernel

/-- V-TRUNC-2 (offset 15) and V-TRUNC-3 (offset 11, top bit set, across a word boundary). -/
theorem test_trunc :
    (perform 0x5 { keyed 8 with
      digest := #v[0x25A326D3, 0x1FC36624, 0x4CAD0549, 0x76020C7B, 0x56B13D5F] }).map
      (fun t => (t.offset, t.dtval, t.code)) = some (15, 0x7B56B13D, 69279037) ∧
    (perform 0x5 { keyed 8 with
      digest := #v[0x75A48A19, 0xD4CBE100, 0x644E8AC1, 0x397EEA74, 0x7A2D33AB] }).map
      (fun t => (t.offset, t.dtval, t.code, t.status.word)) = some (11, 0x41397EEA, 94287082, 0x00085012) := by
  decide +kernel

/-- V-HOTP-12: the counter 2^64-1. -/
theorem test_hotp :
    (perform 0x6 { keyed 8 with counterLo := 0xFFFFFFFF, counterHi := 0xFFFFFFFF }).map
      (fun t => (t.digest, t.offset, t.dtval, t.code)) =
    some (#v[0xF616FD66, 0xB7F06290, 0x686B6320, 0xCEB34D65, 0xB1FE93EA], 10, 1663094451, 63094451) := by decide +kernel

/-- V-HOTP-0 with 6 digits, and V-HOTP-16. -/
theorem test_hotp_status :
    (perform 0x6 (keyed 6)).map (fun t => (t.code, t.status.word)) = some (755224, 0x00066012) ∧
    (perform 0x6 State.reset).map (fun t => t.status.word) = some 0x00006406 := by decide +kernel

/-- V-TSTEP-6 and V-TSTEP-10: unsigned, and a period whose low word is 0. -/
theorem test_tstep :
    (perform 0x7 { State.reset with timeLo := 0xFFFFFFFF, timeHi := 0xFFFFFFFF }).map
      (fun t => (t.counterHi, t.counterLo, t.status.word)) = some (0x08888888, 0x88888888, 0x00007002) ∧
    (perform 0x7 { State.reset with timeHi := 2, periodHi := 1, periodLo := 0 }).map
      (fun t => (t.counterHi, t.counterLo)) = some (0, 2) := by decide +kernel

/-- V-TSTEP-9. -/
theorem test_tstep_zero_period :
    (perform 0x7 { State.reset with periodLo := 0, counterLo := 5 }).map (fun t => (t.counterLo, t.status.word)) =
      some (5, 0x00007206) := by decide +kernel

/-- V-TOTP-2, the source's own vector at t = 1111111109. -/
theorem test_totpGen :
    (perform 0x8 { keyed 8 with timeLo := 1111111109 }).map (fun t => (t.counterLo, t.offset, t.code, t.status.word)) =
      some (0x023523EC, 4, 7081804, 0x00088012) := by decide +kernel

/-- V-TOTP-7 and V-TOTP-8: the order of the checks. -/
theorem test_totpGen_errors :
    (perform 0x8 { State.reset with periodLo := 0 }).map (fun t => t.status.word) = some 0x00008406 ∧
    (perform 0x8 { keyed 6 with counterLo := 77, periodLo := 0 }).map (fun t => (t.counterLo, t.status.word)) =
      some (77, 0x00068216) := by decide +kernel

/-- V-VER-8: the window clipped at 0, a match inside it. -/
theorem test_totpVerify_clips_low :
    (perform 0x9 { keyed 6 with timeLo := 10, window := 2, candLo := 287082, candlen := 6 }).map
      (fun t => (t.matchctr, t.counter, t.status.word)) = some (1, 0, 0x0006901A) := by decide +kernel

/-- V-VER-10: the window clipped at 2^64-1, a match at its end. -/
theorem test_totpVerify_clips_high :
    (perform 0x9 { keyed 8 with
      timeLo := 0xFFFFFFFF, timeHi := 0xFFFFFFFF, periodLo := 1, window := 1, candLo := 63094451, candlen := 8 }).map
      (fun t => (t.matchctr, t.counter, t.status.word)) =
    some (0xFFFFFFFFFFFFFFFF, 0xFFFFFFFFFFFFFFFF, 0x0008901A) := by decide +kernel

/-- V-HMAC-7. -/
theorem test_zeroize :
    (perform 0xF { keyed 8 with code := 5, counterLo := 9, candLo := 3 }).map
      (fun t => ((t.status.word, t.key, t.keylen, t.ipadH), t.code, t.counterLo, t.candLo, t.codelen)) =
    some ((0x0000F002, Block.zero, 0, Digest.zero), 0, 9, 0, 8) := by decide +kernel

/-- V-ERR-2, V-ERR-3: words that select no command. -/
theorem test_illegal :
    (perform 0xA State.reset).map (fun t => t.status.word) = some 0x0000A506 ∧
    (perform 0x10 State.reset).map (fun t => t.status.word) = some 0x00000506 := by decide +kernel

/-! ### Bus, interrupt, reset -/

/-- V-REG-1, V-REG-2: reserved bits of input registers. -/
theorem test_reserved_bits :
    readReg (busWrite 0x010 0xFFFFFFF6 State.reset) .cfg = 6 ∧
    readReg (busWrite 0x014 0xFFFFFFFF State.reset) .keylen = 0x7F ∧
    readReg (busWrite 0x01C 0xFFFFFFFF State.reset) .candlen = 0x1F := by decide +kernel

/-- V-REG-3, V-REG-5. -/
theorem test_reads_at_reset :
    readValue 0x000 State.reset = 0x48534131 ∧ readValue 0x004 State.reset = 0 ∧ readValue 0x054 State.reset = 0 ∧
    readValue 0xFFC State.reset = 0 ∧ readValue 0x028 State.reset = 0x1E ∧ readValue 0x02C State.reset = 0 := by
  decide +kernel

/-- V-HAZ-1: a host turn while busy. -/
theorem test_write_while_busy :
    (nextOf (step { busyWith 0 2 State.reset with inputs := [.write 0x020 4 5] })).map
      (fun t => (t.timeLo, t.status.word)) = some (0, 0x00000021) := by decide +kernel

/-- V-REG-4: read-only and reserved offsets while busy. -/
theorem test_readOnly_while_busy :
    (busWrite 0x000 1 (busyWith 0 1 State.reset)).status.busyerr = false ∧
    (busWrite 0x04C 1 (busyWith 0 1 State.reset)).status.busyerr = false ∧
    busWrite 0x200 1 (busyWith 0 1 State.reset) = busyWith 0 1 State.reset := by decide +kernel

/-- V-ERR-6: `CLR`. -/
theorem test_clr :
    (busWrite 0x008 0x26 { State.reset with
      status := { State.reset.status with done := true, err := true, errcode := 4, lastcmd := 6 } }).status.word =
    0x00006400 := by decide +kernel

/-- V-IRQ-2, V-IRQ-3, V-IRQ-4. -/
theorem test_irq :
    (perform 0x0 { State.reset with inten := Inten.ofWord 1 }).map irq = some true ∧
    (perform 0xB { State.reset with inten := Inten.ofWord 2 }).map (fun t => (irq t, t.status.word)) =
      some (true, 0x0000B506) ∧
    irq (busWrite 0x020 5 { busyWith 0 1 State.reset with inten := Inten.ofWord 4 }) = true ∧
    irq { State.reset with inten := Inten.ofWord 7 } = false := by decide +kernel

/-- R93: `WAIT` stays while busy and passes when idle. -/
theorem test_wait :
    (nextOf (step { busyWith 0 2 State.reset with inputs := [.wait] })).map (fun t => (t.inputs, t.delay)) =
      some ([.wait], 1) ∧
    (nextOf (step { State.reset with inputs := [.wait] })).map (fun t => (t.inputs, t.reads)) = some ([], [(8, 0)]) := by
  decide +kernel

/-- R201: a command abandoned. -/
theorem test_reset_abandons :
    (nextOf (step { busyWith 6 3 (keyed 6) with inputs := [.reset true] })).map
      (fun t => (t.status.word, t.ipadH, t.rst)) = some (0, Digest.zero, true) := by decide +kernel

/-- U14: the fault. -/
theorem test_reserved_errcode_faults :
    step { State.reset with
      status := { State.reset.status with errcode := 6 }, inputs := [.read 8 4] } = .fault .reservedErrorCode := by rfl

/-! ### Byte strings and the host's duties -/

/-- R106 by the FIPS example of V-SHA-3, and R120 by V-HMAC-2 and V-HMAC-5's inner step. -/
theorem test_sha1_message :
    sha1 [0x61, 0x62, 0x63] = #v[0xA9993E36, 0x4706816A, 0xBA3E2571, 0x7850C26C, 0x9CD0D89D] ∧
    sha1 ((List.range 100).map (BitVec.ofNat 8)) = #v[0x1E6634BF, 0xAEBC0348, 0x29810592, 0x3D0F26E4, 0x7AA33FF5] := by
  decide +kernel

/-- V-HMAC-2 and V-HMAC-5 from the definition of HMAC. -/
theorem test_hmacSha1 :
    hmacSha1 rfcBytes (be64Bytes 1) = #v[0x75A48A19, 0xD4CBE100, 0x644E8AC1, 0x397EEA74, 0x7A2D33AB] ∧
    hmacSha1 (hostKey ((List.range 100).map (BitVec.ofNat 8))) (be64Bytes 1) =
      #v[0xFB2002FA, 0xDCE53E76, 0x6B5A9B30, 0xF1B53E48, 0xBA49E880] := by decide +kernel

/-- P2 row 1: `LDKEY`. -/
theorem test_ldkey : ldkey rfcBytes =
    [.write 0x100 4 0x31323334, .write 0x104 4 0x35363738, .write 0x108 4 0x39303132, .write 0x10C 4 0x33343536,
      .write 0x110 4 0x37383930, .write 0x014 4 0x14] := by decide +kernel

/-- P2 rows 5 and 6, P3 row 3: `WR64`, `RUN`, `CLR`. -/
theorem test_pseudo_instructions : wr64 .time 59 = [.write 0x020 4 0x3B, .write 0x024 4 0] ∧
    runCommand .totpGen = [.write 0x004 4 8, .wait] ∧ clr = [.write 0x008 4 0x26] := by decide +kernel

/-- V-TOTP-2 and V-VER-3: the leading zero kept, and the candidate without it. -/
theorem test_render : render 8 7081804 = ['0', '7', '0', '8', '1', '8', '0', '4'] ∧
    candidate ['0', '7', '0', '8', '1', '8', '0', '4'] = (8, 7081804) ∧
    candidate ['7', '0', '8', '1', '8', '0', '4'] = (7, 7081804) ∧ candidate ['7', 'x'] = (0, 0) := by decide +kernel

/-- V-WIN-3 and V-WIN-7: window bounds at the top. -/
theorem test_window_bounds : windowLo 0xFFFFFFFFFFFFFFFF 3 = 0xFFFFFFFFFFFFFFFC ∧
    windowHi 0xFFFFFFFFFFFFFFFF 3 = 0xFFFFFFFFFFFFFFFF ∧
    windowLo 0xFFFFFFFFFFFFFFFF 0xFFFFFFFF = 0xFFFFFFFF00000000 ∧ windowLo 0 1 = 0 ∧ windowHi 0 1 = 1 := by
  decide +kernel

/-! ### Witnesses: for each statement with hypotheses, concrete data that meets them -/

/-- A host turn at an idle core: the input x is due. -/
def idleWith (x : Input) : State := { State.reset with inputs := [x] }

/-- A host turn while the word w is in progress: the input x is due. -/
def busyTurn (w : Nat) (x : Input) : State := { busyWith w 2 State.reset with inputs := [x] }

/-- The key material of `keyed 8`, a timestamp of 59, the code of counter 1 generated (V-TOTP-1). -/
def generated : State :=
  { keyed 8 with
    timeLo := 59, counterLo := 1, digest := #v[0x75A48A19, 0xD4CBE100, 0x644E8AC1, 0x397EEA74, 0x7A2D33AB]
    offset := 11, dtval := 1094287082, code := 94287082
    status := { (keyed 8).status with done := true, lastcmd := 0 } }

theorem witness_DecoderFollowsTheOpcodeMap :
    (0x00000010 : Word).extractLsb' 4 28 ≠ 0 ∧ (0x80000000 : Word).extractLsb' 4 28 ≠ 0 ∧
    [(0x0 : Word), 0x1, 0x2, 0x3, 0x4, 0x5, 0x6, 0x7, 0x8, 0x9, 0xA, 0xE, 0xF].all (fun c => c.extractLsb' 4 28 == 0) = true ∧
    (0xA : Word).extractLsb' 0 4 ∈ [(0xA : BitVec 4), 0xB, 0xC, 0xD, 0xE] ∧
    (0xE : Word).extractLsb' 0 4 ∈ [(0xA : BitVec 4), 0xB, 0xC, 0xD, 0xE] ∧
    (0x9 : Word).extractLsb' 0 4 = (0x9 : BitVec 4) ∧ (0xF : Word).extractLsb' 0 4 = (0xF : BitVec 4) := by decide +kernel

theorem witness_DecodeAndEncodeAgree : Instr.wellFormed .zeroize = true ∧ decode 0xF = .ok .zeroize ∧ encode .zeroize = 0xF :=
  ⟨rfl, rfl, rfl⟩

theorem witness_StepPerformsThePendingCommand :
    (busyWith 6 0 State.reset).status.busy = true ∧ (busyWith 6 0 State.reset).rst = false ∧
    (busyWith 6 0 State.reset).delay = 0 ∧ decode (busyWith 6 0 State.reset).pending = .ok .hotp ∧
    State.reset.status.busy = false ∧ (resetCore true State.reset).rst = true ∧ (busyWith 6 1 State.reset).delay ≠ 0 :=
  ⟨rfl, rfl, rfl, rfl, rfl, rfl, by decide⟩

theorem witness_IllegalWordCompletesWithCodeFive :
    engineTurn (busyWith 0x10 0 State.reset) = true ∧ (busyWith 0x10 0 State.reset).pending.extractLsb' 4 28 ≠ 0 ∧
    engineTurn (busyWith 0xA 0 State.reset) = true ∧
    (busyWith 0xA 0 State.reset).pending.extractLsb' 0 4 ∈ [(0xA : BitVec 4), 0xB, 0xC, 0xD, 0xE] ∧
    (busyWith 0xE 0 State.reset).pending.extractLsb' 0 4 ∈ [(0xA : BitVec 4), 0xB, 0xC, 0xD, 0xE] := by decide +kernel

theorem witness_CtrlWriteWhileIdleIsAcceptance :
    (idleWith (.write 0x004 4 6)).rst = false ∧ (idleWith (.write 0x004 4 6)).inputs = [.write 0x004 4 6] ∧
    (idleWith (.write 0x004 4 6)).status.busy = false ∧ (busyTurn 6 (.write 0x004 4 1)).rst = false ∧
    (busyTurn 6 (.write 0x004 4 1)).inputs = [.write 0x004 4 1] ∧ (busyTurn 6 (.write 0x004 4 1)).status.busy = true ∧
    (busyTurn 6 (.write 0x004 4 1)).delay ≠ 0 := by decide +kernel

theorem witness_CompletionWritesTheStatusFields :
    State.reset.status.busy = false ∧ (busyWith 9 0 State.reset).status.busy = true ∧
    (busyWith 9 0 State.reset).rst = false ∧ engineTurn (busyWith 9 0 State.reset) = true ∧
    decode (busyWith 9 0 State.reset).pending = .ok .totpVerify := ⟨rfl, rfl, rfl, rfl, rfl⟩

theorem witness_ErrorsChangeOnlyCompletionFields :
    ∃ t, exec .hotp State.reset = .next t ∧ t.status.errcode ≠ 0 := ⟨_, rfl, by decide⟩

theorem witness_ErrorPriorityIsTheTable :
    engineTurn (busyWith 0x10 0 State.reset) = true ∧ decode (busyWith 0x10 0 State.reset).pending = .error .reservedBits ∧
    64 < (65 : BitVec 7).toNat ∧ (64 : BitVec 7).toNat ≤ 64 ∧
    ¬(1 ≤ (0 : BitVec 4).toNat ∧ (0 : BitVec 4).toNat ≤ 10) ∧ ¬(1 ≤ (11 : BitVec 4).toNat ∧ (11 : BitVec 4).toNat ≤ 10) ∧
    (1 ≤ (1 : BitVec 4).toNat ∧ (1 : BitVec 4).toNat ≤ 10) ∧ (1 ≤ (10 : BitVec 4).toNat ∧ (10 : BitVec 4).toNat ≤ 10) ∧
    State.reset.status.keyvalid = false ∧ (keyed 8).status.keyvalid = true ∧ (keyed 8).period.toNat ≠ 0 ∧
    ({ keyed 8 with periodLo := 0 } : State).period.toNat = 0 := by
  refine ⟨rfl, rfl, ?_⟩; decide +kernel

theorem witness_CommandsWriteOnlyTheirRow :
    (∃ t, exec .shaInit State.reset = .next t) ∧ Reg.code ∉ writeRow .shaInit ∧ Reg.code ≠ .status ∧
    Instr.shaInit ≠ .keySetup ∧ Instr.shaInit ≠ .zeroize ∧ Instr.shaInit ≠ .totpVerify :=
  ⟨⟨_, rfl⟩, by decide⟩

theorem witness_NopCompletesWithoutEffect :
    engineTurn (busyWith 0x10 0 State.reset) = true ∧ (busyWith 0x10 0 State.reset).pending = 0x00000010 := ⟨rfl, rfl⟩

/-- The working words of the first rounds of a schedule, as far as asked. -/
def workAt (s : Digest) (m : Block) : Nat → Work
  | 0 => { a := s[0], b := s[1], c := s[2], d := s[3], e := s[4] }
  | t + 1 => roundStep t ((schedule m).getD t 0) (workAt s m t)

theorem witness_CompressRunsEightyRounds :
    workAt sha1IV Block.zero 0 = { a := sha1IV[0], b := sha1IV[1], c := sha1IV[2], d := sha1IV[3], e := sha1IV[4] } ∧
    ∀ t, t < 80 →
      (workAt sha1IV Block.zero (t + 1)).a =
        rotl 5 (workAt sha1IV Block.zero t).a +
          roundF t (workAt sha1IV Block.zero t).b (workAt sha1IV Block.zero t).c (workAt sha1IV Block.zero t).d +
          (workAt sha1IV Block.zero t).e + roundK t + (schedule Block.zero).getD t 0 ∧
      (workAt sha1IV Block.zero (t + 1)).b = (workAt sha1IV Block.zero t).a ∧
      (workAt sha1IV Block.zero (t + 1)).c = rotl 30 (workAt sha1IV Block.zero t).b ∧
      (workAt sha1IV Block.zero (t + 1)).d = (workAt sha1IV Block.zero t).c ∧
      (workAt sha1IV Block.zero (t + 1)).e = (workAt sha1IV Block.zero t).d :=
  ⟨rfl, fun _ _ => ⟨rfl, rfl, rfl, rfl, rfl⟩⟩

theorem witness_ScheduleMeetsItsRecurrence : (0 < 16 ∧ 15 < 16) ∧ (16 ≤ 16 ∧ 16 < 80) ∧ 16 ≤ 79 ∧ 79 < 80 := by decide

theorem witness_PaddingFillsTheLastBlock : ([] : List Byte).length < 2 ^ 61 ∧ rfcBytes.length < 2 ^ 61 := by decide

theorem witness_HostHashesAnyMessage : ({ State.reset with h := sha1IV } : State).h =
    #v[0x67452301, 0xEFCDAB89, 0x98BADCFE, 0x10325476, 0xC3D2E1F0] := rfl

theorem witness_KeySetupMakesTheInstance :
    (loaded 8).keylen.toNat ≤ 64 ∧ 1 ≤ (loaded 1).codelen.toNat ∧ (loaded 10).codelen.toNat ≤ 10 ∧
    (∀ k : Fin 16, (padBlock (loaded 8).key (loaded 8).keylen 0x36363636)[k] =
      be32At (zeroPadKey (loaded 8).keyBytes) (4 * k.val) ^^^ 0x36363636) ∧
    (∀ k : Fin 16, (padBlock (loaded 8).key (loaded 8).keylen 0x5C5C5C5C)[k] =
      be32At (zeroPadKey (loaded 8).keyBytes) (4 * k.val) ^^^ 0x5C5C5C5C) := by decide +kernel

theorem witness_KeyBytesBeyondKeylenAreZero :
    (20 : BitVec 7).toNat ≤ 64 ∧ (64 : BitVec 7).toNat ≤ 64 ∧ (15 < 16) ∧ 3 < 4 ∧
    (wordBytes (k0Word a5Buffer 1 0)).getD 0 0 = 0xA5 ∧ (wordBytes (k0Word a5Buffer 1 0)).getD 1 0 = 0 := by decide +kernel

theorem witness_HmacCtrHashesTheCounterBlocks :
    State.reset.status.keyvalid = false ∧ (keyed 8).status.keyvalid = true ∧
    compress (keyed 8).ipadH #v[(keyed 8).counterHi, (keyed 8).counterLo, 0x80000000, 0, 0, 0, 0, 0, 0, 0, 0, 0, 0, 0, 0,
      0x00000240] = #v[0x0891D9BE, 0x09BB16C7, 0xC8722DF3, 0x68D86350, 0x667E499E] := by decide +kernel

theorem witness_HmacCtrIsHmacSha1OfTheCounter :
    ∃ t, exec .keySetup (loaded 8) = .next t ∧ t.status.errcode = 0 ∧ SameInstance { t with key := Block.zero } t :=
  ⟨_, rfl, by decide, rfl, rfl, rfl, rfl⟩

theorem witness_CodesDependOnInstanceAndCounterAlone :
    SameInstance (keyed 8) { keyed 8 with key := Block.zero, codelen := 6 } ∧ (keyed 8).status.keyvalid = true ∧
    (keyed 8).counter = ({ keyed 8 with key := Block.zero, codelen := 6 } : State).counter ∧
    SameInstance (keyed 8) { keyed 8 with counterLo := 77 } ∧
    (keyed 8).counter ≠ ({ keyed 8 with counterLo := 77 } : State).counter ∧
    (keyed 8).time = ({ keyed 8 with counterLo := 77 } : State).time ∧
    (keyed 8).period = ({ keyed 8 with counterLo := 77 } : State).period ∧ (keyed 8).period ≠ 0 :=
  ⟨⟨rfl, rfl, rfl, rfl⟩, rfl, rfl, ⟨rfl, rfl, rfl, rfl⟩, by decide +kernel, rfl, rfl, by decide⟩

theorem witness_TruncFollowsDynamicTruncation :
    State.reset.status.keyvalid = false ∧ generated.status.keyvalid = true := ⟨rfl, rfl⟩

theorem witness_HotpIsHmacCtrThenTrunc :
    State.reset.status.keyvalid = false ∧ (keyed 6).status.keyvalid = true := ⟨rfl, rfl⟩

theorem witness_CodeRangesByLength :
    (∃ t, exec .trunc (keyed 9) = .next t ∧ t.status.errcode = 0) ∧ 1 ≤ (keyed 1).status.actlen.toNat ∧
    (keyed 9).status.actlen.toNat ≤ 9 ∧ (∃ t, exec .trunc (keyed 10) = .next t ∧ t.status.errcode = 0) ∧
    (keyed 10).status.actlen.toNat = 10 := ⟨⟨_, rfl, by decide⟩, by decide, by decide, ⟨_, rfl, by decide⟩, by decide⟩

theorem witness_RenderingIsABijection :
    7081804 < 10 ^ 8 ∧ 0 < 10 ^ 0 ∧ (∀ c ∈ ['0', '9'], '0' ≤ c ∧ c ≤ '9') :=
  ⟨by norm_num, by norm_num, by simp⟩

theorem witness_TstepDividesTimeByPeriod :
    State.reset.period.toNat ≠ 0 ∧ ({ State.reset with periodLo := 0 } : State).period.toNat = 0 := by decide +kernel

theorem witness_TotpGenIsTstepThenHotp : (keyed 8).status.keyvalid = true ∧ (keyed 8).period ≠ 0 := by decide +kernel

theorem witness_TotpVerifySearchesTheWindow : (keyed 6).status.keyvalid = true ∧ (keyed 6).period ≠ 0 ∧
    InWindow 0 2 0 ∧ InWindow 0 2 2 ∧ InWindow (2 ^ 64 - 1) 1 (2 ^ 64 - 2) := by
  refine ⟨rfl, by decide, ?_⟩; unfold InWindow; omega

/-- `generated` is what `TOTP_GEN` leaves (V-TOTP-1; `PENDING` of the builder is 0). -/
theorem generated_by_totpGen : nextOf (exec .totpGen { keyed 8 with timeLo := 59 }) = some generated := by decide +kernel

theorem witness_VerifyAcceptsTheGeneratedCode :
    nextOf (exec .totpGen { keyed 8 with timeLo := 59 }) = some generated ∧ generated.status.errcode = 0 :=
  ⟨generated_by_totpGen, rfl⟩

theorem witness_LargerWindowKeepsTheMatch :
    (nextOf (exec .totpVerify { generated with candLo := 94287082, candlen := 8 })).map (fun t => t.status.vmatch) =
      some true ∧ generated.status.vmatch = false ∧ generated.window.toNat ≤ (1 : Word).toNat := by decide +kernel

theorem witness_ShiftedTimeRejectsExactlyWhenCodesDiffer :
    nextOf (exec .totpGen { keyed 8 with timeLo := 59 }) = some generated ∧ generated.status.errcode = 0 ∧
    ({ keyed 8 with timeLo := 59 } : State).time.toNat + ({ keyed 8 with timeLo := 59 } : State).period.toNat ≤
      (pair 0 89).toNat ∧
    (pair 0 29).toNat + ({ keyed 8 with timeLo := 59 } : State).period.toNat ≤
      ({ keyed 8 with timeLo := 59 } : State).time.toNat :=
  ⟨generated_by_totpGen, rfl, by decide +kernel, by decide +kernel⟩

theorem witness_VerificationIsStringEquality :
    nextOf (exec .totpGen { keyed 8 with timeLo := 59 }) = some generated ∧ generated.status.errcode = 0 ∧
    1 ≤ generated.status.actlen.toNat ∧ generated.status.actlen.toNat ≤ 10 :=
  ⟨generated_by_totpGen, rfl, by decide, by decide⟩

theorem witness_StatusLayoutAndWriteOneToClear : State.reset.rst = false := rfl

theorem witness_IntenKeepsItsThreeBits : (busyTurn 6 (.write 0x00C 4 5)).rst = false ∧
    engineTurn (busyTurn 6 (.write 0x00C 4 5)) = false ∧ (busyTurn 6 (.write 0x00C 4 5)).status.busy = true ∧
    (busyTurn 6 (.write 0x00C 4 5)).inputs = [.write 0x00C 4 5] ∧
    engineTurn (idleWith (.write 0x00C 4 0xFFFFFFFF)) = false ∧
    (idleWith (.write 0x00C 4 0xFFFFFFFF)).inputs = [.write 0x00C 4 0xFFFFFFFF] := ⟨rfl, rfl, rfl, rfl, rfl, rfl⟩

theorem witness_InputRegisterReadsBackWhatWasWritten :
    (0x020, Reg.timeLo) ∈ mapOfSingles ∧ (0x028, Reg.periodLo) ∈ mapOfSingles ∧
    (idleWith (.write 0x13C 4 7)).rst = false ∧ (idleWith (.write 0x13C 4 7)).status.busy = false ∧
    (idleWith (.write 0x13C 4 7)).inputs = [.write (Reg.key 15).byteOffset 4 7] ∧ IsInput .candlen ∧
    IsInput (.key 15) ∧ Reg.block 0 ≠ Reg.block 1 := by
  refine ⟨by decide, by decide, rfl, rfl, rfl, ?_, ?_, by decide⟩ <;> simp [IsInput]

theorem witness_ReservedOffsetsReadZeroAndIgnoreWrites :
    (ReservedOffset 0x054 ∧ ReservedOffset 0x07C ∧ ReservedOffset 0x094 ∧ ReservedOffset 0xFFC) ∧
    (0x140 < 4096 ∧ 0x140 % 4 = 0 ∧ ∀ r ∈ Reg.all, r.byteOffset ≠ 0x140) := by
  refine ⟨by unfold ReservedOffset; omega, by decide +kernel⟩

theorem witness_WritesWhileBusyAreIgnoredAndFlagged :
    (State.reset.rst = false ∧ State.reset.status.busy = false ∧ IsReadOnly (.digest 4) ∧ IsReadOnly .id) ∧
    (busyWith 6 2 State.reset).rst = false ∧ (busyWith 6 2 State.reset).status.busy = true ∧ IsInput .timeLo ∧
    IsReadOnly .code ∧ ReservedOffset 0x200 := by
  refine ⟨⟨rfl, rfl, by simp [IsReadOnly], by simp [IsReadOnly]⟩, rfl, rfl, by simp [IsInput], by simp [IsReadOnly],
    by unfold ReservedOffset; omega⟩

theorem witness_ReadsWhileBusy :
    State.reset.status.errcode.toNat ≤ 5 ∧ (5 : BitVec 4).toNat ≤ 5 ∧
    (engineTurn (idleWith (.read 0xFFC 4)) = false ∧ (idleWith (.read 0xFFC 4)).inputs = [.read 0xFFC 4] ∧
      0xFFC % 4 = 0 ∧ 0xFFC < 4096) ∧
    (engineTurn (busyTurn 6 .wait) = false ∧ (busyTurn 6 .wait).rst = false ∧ (busyTurn 6 .wait).inputs = [.wait]) ∧
    (engineTurn (idleWith .wait) = false ∧ (idleWith .wait).rst = false ∧ (idleWith .wait).inputs = [.wait]) ∧
    (State.reset.rst = false ∧ State.reset.status.busy = false) ∧
    ((busyWith 0xA 2 State.reset).rst = false ∧ decode (busyWith 0xA 2 State.reset).pending = .error .reservedCode) ∧
    (busyWith 6 2 State.reset).rst = false ∧ (busyWith 6 2 State.reset).status.busy = true ∧
    decode (busyWith 6 2 State.reset).pending = .ok .hotp ∧ (busyWith 6 2 State.reset).status.errcode.toNat ≤ 5 ∧
    Reg.code ∈ writeRow .hotp ∧ Reg.id ∉ writeRow .hotp := by
  refine ⟨by decide, by decide, ⟨rfl, rfl, rfl, by decide⟩, ⟨rfl, rfl, rfl⟩, ⟨rfl, rfl, rfl⟩, ⟨rfl, rfl⟩, ⟨rfl, rfl⟩,
    rfl, rfl, rfl, by decide, by decide, by decide⟩

/-- R60: what reads of an idle core return, and a due write of an input register (`TIME_LO` is 0x020, `PERIOD_LO` 0x028). -/
theorem test_idle_read_and_write :
    (nextOf (step (idleWith (.read 0x028 4)))).map (fun t => (t.inputs, t.reads)) = some ([], [(0x028, 0x1E)]) ∧
    (nextOf (step (idleWith (.read 0x000 4)))).map (fun t => t.reads) = some [(0x000, 0x48534131)] ∧
    (nextOf (step (idleWith (.write 0x020 4 59)))).map (fun t => (t.inputs, t.timeLo, t.periodLo)) =
      some ([], 59, 0x1E) := by decide +kernel

theorem witness_ReadsHaveNoSideEffect :
    engineTurn (idleWith .wait) = false ∧ (idleWith .wait).inputs = [.wait] ∧ (∃ t, step (idleWith .wait) = .next t) ∧
    engineTurn (busyTurn 6 (.read 0x04C 4)) = false ∧ (busyTurn 6 (.read 0x04C 4)).inputs = [.read 0x04C 4] ∧
    ∃ t, step (busyTurn 6 (.read 0x04C 4)) = .next t := ⟨rfl, rfl, ⟨_, rfl⟩, rfl, rfl, ⟨_, rfl⟩⟩

theorem witness_MalformedTransfersAreRefused :
    engineTurn (idleWith (.read 0x012 4)) = false ∧ (idleWith (.read 0x012 4)).inputs = [.read 0x012 4] ∧
    engineTurn (idleWith (.write 0xFFC 4 1)) = false ∧ (idleWith (.write 0xFFC 4 1)).inputs = [.write 0xFFC 4 1] ∧
    (idleWith (.write 0xFFC 4 1)).status.errcode.toNat ≤ 5 ∧
    engineTurn (idleWith (.write 0x013 2 1)) = false ∧ (idleWith (.write 0x013 2 1)).inputs = [.write 0x013 2 1] ∧
    2 ≠ 4 ∧ 0x013 % 4 ≠ 0 ∧
    engineTurn (busyTurn 6 (.read 0x004 2)) = false ∧ (busyTurn 6 (.read 0x004 2)).inputs = [.read 0x004 2] ∧
    0xFFC % 4 = 0 ∧ 0xFFC < 4096 ∧ 0x012 % 4 ≠ 0 := by decide +kernel

theorem witness_WindowSitsAtBase : 0xFFF < 4096 ∧ (Config.base + 4096 ≤ Config.base + 4096) := by omega

theorem witness_LdkeyLoadsTheKey :
    rfcBytes.length ≤ 64 ∧ State.reset.rst = false ∧ State.reset.status.busy = false ∧
    (applyWrites (ldkey [0xA5, 1, 2, 3, 4]) { State.reset with key := a5Buffer }).keyBytes = [0xA5, 1, 2, 3, 4] := by
  decide +kernel

/-- The host writes v to the register r, at an idle core: the hypothesis of the flag statements. -/
theorem idleWith_hostWrites (r : Reg) (v : Word) : HostWrites (idleWith (.write r.byteOffset 4 v)) r v :=
  ⟨rfl, rfl, [], rfl⟩

theorem witness_BusyChangesOnlyByItsEvents :
    (∃ t, step (busyWith 0 0 State.reset) = .next t) ∧ engineTurn (busyWith 0 0 State.reset) = true ∧
    HostWrites (idleWith (.write 0x004 4 0)) .ctrl 0 ∧ (∃ t, step (idleWith (.write 0x004 4 0)) = .next t) ∧
    ResetDriven (busyTurn 6 (.reset true)) ∧ (∃ t, step (busyTurn 6 (.reset true)) = .next t) :=
  ⟨⟨_, rfl⟩, rfl, ⟨rfl, rfl, [], rfl⟩, ⟨_, rfl⟩, ⟨rfl, true, [], rfl, .inr rfl⟩, ⟨_, rfl⟩⟩

theorem witness_DoneChangesOnlyByItsEvents :
    (∃ t, step (busyWith 0 0 State.reset) = .next t ∧ t.status.done = true) ∧
    (busyWith 0 0 State.reset).status.done = false ∧
    (∃ t, step { generated with inputs := [.write 0x008 4 2] } = .next t ∧ t.status.done = false) ∧
    HostWrites { generated with inputs := [.write 0x008 4 2] } .status 2 ∧ (2 : Word).getLsbD 1 = true :=
  ⟨⟨_, rfl, rfl⟩, rfl, ⟨_, rfl, rfl⟩, ⟨rfl, rfl, [], rfl⟩, by decide⟩

theorem witness_ErrIsSticky :
    (∃ t, step (busyWith 0x10 0 State.reset) = .next t ∧ t.status.errcode ≠ 0 ∧ t.status.err = true) ∧
    engineTurn (busyWith 0x10 0 State.reset) = true ∧ (busyWith 0x10 0 State.reset).status.err = false ∧
    HostWrites (idleWith (.write 0x008 4 4)) .status 4 ∧ (4 : Word).getLsbD 2 = true :=
  ⟨⟨_, rfl, by decide, rfl⟩, rfl, rfl, ⟨rfl, rfl, [], rfl⟩, by decide⟩

theorem witness_VmatchIsSetOnlyByAMatchingVerify :
    (nextOf (step (busyWith 9 0 { generated with candLo := 94287082, candlen := 8 }))).map (fun t => t.status.vmatch) =
      some true ∧
    (busyWith 9 0 { generated with candLo := 94287082, candlen := 8 }).status.vmatch = false ∧
    engineTurn (busyWith 9 0 { generated with candLo := 94287082, candlen := 8 }) = true := by decide +kernel

/-- The third clause's state meets the invariant. -/
theorem witness_VmatchIsSetOnlyByAMatchingVerify_sound :
    Sound (busyWith 9 0 { generated with candLo := 94287082, candlen := 8 }) :=
  ⟨by decide +kernel, by decide +kernel, by decide +kernel, by decide +kernel, by decide +kernel, by decide +kernel⟩

theorem witness_KeyvalidChangesOnlyByItsEvents :
    Performs (busyWith 3 0 (loaded 8)) .keySetup ∧ (∃ t, step (busyWith 3 0 (loaded 8)) = .next t ∧ t.status.errcode = 0) ∧
    Performs (busyWith 3 0 State.reset) .keySetup ∧
    (∃ t, step (busyWith 3 0 State.reset) = .next t ∧ t.status.errcode ≠ 0) ∧
    Performs (busyWith 15 0 (keyed 8)) .zeroize ∧ (∃ t, step (busyWith 15 0 (keyed 8)) = .next t) :=
  ⟨⟨rfl, rfl⟩, ⟨_, rfl, by decide⟩, ⟨rfl, rfl⟩, ⟨_, rfl, by decide⟩, ⟨rfl, rfl⟩, ⟨_, rfl⟩⟩

theorem witness_BusyerrIsSetByIgnoredWrites :
    (∃ t, step (busyTurn 6 (.write 0x020 4 5)) = .next t ∧ t.status.busyerr = true) ∧
    HostWrites (busyTurn 6 (.write 0x020 4 5)) .timeLo 5 ∧ IsInput .timeLo ∧
    (busyTurn 6 (.write 0x020 4 5)).status.busy = true ∧ (busyTurn 6 (.write 0x020 4 5)).status.busyerr = false ∧
    HostWrites (busyTurn 6 (.write 0x008 4 0x20)) .status 0x20 ∧ (0x20 : Word).getLsbD 5 = true :=
  ⟨⟨_, rfl, rfl⟩, ⟨rfl, rfl, [], rfl⟩, by simp [IsInput], rfl, rfl, ⟨rfl, rfl, [], rfl⟩, by decide⟩

theorem witness_InputsAreHeldWhileBusy :
    (busyTurn 6 (.write 0x020 4 5)).status.busy = true ∧ engineTurn (busyTurn 6 (.write 0x020 4 5)) = false ∧
    ¬ ResetDriven (busyTurn 6 (.write 0x020 4 5)) ∧ ∃ t, step (busyTurn 6 (.write 0x020 4 5)) = .next t := by
  refine ⟨rfl, rfl, ?_, ⟨_, rfl⟩⟩
  rintro ⟨_, level, rest, h, _⟩
  cases h

/-- The idle clauses of the same statement: results that are not 0, and a write due to one of them. -/
theorem witness_InputsAreHeldWhileBusy_idle :
    let s : State := { generated with inputs := [.write 0x04C 4 5] }
    (s.status.busy = false ∧ s.code ≠ 0 ∧ ¬ ResetDriven s ∧ ∃ t, step s = .next t) ∧
    (engineTurn State.reset = false ∧ State.reset.inputs = []) ∧
    (engineTurn s = false ∧ 0x04C % 4 = 0 ∧ 0x04C < 4096 ∧ s.inputs = [.write 0x04C 4 5]) := by
  refine ⟨⟨rfl, by decide, ?_, ⟨_, rfl⟩⟩, ⟨rfl, rfl⟩, rfl, by decide, by decide, rfl⟩
  rintro ⟨_, level, rest, h, _⟩
  cases h

/-- R45, R53: a due idle write to a read-only register, here `CODE`, is consumed and changes no result. -/
theorem test_idle_write_to_result :
    (nextOf (step { generated with inputs := [.write 0x04C 4 5] })).map (fun t => (t.inputs, t.code, t.status.busyerr)) =
      some ([], 94287082, false) := by decide +kernel

theorem witness_ResetAbandonsTheCommand :
    (resetCore true State.reset).rst = true ∧ engineTurn (busyTurn 6 (.reset true)) = false ∧
    (busyTurn 6 (.reset true)).inputs = [.reset true] := ⟨rfl, rfl, rfl⟩

theorem witness_InvariantIsKeptByEveryStep :
    Sound (busyTurn 6 (.write 0x020 4 5)) ∧ ∃ t, step (busyTurn 6 (.write 0x020 4 5)) = .next t :=
  ⟨⟨by decide +kernel, by decide +kernel, by decide +kernel, by decide +kernel, by decide +kernel, by decide +kernel⟩,
    ⟨_, rfl⟩⟩

theorem witness_SoundStatesNeverStop :
    Sound (busyTurn 6 (.write 0x020 4 5)) ∧
    ∀ x ∈ (busyTurn 6 (.write 0x020 4 5)).inputs, HostInput x ∨ ∃ level, x = .reset level := by
  refine ⟨witness_InvariantIsKeptByEveryStep.1, fun x hx => .inl ?_⟩
  obtain rfl : x = .write 0x020 4 5 := by simpa [busyTurn] using hx
  exact (by decide : Transfer.wellFormed 0x020 4 = true)

theorem witness_AcceptedCommandCompletes :
    Sound (busyTurn 6 (.write 0x020 4 5)) ∧ (busyTurn 6 (.write 0x020 4 5)).status.busy = true ∧
    ∀ x ∈ (busyTurn 6 (.write 0x020 4 5)).inputs, HostInput x := by
  refine ⟨witness_InvariantIsKeptByEveryStep.1, rfl, fun x hx => ?_⟩
  obtain rfl : x = .write 0x020 4 5 := by simpa [busyTurn] using hx
  exact (by decide : Transfer.wellFormed 0x020 4 = true)

end Sys2Proof.Tests
end

section
/-! PROOF. The flag registers (10_state.md R24 to R30, R34, R35): their words, what a host turn does to `STATUS`,
said once as `HostEvent`, and what sets and clears each flag over every step. -/

namespace Sys2Proof.Machine

open Sys2Proof.Safety Sys2Proof.Statements

/-! ### The words of `STATUS` and `INTEN` -/

/-- R24: the one-bit fields of `STATUS`, bits 5:0. -/
theorem Status.word_flags (f : Status) :
    f.word.getLsbD 0 = f.busy ∧ f.word.getLsbD 1 = f.done ∧ f.word.getLsbD 2 = f.err ∧
    f.word.getLsbD 3 = f.vmatch ∧ f.word.getLsbD 4 = f.keyvalid ∧ f.word.getLsbD 5 = f.busyerr := by
  unfold Status.word
  refine ⟨?_, ?_, ?_, ?_, ?_, ?_⟩ <;> repeat rw [BitVec.getLsbD_append]
  all_goals simp

/-- R24: the wider fields of `STATUS` and its reserved bits. -/
theorem Status.word_fields (f : Status) :
    f.word.extractLsb' 6 2 = 0 ∧ f.word.extractLsb' 8 4 = f.errcode ∧ f.word.extractLsb' 12 4 = f.lastcmd ∧
    f.word.extractLsb' 16 4 = f.actlen ∧ f.word.extractLsb' 20 12 = 0 := by
  unfold Status.word
  refine ⟨?_, ?_, ?_, ?_, ?_⟩ <;> repeat rw [BitVec.extractLsb'_append_eq_of_le (by decide)]
  case refine_5 => exact BitVec.extractLsb'_eq_self
  all_goals exact BitVec.extractLsb'_append_eq_right

/-- R34: every bit of `INTEN`; bits 31:3 read 0. -/
theorem Inten.word_getLsbD (n : Inten) (i : Nat) :
    n.word.getLsbD i = if i = 0 then n.doneIe else if i = 1 then n.errIe else if i = 2 then n.busyerrIe else false := by
  unfold Inten.word
  repeat rw [BitVec.getLsbD_append]
  rcases i with _ | _ | _ | i <;> simp

/-- R34: a write keeps bits 2:0 of its word. -/
theorem Inten.word_ofWord (v : Word) : (Inten.ofWord v).word = v &&& 0x00000007 := by
  refine BitVec.eq_of_getLsbD_eq fun i hi => ?_
  have mask : BitVec.getLsbD (7 : Word) i = decide (i < 3) := by
    rw [show (7 : Word) = (BitVec.allOnes 3).setWidth 32 from rfl, BitVec.getLsbD_setWidth, BitVec.getLsbD_allOnes]
    simp [hi]
  rw [BitVec.getLsbD_and, Inten.word_getLsbD, mask]
  rcases i with _ | _ | _ | i <;> simp [Inten.ofWord]

/-! ### What the events of the core do to the flags -/

section Flags

variable (f : Status) (v : Word)

@[simp] theorem Status.accepted_busy : f.accepted.busy = true := rfl
@[simp] theorem Status.accepted_done : f.accepted.done = false := rfl
@[simp] theorem Status.accepted_err : f.accepted.err = f.err := rfl
@[simp] theorem Status.accepted_vmatch : f.accepted.vmatch = false := rfl
@[simp] theorem Status.accepted_busyerr : f.accepted.busyerr = f.busyerr := rfl

@[simp] theorem Status.writeOneToClear_busy : (f.writeOneToClear v).busy = f.busy := rfl
@[simp] theorem Status.writeOneToClear_done : (f.writeOneToClear v).done = (f.done && !v.getLsbD 1) := rfl
@[simp] theorem Status.writeOneToClear_err : (f.writeOneToClear v).err = (f.err && !v.getLsbD 2) := rfl
@[simp] theorem Status.writeOneToClear_vmatch : (f.writeOneToClear v).vmatch = f.vmatch := rfl
@[simp] theorem Status.writeOneToClear_busyerr : (f.writeOneToClear v).busyerr = (f.busyerr && !v.getLsbD 5) := rfl

@[simp] theorem Status.ignoredWrite_busy : f.ignoredWrite.busy = f.busy := rfl
@[simp] theorem Status.ignoredWrite_done : f.ignoredWrite.done = f.done := rfl
@[simp] theorem Status.ignoredWrite_err : f.ignoredWrite.err = f.err := rfl
@[simp] theorem Status.ignoredWrite_vmatch : f.ignoredWrite.vmatch = f.vmatch := rfl
@[simp] theorem Status.ignoredWrite_busyerr : f.ignoredWrite.busyerr = true := rfl

end Flags

/-- R200: every field of `STATUS` is 0 at reset. -/
@[simp] theorem reset_status : State.reset.status = ⟨false, false, false, false, false, false, 0, 0, 0⟩ := rfl

/-- Storing an input register leaves the flags alone. -/
@[simp] theorem storeInput_status (s : State) (v : Word) (r : Reg) : (storeInput s v r).status = s.status := by
  cases r <;> rfl

/-! ### A register write that is due -/

/-- R53: the command-gated registers are `CTRL` and the input registers. -/
theorem Reg.access_eq_gated {r : Reg} : r.access = .gated ↔ r = .ctrl ∨ IsInput r := by
  cases r <;> simp [Reg.access, IsInput]

/-- R210: while busy a write to a command-gated register is ignored and flagged. -/
theorem writeReg_gated_busy {s : State} {r : Reg} (v : Word) (ha : r.access = .gated) (hb : s.status.busy = true) :
    writeReg v s r = flagIgnored s := by
  simp [writeReg, ha, hb]

/-- R170: while idle a write to `CTRL` is acceptance. -/
theorem writeReg_ctrl_idle {s : State} (v : Word) (hb : s.status.busy = false) :
    writeReg v s .ctrl = accept v s := by
  simp [writeReg, Reg.access, hb]

/-- The host's turn performs the register write that is due. -/
theorem step_dueWrite {s : State} {r : Reg} {v : Word} {rest : List Input} (ht : engineTurn s = false)
    (hr : s.rst = false) (hi : s.inputs = .write r.byteOffset 4 v :: rest) :
    step s = .next (writeReg v (passTurn rest s) r) := by
  obtain ⟨aligned, inWindow⟩ := r.byteOffset_ok
  rw [step_host ht, hostTurn_write hi aligned inWindow, busWrite_byteOffset r v (passTurn rest s) hr]

section

variable {s t : State} {r : Reg} {v : Word} (h : step s = .next t)
include h

/-- A step at which the host writes a register is that write. -/
theorem next_of_hostWrites (hw : HostWrites s r v) : ∃ rest, t = writeReg v (passTurn rest s) r := by
  obtain ⟨ht, hr, rest, hi⟩ := hw
  rw [step_dueWrite ht hr hi] at h
  injection h with h
  exact ⟨rest, h.symm⟩

/-- R24: the W1C write. -/
theorem status_of_statusWrite (hw : HostWrites s .status v) : t.status = s.status.writeOneToClear v := by
  obtain ⟨rest, rfl⟩ := next_of_hostWrites h hw
  rfl

/-- R170: acceptance. -/
theorem status_of_ctrlWrite_idle (hw : HostWrites s .ctrl v) (hb : s.status.busy = false) :
    t.status = s.status.accepted := by
  obtain ⟨rest, rfl⟩ := next_of_hostWrites h hw
  rw [writeReg_ctrl_idle (s := passTurn rest s) v hb, accept_status, passTurn_status]

/-- R210: the ignored write. -/
theorem status_of_gatedWrite_busy (hw : HostWrites s r v) (ha : r.access = .gated) (hb : s.status.busy = true) :
    t.status = s.status.ignoredWrite := by
  obtain ⟨rest, rfl⟩ := next_of_hostWrites h hw
  rw [writeReg_gated_busy (s := passTurn rest s) v ha hb, flagIgnored_status, passTurn_status]

/-- R201: the step of reset. -/
theorem status_of_resetDriven (hd : ResetDriven s) : t.status = State.reset.status := by
  obtain ⟨ht, level, rest, hi, hl⟩ := hd
  rw [step_host ht] at h
  simp only [hostTurn, hi, Host.Outcome.next.injEq] at h
  subst h
  rw [driveReset, if_pos (by simpa using hl), resetCore_status]

/-- R172: the engine's turn completes with some code, over flags whose `ERR` and `BUSYERR` no command has touched. -/
theorem status_of_engineTurn (ht : engineTurn s = true) :
    ∃ (f : Status) (e : Err), f.err = s.status.err ∧ f.busyerr = s.status.busyerr ∧
      t.status = f.completed s.pending e := by
  rcases step_inv h with ⟨-, e, -, rfl⟩ | ⟨-, i, u, -, hu, rfl⟩ | ⟨hf, -⟩
  · exact ⟨s.status, e, rfl, rfl, rfl⟩
  · obtain ⟨hp, -, -, -, -, -, -, herr, hbusyerr⟩ := hu.keeps
    exact ⟨u.status, .ok, herr, hbusyerr, by rw [complete_status, hp]⟩
  · rw [ht] at hf; cases hf

end

/-! ### What a host turn does to `STATUS` -/

/-- What the flags can be after a host turn at s, and by which event. -/
inductive HostEvent (s : State) : Status → Prop
  | quiet : HostEvent s s.status
  | acknowledged {v : Word} : HostWrites s .status v → HostEvent s (s.status.writeOneToClear v)
  | ignored {r : Reg} {v : Word} : r.access = .gated → s.status.busy = true → HostWrites s r v →
      HostEvent s s.status.ignoredWrite
  | accepted {v : Word} : s.status.busy = false → HostWrites s .ctrl v → HostEvent s s.status.accepted
  | reset : ResetDriven s → HostEvent s State.reset.status

/-- A host turn's effect on the flags is one of the events. -/
theorem hostTurn_event {s t : State} (ht : engineTurn s = false) (h : hostTurn s = .next t) : HostEvent s t.status := by
  rcases hostTurn_inv h with ⟨-, rfl⟩ | ⟨off, v, rest, hi, -, -, rfl⟩ | ⟨off, rest, -, -, -, hread⟩ |
    ⟨rest, left, -, -, hread⟩ | ⟨level, rest, hi, rfl⟩
  · exact .quiet
  · rcases busWrite_cases off v (passTurn rest s) with hw | ⟨hr, rfl, hw⟩ | ⟨-, -, hw⟩ | ⟨hr, r, ha, rfl, hb, hw⟩ |
      ⟨hr, rfl, hb, hw⟩ | ⟨-, r, -, -, -, -, hw⟩ <;> rw [hw]
    · exact .quiet
    · exact .acknowledged ⟨ht, hr, rest, hi⟩
    · exact .quiet
    · exact .ignored ha hb ⟨ht, hr, rest, hi⟩
    · rw [accept_status]; exact .accepted hb ⟨ht, hr, rest, hi⟩
    · rw [storeInput_status]; exact .quiet
  · obtain ⟨n, rfl⟩ := busRead_inv hread; exact .quiet
  · obtain ⟨n, rfl⟩ := busRead_inv hread; exact .quiet
  · unfold driveReset
    split
    next hl => exact .reset ⟨ht, level, rest, hi, by simpa using hl⟩
    next => exact .quiet

/-- Every step is the engine's or a host event. -/
theorem step_engine_or_event {s t : State} (h : step s = .next t) :
    engineTurn s = true ∨ HostEvent s t.status := by
  cases ht : engineTurn s with
  | true => exact .inl rfl
  | false => rw [step_host ht] at h; exact .inr (hostTurn_event ht h)

/-! ### What a verification finds -/

/-- R154: the lower bound, clipped at 0. -/
theorem windowLo_toNat (c w : DWord) : (windowLo c w).toNat = c.toNat - w.toNat := by
  unfold windowLo
  split
  next h => exact BitVec.toNat_sub_of_le h
  next h => change 0 = _; omega

/-- R154: the upper bound, clipped at 2^64-1. -/
theorem windowHi_toNat (c w : DWord) : (windowHi c w).toNat = min (c.toNat + w.toNat) (2 ^ 64 - 1) := by
  have := w.isLt
  unfold windowHi
  split
  next h => rw [BitVec.toNat_add, Nat.mod_eq_of_lt (by omega)]; omega
  next h => rw [BitVec.toNat_allOnes]; omega

/-- R155: the model's match predicate is the statement's. -/
theorem codeMatches_iff {s : State} {i : DWord} : codeMatches s i = true ↔ Matches s i.toNat := by
  unfold codeMatches Matches
  rw [BitVec.ofNat_toNat, BitVec.setWidth_eq, Bool.and_eq_true, beq_iff_eq, beq_iff_eq, ← BitVec.toNat_inj,
    BitVec.toNat_setWidth_of_le (by decide)]

/-- R156: the loop stops at a counter of the window and says whether it matches; no earlier counter of the window matches,
and without a match it has reached the window's upper bound. -/
theorem verifyResult_spec (s : State) (c : DWord) :
    (verifyResult s c).2 = codeMatches s (verifyResult s c).1 ∧
    InWindow c.toNat s.window.toNat (verifyResult s c).1.toNat ∧
    (∀ j : DWord, InWindow c.toNat s.window.toNat j.toNat → j.toNat < (verifyResult s c).1.toNat →
      codeMatches s j = false) ∧
    ((verifyResult s c).2 = false →
      (verifyResult s c).1.toNat = min (c.toNat + s.window.toNat) (2 ^ 64 - 1)) := by
  have hw : (s.window.setWidth 64).toNat = s.window.toNat := BitVec.toNat_setWidth_of_le (by decide)
  have hlo := windowLo_toNat c (s.window.setWidth 64)
  have hhi := windowHi_toNat c (s.window.setWidth 64)
  have hc := c.isLt
  unfold verifyResult InWindow
  obtain ⟨hmatch, hge, hle, hbefore, hlast⟩ := searchWindow_spec (codeMatches s)
    ((windowHi c (s.window.setWidth 64)).toNat - (windowLo c (s.window.setWidth 64)).toNat)
    (windowLo c (s.window.setWidth 64)) (by omega)
  exact ⟨hmatch, by dsimp only; omega, fun j hj hlt => hbefore j (by omega) hlt,
    fun hno => (hlast hno).trans (by omega)⟩

/-- R28: no command but `TOTP_VERIFY` writes `VMATCH`. -/
theorem Effect.vmatch {i : Instr} {s u : State} (h : Effect i s u) (hi : i ≠ .totpVerify) :
    u.status.vmatch = s.status.vmatch := by
  cases i <;> simp only [Effect] at h
  case totpVerify => exact absurd rfl hi
  case nop => subst h; rfl
  case shaInit => subst h; rfl
  case shaBlock => subst h; rfl
  case zeroize => subst h; rfl
  case keySetup => obtain ⟨_, _, _, rfl⟩ := h; rfl
  case hmacCtr => obtain ⟨_, rfl⟩ := h; rfl
  case trunc => obtain ⟨_, rfl⟩ := h; simp
  case hotp => obtain ⟨_, rfl⟩ := h; simp
  case tstep => obtain ⟨_, rfl⟩ := h; rfl
  case totpGen => obtain ⟨_, _, rfl⟩ := h; simp

/-- R28: `VMATCH` rises over a step only by a successful `TOTP_VERIFY` with a matching counter in its window. -/
theorem vmatch_rises {s t : State} (h : step s = .next t) (h1 : t.status.vmatch = true) (h0 : s.status.vmatch = false) :
    Performs s .totpVerify ∧ t.status.errcode = 0 ∧
      ∃ i, InWindow (s.time.toNat / s.period.toNat) s.window.toNat i ∧ Matches s i := by
  rcases step_inv h with ⟨-, e, -, rfl⟩ | ⟨ht, i, u, hd, hu, rfl⟩ | ⟨ht, hh⟩
  · simp [h0] at h1
  · by_cases hi : i = .totpVerify
    · subst hi
      obtain ⟨-, -, rfl⟩ := hu
      obtain ⟨hmatch, inWindow, -, -⟩ := verifyResult_spec s (timeStep s.time s.period)
      rw [timeStep_toNat] at inWindow
      exact ⟨⟨ht, hd⟩, rfl, _, inWindow, codeMatches_iff.mp (hmatch.symm.trans h1)⟩
    · simp [hu.vmatch hi, h0] at h1
  · have ev := hostTurn_event ht hh
    generalize t.status = f at ev h1
    cases ev <;> simp [h0] at h1

/-! ### The obligations -/

/-- Settles O36, from the layout of the word and the W1C write. -/
theorem statusLayoutAndWriteOneToClear : Obligations.StatusLayoutAndWriteOneToClear := by
  refine ⟨fun s => ?_, rfl, rfl, fun s v hr => busWrite_byteOffset .status v s hr⟩
  obtain ⟨b0, b1, b2, b3, b4, b5⟩ := s.status.word_flags
  exact ⟨b0, b1, b2, b3, b4, b5, s.status.word_fields⟩

/-- Settles O38: the stored enables are those of the word, and a due write is performed. -/
theorem intenKeepsItsThreeBits : Obligations.IntenKeepsItsThreeBits := by
  refine ⟨rfl, fun s v hr => ⟨Inten.ofWord v, busWrite_byteOffset .inten v s hr, ?_, rfl, rfl, rfl, ?_⟩⟩
  · exact (congrArg (readReg · .inten) (busWrite_byteOffset .inten v s hr)).trans (Inten.word_ofWord v)
  · intro rest ht hi
    exact ⟨s.delay - 1, step_dueWrite (r := .inten) ht hr hi⟩

/-- Settles O48: completion clears `BUSY`, and of the host events only acceptance sets it and only reset clears it. -/
theorem busyChangesOnlyByItsEvents : Obligations.BusyChangesOnlyByItsEvents := by
  intro s t h
  have engine : engineTurn s = true → t.status.busy = false := fun ht => by
    obtain ⟨f, e, -, -, hf⟩ := status_of_engineTurn h ht
    rw [hf, Status.completed_busy]
  refine ⟨engine, fun v hw hb => ?_, fun hd => ?_, fun h1 h0 => ?_, fun h0 h1 => ?_⟩
  · rw [status_of_ctrlWrite_idle h hw hb, Status.accepted_busy]
  · rw [status_of_resetDriven h hd, reset_status]
  · rcases step_engine_or_event h with ht | ev
    · simp [engine ht] at h1
    · generalize t.status = f at ev h1
      cases ev with
      | accepted _ hw => exact ⟨_, hw⟩
      | _ => simp [h0] at h1
  · rcases step_engine_or_event h with ht | ev
    · exact .inl ht
    · generalize t.status = f at ev h0
      cases ev with
      | reset hd => exact .inr hd
      | _ => simp [h1] at h0

/-- Settles O49: completion sets `DONE`, no host event does, and three of them clear it. -/
theorem doneChangesOnlyByItsEvents : Obligations.DoneChangesOnlyByItsEvents := by
  intro s t h
  have engine : engineTurn s = true → t.status.done = true := fun ht => by
    obtain ⟨f, e, -, -, hf⟩ := status_of_engineTurn h ht
    rw [hf, Status.completed_done]
  refine ⟨engine, fun v hw hb => ?_, fun v hw hv => ?_, fun h1 h0 => ?_, fun h0 h1 => ?_⟩
  · rw [status_of_ctrlWrite_idle h hw hb, Status.accepted_done]
  · simp [status_of_statusWrite h hw, hv]
  · rcases step_engine_or_event h with ht | ev
    · exact ht
    · generalize t.status = f at ev h1
      cases ev <;> simp [h0] at h1
  · rcases step_engine_or_event h with ht | ev
    · simp [engine ht] at h0
    · generalize t.status = f at ev h0
      cases ev with
      | reset hd => exact .inl hd
      | accepted hb hw => exact .inr (.inl ⟨_, hw, hb⟩)
      | acknowledged hw => exact .inr (.inr ⟨_, hw, by simpa [h1] using h0⟩)
      | _ => simp [h1] at h0

/-- Settles O50: completion adds the error to `ERR`, no host event sets it, and W1C and reset clear it. -/
theorem errIsSticky : Obligations.ErrIsSticky := by
  intro s t h
  have engine : engineTurn s = true →
      t.status.err = (s.status.err || decide (t.status.errcode ≠ 0)) := fun ht => by
    obtain ⟨f, e, herr, -, hf⟩ := status_of_engineTurn h ht
    simp only [hf, Status.completed_err, Status.completed_errcode, herr, ne_eq, Err.code_eq_zero]
  refine ⟨fun ht he => ?_, fun h1 h0 => ?_, fun h0 h1 => ?_, fun hd => ?_, fun v hw hv => ?_⟩
  · rw [engine ht, decide_eq_true he, Bool.or_true]
  · rcases step_engine_or_event h with ht | ev
    · exact ⟨ht, by simpa [engine ht, h0] using h1⟩
    · generalize t.status = f at ev h1
      cases ev <;> simp [h0] at h1
  · rcases step_engine_or_event h with ht | ev
    · simp [engine ht, h1] at h0
    · generalize t.status = f at ev h0
      cases ev with
      | reset hd => exact .inl hd
      | acknowledged hw => exact .inr ⟨_, hw, by simpa [h1] using h0⟩
      | _ => simp [h1] at h0
  · rw [status_of_resetDriven h hd, reset_status]
  · simp [status_of_statusWrite h hw, hv]

/-- Settles O51; the last clause is the second one, since `VMATCH` is 0 in a sound busy state. -/
theorem vmatchIsSetOnlyByAMatchingVerify : Obligations.VmatchIsSetOnlyByAMatchingVerify := by
  intro s t h
  refine ⟨fun v hw hb => ?_, vmatch_rises h, fun hs ht h1 => ?_⟩
  · rw [status_of_ctrlWrite_idle h hw hb, Status.accepted_vmatch]
  · obtain ⟨hbusy, -, -⟩ := engineTurn_iff.mp ht
    obtain ⟨-, h0⟩ := hs.busy hbusy
    obtain ⟨performs, ok, -⟩ := vmatch_rises h h1 h0
    exact ⟨performs, ok⟩

/-- Settles O53: completion keeps `BUSYERR`, an ignored write alone sets it, and W1C and reset clear it. -/
theorem busyerrIsSetByIgnoredWrites : Obligations.BusyerrIsSetByIgnoredWrites := by
  intro s t h
  have engine : engineTurn s = true → t.status.busyerr = s.status.busyerr := fun ht => by
    obtain ⟨f, e, -, hbusyerr, hf⟩ := status_of_engineTurn h ht
    rw [hf, Status.completed_busyerr, hbusyerr]
  refine ⟨fun r v hw hr hb => ?_, fun h1 h0 => ?_, fun h0 h1 => ?_, fun hd => ?_, fun v hw hv => ?_⟩
  · rw [status_of_gatedWrite_busy h hw (Reg.access_eq_gated.mpr hr) hb, Status.ignoredWrite_busyerr]
  · rcases step_engine_or_event h with ht | ev
    · simp [engine ht, h0] at h1
    · generalize t.status = f at ev h1
      cases ev with
      | ignored ha hb hw => exact ⟨hb, _, _, Reg.access_eq_gated.mp ha, hw⟩
      | _ => simp [h0] at h1
  · rcases step_engine_or_event h with ht | ev
    · simp [engine ht, h1] at h0
    · generalize t.status = f at ev h0
      cases ev with
      | reset hd => exact .inl hd
      | acknowledged hw => exact .inr ⟨_, hw, by simpa [h1] using h0⟩
      | _ => simp [h1] at h0
  · rw [status_of_resetDriven h hd, reset_status]
  · simp [status_of_statusWrite h hw, hv]

/-- Settles O37: each flag and each enable is read from its bit. -/
theorem irqIsTheEnabledFlags : Obligations.IrqIsTheEnabledFlags := by
  intro s
  obtain ⟨-, hdone, herr, -, -, hbusyerr⟩ := s.status.word_flags
  simp only [readReg, hdone, herr, hbusyerr, Inten.word_getLsbD, irq]
  rfl

end Sys2Proof.Machine
end

section
/-! PROOF. The decoder case by case (30_encoding.md R84, R85). -/

namespace Sys2Proof

/-- R84: a word with a reserved bit set selects no command. -/
theorem decode_of_rsvField_ne_zero {v : Word} (hrsv : rsvField v ≠ 0) : decode v = .error .reservedBits :=
  if_neg hrsv

/-- R85: with `RSV = 0` the decoder answers the command the opcode map assigns to `CMD`. -/
theorem decode_of_commandOf_eq_some {v : Word} {i : Instr} (hrsv : rsvField v = 0)
    (hcmd : commandOf (cmdField v) = some i) : decode v = .ok i := by
  rw [decode, if_pos hrsv, hcmd]

/-- R84: with `RSV = 0` an unassigned `CMD` selects no command. -/
theorem decode_of_commandOf_eq_none {v : Word} (hrsv : rsvField v = 0)
    (hcmd : commandOf (cmdField v) = none) : decode v = .error .reservedCode := by
  rw [decode, if_pos hrsv, hcmd]

/-- R81: the opcode map assigns no command to exactly 0xA to 0xE. -/
theorem commandOf_eq_none_iff : ∀ c : BitVec 4, commandOf c = none ↔ c ∈ [0xA, 0xB, 0xC, 0xD, 0xE] := by
  decide

/-- Settles O1: `RSV` decides first, and then the opcode map at `CMD`, which is evaluated at each code. -/
theorem decoderFollowsTheOpcodeMap : Obligations.DecoderFollowsTheOpcodeMap := by
  intro v
  refine ⟨fun hrsv => ⟨_, decode_of_rsvField_ne_zero hrsv⟩, fun hrsv => ?_⟩
  have assigned {c : BitVec 4} {i : Instr} (hmap : commandOf c = some i) (hc : cmdField v = c) : decode v = .ok i :=
    decode_of_commandOf_eq_some hrsv (hc ▸ hmap)
  exact ⟨assigned rfl, assigned rfl, assigned rfl, assigned rfl, assigned rfl, assigned rfl, assigned rfl,
    assigned rfl, assigned rfl, assigned rfl, assigned rfl,
    fun hc => ⟨_, decode_of_commandOf_eq_none hrsv ((commandOf_eq_none_iff _).mpr hc)⟩⟩

end Sys2Proof
end

section
/-! PROOF. SHA-1 (40_sha1.md R103 to R109): the schedule's recurrence, the rounds as a sequence of working words, the padding,
and the two raw hash commands. -/

namespace Sys2Proof.Machine

open Sys2Proof.Statements

/-! ### The message schedule -/

/-- R103: the word the recurrence gives at t, from the words ws in order. -/
def recurrenceWord (ws : List Word) (t : Nat) : Word :=
  rotl 1 (ws.getD (t - 3) 0 ^^^ ws.getD (t - 8) 0 ^^^ ws.getD (t - 14) 0 ^^^ ws.getD (t - 16) 0)

/-- R103: every word of ws, in order, after the first sixteen is the recurrence's. -/
def MeetsRecurrence (ws : List Word) : Prop :=
  ∀ t, 16 ≤ t → t < ws.length → ws.getD t 0 = recurrenceWord ws t

/-- The recurrence looks back only. -/
theorem recurrenceWord_append {ws : List Word} (ys : List Word) {t : Nat} (h16 : 16 ≤ t) (ht : t ≤ ws.length) :
    recurrenceWord (ws ++ ys) t = recurrenceWord ws t := by
  have earlier {k : Nat} (hk : 0 < k) : (ws ++ ys).getD (t - k) 0 = ws.getD (t - k) 0 :=
    List.getD_append _ _ _ _ (by omega)
  simp only [recurrenceWord, earlier, Nat.zero_lt_succ]

/-- The word `extendSchedule` puts before the words ws, newest first, is the recurrence's next one. -/
theorem recurrenceWord_reverse {ws : List Word} (h16 : 16 ≤ ws.length) :
    recurrenceWord ws.reverse ws.length =
      rotl 1 (ws.getD 2 0 ^^^ ws.getD 7 0 ^^^ ws.getD 13 0 ^^^ ws.getD 15 0) := by
  have back {k : Nat} (hk : k < 16) : ws.reverse.getD (ws.length - (k + 1)) 0 = ws.getD k 0 := by
    rw [List.getD_reverse _ (by omega)]
    congr 1
    omega
  rw [recurrenceWord, back (k := 2) (by decide), back (k := 7) (by decide), back (k := 13) (by decide),
    back (k := 15) (by decide)]

/-- One more word by the recurrence keeps it. -/
theorem MeetsRecurrence.snoc {ws : List Word} (h : MeetsRecurrence ws) :
    MeetsRecurrence (ws ++ [recurrenceWord ws ws.length]) := by
  intro t h16 ht
  rw [List.length_append, List.length_singleton] at ht
  rw [recurrenceWord_append _ h16 (by omega)]
  rcases Nat.lt_or_eq_of_le (Nat.le_of_lt_succ ht) with hlt | rfl
  · rw [List.getD_append _ _ _ _ hlt]
    exact h t h16 hlt
  · rw [List.getD_append_right _ _ _ _ le_rfl, Nat.sub_self, List.getD_cons_zero]

/-- Continuing a schedule keeps the recurrence. -/
theorem extendSchedule_meetsRecurrence (n : Nat) {ws : List Word} (h16 : 16 ≤ ws.length)
    (h : MeetsRecurrence ws.reverse) : MeetsRecurrence (extendSchedule n ws).reverse := by
  induction n generalizing ws with
  | zero => exact h
  | succ n ih =>
    rw [extendSchedule, ← recurrenceWord_reverse h16]
    refine ih (by rw [List.length_cons]; omega) ?_
    have grown := h.snoc
    rwa [List.length_reverse, ← List.reverse_cons] at grown

theorem schedule_length (m : Block) : (schedule m).length = 80 := by
  rw [schedule, List.length_reverse, extendSchedule_length, List.length_reverse, Vector.length_toList]

/-- The schedule begins with the block. -/
theorem schedule_prefix (m : Block) : ∃ xs, schedule m = m.toList ++ xs := by
  obtain ⟨xs, hxs⟩ := extendSchedule_suffix 64 m.toList.reverse
  exact ⟨xs.reverse, by rw [schedule, hxs, List.reverse_append, List.reverse_reverse]⟩

theorem schedule_meetsRecurrence (m : Block) : MeetsRecurrence (schedule m) := by
  refine extendSchedule_meetsRecurrence 64 (by simp) fun t h16 ht => ?_
  rw [List.reverse_reverse, Vector.length_toList] at ht
  omega

/-- Settles O14: the schedule extends the block, and each extension is the recurrence's next word. -/
theorem scheduleMeetsItsRecurrence : Obligations.ScheduleMeetsItsRecurrence := by
  refine fun m => ⟨schedule_length m, fun t ht => ?_, fun t h16 ht => ?_⟩
  · obtain ⟨xs, hxs⟩ := schedule_prefix m
    have inBlock : t < m.toList.length := by rwa [Vector.length_toList]
    rw [hxs, List.getD_append _ _ _ _ inBlock, List.getD_eq_getElem _ _ inBlock, Vector.getElem_toList]
  · exact schedule_meetsRecurrence m t h16 (by rwa [schedule_length])

/-! ### The rounds -/

/-- The five equations of the round step say the whole of it (R104). -/
theorem eq_roundStep_iff {t : Nat} {w : Word} {s u : Work} :
    u = roundStep t w s ↔
      u.a = rotl 5 s.a + roundF t s.b s.c s.d + s.e + roundK t + w ∧
      u.b = s.a ∧ u.c = rotl 30 s.b ∧ u.d = s.c ∧ u.e = s.d := by
  cases u
  simp only [roundStep, Work.mk.injEq]

/-- A sequence that follows the round step over the words ws from round t on holds at its end what the rounds compute. -/
theorem rounds_eq_of_follows {w : Nat → Work} {ws : List Word} {t : Nat}
    (h : ∀ i, i < ws.length → w (t + i + 1) = roundStep (t + i) (ws.getD i 0) (w (t + i))) :
    rounds t ws (w t) = w (t + ws.length) := by
  induction ws generalizing t with
  | nil => rfl
  | cons x xs ih =>
    have first : w (t + 1) = roundStep t x (w t) := h 0 (Nat.zero_lt_succ _)
    have later : ∀ i, i < xs.length → w (t + 1 + i + 1) = roundStep (t + 1 + i) (xs.getD i 0) (w (t + 1 + i)) := by
      intro i hi
      have := h (i + 1) (Nat.succ_lt_succ hi)
      rwa [List.getD_cons_succ, Nat.add_comm i, ← Nat.add_assoc] at this
    rw [rounds, ← first, ih later, List.length_cons, Nat.add_comm xs.length, Nat.add_assoc]

/-- Settles O15: the rounds over the 80 words of the schedule end at the sequence's element 80. -/
theorem compressRunsEightyRounds : Obligations.CompressRunsEightyRounds := by
  intro s m w start follows
  have last : rounds 0 (schedule m) (w 0) = w 80 := by
    rw [rounds_eq_of_follows, schedule_length]
    intro i hi
    rw [schedule_length] at hi
    rw [Nat.zero_add]
    exact eq_roundStep_iff.mpr (follows i hi)
  rw [compress, ← start, last]

/-! ### The padding -/

/-- R107: `padZeros` fills the last block. -/
theorem padZeros_fills (len : Nat) : (len + 1 + padZeros len + 8) % 64 = 0 := by
  unfold padZeros
  omega

/-- R107: no smaller count of zero bytes fills it. -/
theorem padZeros_least {len y : Nat} (hy : y < padZeros len) : (len + 1 + y + 8) % 64 ≠ 0 := by
  unfold padZeros at hy
  omega

@[simp] theorem be64Bytes_length (v : DWord) : (be64Bytes v).length = 8 := rfl

/-- Settles O16, with the model's own count of zero bytes. -/
theorem paddingFillsTheLastBlock : Obligations.PaddingFillsTheLastBlock := by
  refine fun m _ => ⟨padZeros m.length, ?_, padZeros_fills _, fun _ hy => padZeros_least hy, be64Bytes_length _⟩
  rw [padMessage, List.append_cons]

/-! ### The raw hash commands -/

/-- R172 with e = 0: a success keeps `ERR`, so the flags it leaves are those the statements name. -/
theorem complete_ok (s : State) : complete .ok s = { s with status := okStatus s } := by
  simp only [complete, okStatus, Status.completed, ne_eq, not_true_eq_false, decide_false, Bool.or_false, Err.code]

/-- A command whose effect is to write `H` answers its state with the new `H` and the flags of success. -/
theorem exec_of_effect_setH {i : Instr} {s : State} {d : Digest} (h : Effect i s (s.setH d)) :
    exec i s = .next { s with h := d, status := okStatus s } :=
  (exec_of_effect h).trans (congrArg _ (complete_ok (s.setH d)))

/-- R109's first stated value: the zero block compressed into the zero chaining value. -/
theorem compress_zero : compress Digest.zero Block.zero =
    #v[0x9E1547ED, 0x57EC91C2, 0x30FA8BC8, 0xC7785A54, 0xA7EFA5E3] := by
  decide +kernel

/-- R109's second stated value: the padded "abc" compressed into the initial value. -/
theorem compress_iv_abc :
    compress sha1IV #v[0x61626380, 0, 0, 0, 0, 0, 0, 0, 0, 0, 0, 0, 0, 0, 0, 0x00000018] =
      #v[0xA9993E36, 0x4706816A, 0xBA3E2571, 0x7850C26C, 0x9CD0D89D] := by
  decide +kernel

/-- Settles O12, from the command's effect. -/
theorem shaInitLoadsTheInitialValue : Obligations.ShaInitLoadsTheInitialValue :=
  ⟨rfl, fun _ => exec_of_effect_setH (i := .shaInit) rfl⟩

/-- Settles O13, from the command's effect and the two evaluations. -/
theorem shaBlockCompressesTheBlock : Obligations.ShaBlockCompressesTheBlock :=
  ⟨rfl, fun _ => exec_of_effect_setH (i := .shaBlock) rfl, compress_zero, compress_iv_abc⟩

end Sys2Proof.Machine
end

section
/-! PROOF. The HMAC key and its zeroisation (41_hmac.md R121, R126): the bytes of the zero-padded key words, and the state
`ZEROIZE` leaves, in which the commands that need `KEYVALID` report KeyNotSetup. -/

namespace Sys2Proof.Machine

open Sys2Proof.Statements

/-! ### The zero-padded key -/

/-- R121: the four bytes of the word `K0w[k]` are the bytes 4k to 4k+3 of K0. -/
theorem wordBytes_k0Word_getD (key : Block) (keylen : BitVec 7) (k : Nat) {j : Nat} (hj : j < 4) :
    (wordBytes (k0Word key keylen k)).getD j 0 = k0Byte key keylen (4 * k + j) := by
  rw [k0Word, wordBytes_be32]
  match j, hj with
  | 0, _ => rfl
  | 1, _ => rfl
  | 2, _ => rfl
  | 3, _ => rfl

/-- Settles O19: a byte of the words is the byte of K0 at its index, which R121 defines by the case of `KEYLEN`. -/
theorem keyBytesBeyondKeylenAreZero : Obligations.KeyBytesBeyondKeylenAreZero := by
  intro key keylen _ k _ j hj
  rw [wordBytes_k0Word_getD key keylen k hj, k0Byte]

/-! ### Zeroisation -/

/-- R180: the five key commands check `KEYVALID` before anything else. -/
theorem exec_of_not_keyvalid {i : Instr} {s : State}
    (hi : i ∈ [Instr.hmacCtr, .trunc, .hotp, .totpGen, .totpVerify]) (h : s.status.keyvalid = false) :
    exec i s = .next (complete .keyNotSetup s) := by
  simp only [List.mem_cons, List.not_mem_nil, or_false] at hi
  rcases hi with rfl | rfl | rfl | rfl | rfl
  all_goals exact if_pos h

/-- Settles O23: the success of `ZEROIZE` is its clearing with the flags of success, and `KEYVALID` is among what is cleared. -/
theorem zeroizeClearsKeyMaterial : Obligations.ZeroizeClearsKeyMaterial := by
  refine ⟨rfl, fun s => ⟨complete .ok (clearKeyMaterial s), exec_of_effect (i := .zeroize) rfl,
    complete_ok (clearKeyMaterial s), fun i hi => ?_⟩⟩
  have cleared : (complete .ok (clearKeyMaterial s)).status.keyvalid = false := rfl
  exact ⟨_, exec_of_not_keyvalid hi cleared, rfl⟩

end Sys2Proof.Machine
end

section
/-! PROOF. The ranges of the truncation results by code length (42_truncation.md R144). -/

namespace Sys2Proof.Machine

/-- A command that completes with code 0 has had its effect (R173). -/
theorem exec_inv_of_success {i : Instr} {s t : State} (h : exec i s = .next t) (h0 : t.status.errcode = 0) :
    ∃ u, Effect i s u ∧ t = complete .ok u := by
  rcases exec_inv h with ⟨e, he, rfl⟩ | hu
  · exact absurd (Err.code_eq_zero.mp h0) he
  · exact hu

/-- A successful `TRUNC` leaves the truncation results of `DIGEST` for the length `ACTLEN` (R141). -/
theorem results_of_trunc {s t : State} (h : exec .trunc s = .next t) (h0 : t.status.errcode = 0) :
    t.dtval = truncValue s.digest ∧ t.code = codeOf (truncValue s.digest) s.status.actlen := by
  obtain ⟨u, ⟨-, rfl⟩, rfl⟩ := exec_inv_of_success h h0
  exact ⟨rfl, rfl⟩

/-! ### Codes -/

/-- A code of at most nine digits is below 10^9. -/
theorem codeOf_lt_of_le_nine (dt : BitVec 31) {len : BitVec 4} (h : len.toNat ≤ 9) :
    (codeOf dt len).toNat < 10 ^ 9 := by
  rw [codeOf_toNat]
  calc dt.toNat % 10 ^ len.toNat < 10 ^ len.toNat := Nat.mod_lt _ (by positivity)
    _ ≤ 10 ^ 9 := Nat.pow_le_pow_right (by decide) h

/-- Ten digits hold every 31-bit value, so the reduction changes nothing. -/
theorem codeOf_eq_of_ten (dt : BitVec 31) {len : BitVec 4} (h : len.toNat = 10) :
    (codeOf dt len).toNat = dt.toNat := by
  have := dt.isLt
  rw [codeOf_toNat, h, Nat.mod_eq_of_lt (by omega)]

/-! ### The leading digit -/

/-- R143: the rendering at length `len + 1` begins with the digit that counts the multiples of 10^len. -/
theorem render_head? (len n : Nat) : (render (len + 1) n).head? = some (digitChar (n / 10 ^ len % 10)) := by
  induction len generalizing n with
  | zero => simp [render]
  | succ len ih => rw [render, List.head?_append, ih, Option.some_or, Nat.div_div_eq_div_mul, ← Nat.pow_succ']

/-- Below 3 * 10^9 the ten-digit rendering begins with 0, 1 or 2. -/
theorem render_ten_head? {n : Nat} (h : n < 3 * 10 ^ 9) :
    ∃ c ∈ ['0', '1', '2'], (render 10 n).head? = some c := by
  refine ⟨_, ?_, render_head? 9 n⟩
  have small : n / 10 ^ 9 % 10 < 3 := (Nat.mod_le _ _).trans_lt (Nat.div_lt_of_lt_mul (by omega))
  have digits : ∀ d < 3, digitChar d ∈ ['0', '1', '2'] := by decide
  exact digits _ small

/-- Settles O26: the results are a 31-bit value and its code, and 2^31 is below 3 * 10^9. -/
theorem codeRangesByLength : Obligations.CodeRangesByLength := by
  intro s t h h0 _ _
  obtain ⟨hdt, hcode⟩ := results_of_trunc h h0
  rw [hdt, hcode]
  generalize truncValue s.digest = dt
  have hlt := dt.isLt
  have hcodelt := (codeOf_le dt s.status.actlen).trans_lt hlt
  exact ⟨by omega, fun h9 => ⟨codeOf_toNat dt _, codeOf_lt_of_le_nine dt h9⟩,
    fun h10 => ⟨codeOf_eq_of_ten dt h10, render_ten_head? (by omega)⟩, hcodelt⟩

end Sys2Proof.Machine
end

section
/-! PROOF. The counter commands (43_counter.md R150 to R160): the quotient of `TSTEP`, the clipped window, a generated code
verified at a shifted time, and `NOP`. -/

namespace Sys2Proof.Machine

open Sys2Proof.Statements

/-! ### The time step -/

/-- Settles O28: both 64-bit operands and the result are read as numbers from their halves. -/
theorem tstepDividesTimeByPeriod : Obligations.TstepDividesTimeByPeriod := by
  refine ⟨rfl, fun s hp => ?_, fun s hp => ?_⟩
  · have zero : s.period = 0 := BitVec.eq_of_toNat_eq hp
    exact ⟨_, if_pos zero, rfl⟩
  · have nonzero : s.period ≠ 0 := fun h => hp (congrArg BitVec.toNat h)
    refine ⟨_, exec_of_effect (i := .tstep) ⟨nonzero, rfl⟩, complete_ok (s.setCounter (timeStep s.time s.period)), ?_⟩
    rw [← pair_toNat, ← pair_toNat, ← pair_toNat]
    calc (s.setCounter (timeStep s.time s.period)).counter.toNat
      _ = (timeStep s.time s.period).toNat := congrArg _ (State.counter_setCounter ..)
      _ = s.time.toNat / s.period.toNat := timeStep_toNat ..

/-- A dividend larger by the divisor or more has a larger quotient. -/
theorem div_lt_div_of_add_le {a b p : Nat} (hp : 0 < p) (h : a + p ≤ b) : a / p < b / p :=
  calc a / p < a / p + 1 := Nat.lt_succ_self _
    _ = (a + p) / p := (Nat.add_div_right a hp).symm
    _ ≤ b / p := Nat.div_le_div_right h

/-- R159: a period or more away, in either direction, the time step is another one. -/
theorem timeStep_ne_of_shifted {t u p : DWord} (hp : p ≠ 0)
    (h : t.toNat + p.toNat ≤ u.toNat ∨ u.toNat + p.toNat ≤ t.toNat) : timeStep u p ≠ timeStep t p := by
  have pos : 0 < p.toNat := Nat.pos_of_ne_zero fun h0 => hp (BitVec.eq_of_toNat_eq h0)
  rw [ne_eq, ← BitVec.toNat_inj, timeStep_toNat, timeStep_toNat]
  rcases h with h | h
  · exact (div_lt_div_of_add_le pos h).ne'
  · exact (div_lt_div_of_add_le pos h).ne

/-! ### The window -/

/-- Settles O30, from the bounds as truncated subtraction and minimum of natural numbers. -/
theorem windowBoundsAreClipped : Obligations.WindowBoundsAreClipped := by
  intro c w
  rw [windowLo_toNat, windowHi_toNat]
  unfold InWindow
  have := c.isLt
  exact ⟨by split <;> omega, by split <;> omega, by omega, by omega, fun i => by omega, by omega, fun _ => by omega⟩

/-- R154, R156: with `WINDOW = 0` the counter itself is the only one evaluated. -/
theorem verifyResult_of_window_eq_zero {s : State} (hw : s.window = 0) (c : DWord) :
    verifyResult s c = (c, codeMatches s c) := by
  obtain ⟨hmatch, inWindow, -, -⟩ := verifyResult_spec s c
  have only : (verifyResult s c).1 = c := by
    obtain ⟨hge, hle, -⟩ := inWindow
    rw [hw] at hge hle
    exact BitVec.eq_of_toNat_eq (Nat.le_antisymm hle hge)
  exact Prod.ext only (hmatch.trans (congrArg _ only))

/-! ### Generation and verification -/

/-- R153: a successful `TOTP_GEN` has passed its checks; it keeps `KEYVALID`, `ACTLEN`, the pad states and `PERIOD`, and leaves
the time step in `COUNTER` and its code in `CODE`. -/
theorem results_of_totpGen {s t : State} (h : exec .totpGen s = .next t) (h0 : t.status.errcode = 0) :
    s.status.keyvalid = true ∧ s.period ≠ 0 ∧ SameInstance t s ∧ t.period = s.period ∧
      t.counter = timeStep s.time s.period ∧
      t.code = hotpCode s.ipadH s.opadH s.status.actlen (timeStep s.time s.period) := by
  obtain ⟨_, ⟨hk, hp, rfl⟩, rfl⟩ := exec_inv_of_success h h0
  exact ⟨hk, hp, ⟨rfl, rfl, rfl, rfl⟩, rfl, State.counter_setCounter s _, rfl⟩

/-- R153: with `KEYVALID = 1` and a nonzero `PERIOD` the command `TOTP_GEN` succeeds. -/
theorem totpGen_succeeds {s : State} (hk : s.status.keyvalid = true) (hp : s.period ≠ 0) :
    ∃ t, exec .totpGen s = .next t ∧ t.status.errcode = 0 :=
  ⟨_, exec_of_effect (i := .totpGen) ⟨hk, hp, rfl⟩, rfl⟩

/-- R156: with `WINDOW = 0`, a `TOTP_VERIFY` that passes its checks sets `VMATCH` to whether the time step matches. -/
theorem totpVerify_answers_of_window_eq_zero {s : State} (hk : s.status.keyvalid = true) (hp : s.period ≠ 0)
    (hw : s.window = 0) :
    ∃ t, exec .totpVerify s = .next t ∧ t.status.vmatch = codeMatches s (timeStep s.time s.period) :=
  ⟨_, exec_of_effect (i := .totpVerify) ⟨hk, hp, rfl⟩, congrArg Prod.snd (verifyResult_of_window_eq_zero hw _)⟩

/-- R155: a candidate of `ACTLEN` digits whose value is the word `CAND_LO` matches exactly the counters with that code. -/
theorem codeMatches_iff_candLo {s : State} {i : DWord} (hlen : s.candlen = s.status.actlen.setWidth 5)
    (hhi : s.candHi = 0) : codeMatches s i = true ↔ hotpCode s.ipadH s.opadH s.status.actlen i = s.candLo := by
  have digits : s.candlen.toNat = s.status.actlen.toNat := by rw [hlen, BitVec.toNat_setWidth_of_le (by decide)]
  have value : s.cand.toNat = s.candLo.toNat := by rw [State.cand, pair_toNat, hhi]; exact Nat.zero_add _
  rw [codeMatches_iff, Matches, value, BitVec.ofNat_toNat, BitVec.setWidth_eq, BitVec.toNat_inj]
  exact ⟨fun ⟨_, h⟩ => h.symm, fun h => ⟨digits, h.symm⟩⟩

/-- Settles O34: verification at the other time evaluates its time step alone, which is not the generation's. -/
theorem shiftedTimeRejectsExactlyWhenCodesDiffer : Obligations.ShiftedTimeRejectsExactlyWhenCodesDiffer := by
  intro s g hi lo hg h0 shifted
  obtain ⟨hk, hp, ⟨keyvalid, actlen, ipad, opad⟩, period, counter, -⟩ := results_of_totpGen hg h0
  obtain ⟨v, hv, hvm⟩ := totpVerify_answers_of_window_eq_zero (s := { g with
    timeHi := hi, timeLo := lo, candHi := 0, candLo := g.code, candlen := g.status.actlen.setWidth 5, window := 0 })
    (keyvalid.trans hk) (period.trans_ne hp) rfl
  obtain ⟨h, hh, hh0⟩ := totpGen_succeeds (s := { s with timeHi := hi, timeLo := lo }) hk hp
  obtain ⟨-, -, -, -, hcounter, hcode⟩ := results_of_totpGen hh hh0
  refine ⟨v, h, hv, hh, ?_, ?_⟩
  · rw [hcounter, counter]
    exact timeStep_ne_of_shifted hp shifted
  · have sameCode : hotpCode g.ipadH g.opadH g.status.actlen (timeStep (pair hi lo) g.period) = h.code := by
      rw [hcode, ipad, opad, actlen, period]
      rfl
    rw [hvm, ← Bool.not_eq_true, codeMatches_iff_candLo rfl rfl, ← sameCode]
    rfl

/-! ### `NOP` -/

/-- Acceptance changes no register but `STATUS`, as the bus reads them (R170). -/
theorem readReg_accept (v : Word) (s : State) {r : Reg} (hr : r ≠ .status) : readReg (accept v s) r = readReg s r := by
  obtain ⟨d, ds, n, haccept⟩ := accept_eq v s
  rw [haccept]
  cases r with
  | status => exact absurd rfl hr
  | _ => rfl

/-- Completion changes no register but `STATUS`, as the bus reads them (R172). -/
theorem readReg_complete (e : Err) (s : State) {r : Reg} (hr : r ≠ .status) :
    readReg (complete e s) r = readReg s r := by
  cases r with
  | status => exact absurd rfl hr
  | _ => rfl

/-- The flags after acceptance of the word 0 (R170) and its successful completion (R172). -/
theorem status_complete_accept_zero (s : State) : (complete .ok (accept 0 s)).status =
    { s.status with busy := false, done := true, vmatch := false, errcode := 0, lastcmd := 0x0 } := by
  rw [complete_ok]
  simp only [okStatus, accept_status, accept_pending, Status.accepted]
  rfl

/-- Settles O11: `NOP` is completion alone; the word 0x10 has a reserved bit set, so it selects no command. -/
theorem nopCompletesWithoutEffect : Obligations.NopCompletesWithoutEffect := by
  have nop (s : State) : exec .nop s = .next (complete .ok s) := exec_of_effect (i := .nop) rfl
  refine ⟨rfl, fun s => (nop s).trans (congrArg _ (complete_ok s)), fun s => ?_, fun s ht hw => ?_, ?_⟩
  · exact ⟨_, nop _, status_complete_accept_zero s,
      fun r hr => (readReg_complete .ok _ hr).trans (readReg_accept 0 s hr)⟩
  · have illegal : decode s.pending = .error .reservedBits := by rw [hw]; rfl
    refine ⟨_, (step_engine ht).trans (engineStep_error illegal), rfl, ?_⟩
    rw [complete_status, Status.completed_lastcmd, hw]
    rfl
  · exact ⟨_, nop _, congrArg Status.word (status_complete_accept_zero State.reset)⟩

end Sys2Proof.Machine
end

section
/-! PROOF. The command lifecycle (60_exceptions.md): a word that selects no command (R176), acceptance (R170), an error as
completion and nothing else (R173), and the one code each command reports (R180). -/

namespace Sys2Proof.Machine

open Sys2Proof.Statements

/-! ### Completion with an error -/

/-- R172 with e not 0: the completion fields, with `ERR` set; nothing else changes. -/
theorem complete_of_ne_ok {e : Err} (he : e ≠ .ok) (s : State) :
    complete e s = { s with
      status := { s.status with
        busy := false, done := true, err := true, errcode := e.code, lastcmd := s.pending.extractLsb' 0 4 } } := by
  simp only [complete, Status.completed, he, ne_eq, not_false_eq_true, decide_true, Bool.or_true]

/-- R84: a word with a reserved bit set, or with an unassigned code, selects no command. -/
theorem decode_eq_error_of_illegal {v : Word}
    (h : v.extractLsb' 4 28 ≠ 0 ∨ v.extractLsb' 0 4 ∈ [0xA, 0xB, 0xC, 0xD, 0xE]) : ∃ e, decode v = .error e := by
  by_cases hrsv : rsvField v = 0
  · have unassigned := h.resolve_left (not_not_intro hrsv)
    exact ⟨_, decode_of_commandOf_eq_none hrsv ((commandOf_eq_none_iff _).mpr unassigned)⟩
  · exact ⟨_, decode_of_rsvField_ne_zero hrsv⟩

/-- R176: the engine step of a word that selects no command is completion with `IllegalCommand`. -/
theorem step_of_decode_error {s : State} {e : DecodeError} (ht : engineTurn s = true)
    (hd : decode s.pending = .error e) : step s = .next (complete .illegalCommand s) :=
  (step_engine ht).trans (engineStep_error hd)

/-- Settles O5: the word does not decode, so the engine's turn is completion with the error `IllegalCommand`. -/
theorem illegalWordCompletesWithCodeFive : Obligations.IllegalWordCompletesWithCodeFive := by
  intro s ht illegal
  obtain ⟨e, hd⟩ := decode_eq_error_of_illegal illegal
  rw [step_of_decode_error ht hd, complete_of_ne_ok (by decide) s]
  rfl

/-- Settles O8: a non-zero code rules out success (R172), and an error is the completion of the state before. -/
theorem errorsChangeOnlyCompletionFields : Obligations.ErrorsChangeOnlyCompletionFields := by
  intro i s t h h0
  rcases exec_inv h with ⟨e, he, rfl⟩ | ⟨u, -, rfl⟩
  · exact complete_of_ne_ok he s
  · exact absurd rfl h0

/-! ### Acceptance -/

/-- The engine does not move while `BUSY = 0`. -/
theorem engineTurn_of_idle {s : State} (hb : s.status.busy = false) : engineTurn s = false := by
  simp [engineTurn, hb]

/-- The engine does not move while host turns are left before it. -/
theorem engineTurn_of_delay {s : State} (hd : s.delay ≠ 0) : engineTurn s = false := by
  simp [engineTurn, hd]

/-- Settles O6: the due write is performed at `CTRL`, as acceptance while idle (R170) and as an ignored write while busy
(R210). -/
theorem ctrlWriteWhileIdleIsAcceptance : Obligations.CtrlWriteWhileIdleIsAcceptance := by
  intro s v rest hr hi
  refine ⟨fun hb => ?_, fun hb hd => ?_⟩
  · obtain ⟨d, ds, n, haccept⟩ := accept_eq v (passTurn rest s)
    refine ⟨d, ds, n, ?_⟩
    rw [step_dueWrite (r := .ctrl) (engineTurn_of_idle hb) hr hi, writeReg_ctrl_idle (s := passTurn rest s) v hb, haccept]
    rfl
  · refine ⟨_, step_dueWrite (r := .ctrl) (engineTurn_of_delay hd) hr hi, ?_⟩
    rw [writeReg_gated_busy (s := passTurn rest s) v rfl hb]
    exact ⟨rfl, hb⟩

/-! ### The code each command reports -/

/-- A command that raises e reports the code of e. -/
theorem reports_of_raised {i : Instr} {s : State} {e : Err} (h : exec i s = .next (complete e s)) :
    Reports i s e.code :=
  ⟨_, h, rfl⟩

/-- A command whose effect is available reports 0. -/
theorem reports_zero_of_effect {i : Instr} {s : State} (h : ∃ u, Effect i s u) : Reports i s 0 := by
  obtain ⟨u, hu⟩ := h
  exact ⟨_, exec_of_effect hu, rfl⟩

/-- R180, the first check of `KEY_SETUP`: the key length. -/
theorem exec_keySetup_of_long_key {s : State} (h : 64 < s.keylen.toNat) :
    exec .keySetup s = .next (complete .invalidKeyLength s) :=
  if_pos h

/-- R180, the second check of `KEY_SETUP`: the code length. -/
theorem exec_keySetup_of_bad_codelen {s : State} (hk : s.keylen.toNat ≤ 64)
    (hc : ¬(1 ≤ s.codelen.toNat ∧ s.codelen.toNat ≤ 10)) :
    exec .keySetup s = .next (complete .invalidCodeLength s) :=
  (if_neg (by omega)).trans (if_pos (by omega))

/-- R180, the check of `TSTEP`: the period. -/
theorem exec_tstep_of_period_zero {s : State} (hp : s.period = 0) :
    exec .tstep s = .next (complete .invalidPeriod s) :=
  if_pos hp

/-- R180, the second check of `TOTP_GEN` and `TOTP_VERIFY`, after `KEYVALID`: the period. -/
theorem exec_of_period_zero {i : Instr} {s : State} (hi : i ∈ [Instr.totpGen, .totpVerify])
    (hk : s.status.keyvalid = true) (hp : s.period = 0) : exec i s = .next (complete .invalidPeriod s) := by
  have valid : s.status.keyvalid ≠ false := by simp [hk]
  simp only [List.mem_cons, List.not_mem_nil, or_false] at hi
  rcases hi with rfl | rfl
  all_goals exact (if_neg valid).trans (if_pos hp)

/-- R180: `KEYVALID` is all that `HMAC_CTR`, `TRUNC` and `HOTP` check. -/
theorem effect_of_keyvalid {i : Instr} {s : State} (hi : i ∈ [Instr.hmacCtr, .trunc, .hotp])
    (hk : s.status.keyvalid = true) : ∃ u, Effect i s u := by
  simp only [List.mem_cons, List.not_mem_nil, or_false] at hi
  rcases hi with rfl | rfl | rfl
  all_goals exact ⟨_, hk, rfl⟩

/-- R180: `KEYVALID` and the period are all that `TOTP_GEN` and `TOTP_VERIFY` check. -/
theorem effect_of_keyvalid_of_period {i : Instr} {s : State} (hi : i ∈ [Instr.totpGen, .totpVerify])
    (hk : s.status.keyvalid = true) (hp : s.period ≠ 0) : ∃ u, Effect i s u := by
  simp only [List.mem_cons, List.not_mem_nil, or_false] at hi
  rcases hi with rfl | rfl
  all_goals exact ⟨_, hk, hp, rfl⟩

/-- R180: `NOP`, `SHA_INIT`, `SHA_BLOCK` and `ZEROIZE` check nothing. -/
theorem effect_of_unchecked {i : Instr} (s : State) (hi : i ∈ [Instr.nop, .shaInit, .shaBlock, .zeroize]) :
    ∃ u, Effect i s u := by
  simp only [List.mem_cons, List.not_mem_nil, or_false] at hi
  rcases hi with rfl | rfl | rfl | rfl
  all_goals exact ⟨_, rfl⟩

/-- Settles O9: in each row a failing check is raised when the checks before it passed, and with all passed the command's
effect is available. -/
theorem errorPriorityIsTheTable : Obligations.ErrorPriorityIsTheTable := by
  refine ⟨fun s e ht hd => ⟨_, step_of_decode_error ht hd, rfl⟩, fun s => ?_⟩
  have period_zero : s.period.toNat = 0 → s.period = 0 := fun hp => BitVec.eq_of_toNat_eq hp
  have period_ne : s.period.toNat ≠ 0 → s.period ≠ 0 := fun hp h => hp (congrArg BitVec.toNat h)
  refine ⟨?keyLength, ?codeLength, ?keySetup, ?keyed, ?zeroPeriod, ?tstep, ?totp, ?unchecked⟩
  case keyLength => exact fun hk => reports_of_raised (exec_keySetup_of_long_key hk)
  case codeLength => exact fun hk hc => reports_of_raised (exec_keySetup_of_bad_codelen hk hc)
  case keySetup => exact fun hk ⟨h1, h10⟩ => reports_zero_of_effect ⟨_, hk, h1, h10, rfl⟩
  case keyed =>
    exact fun i hi =>
      ⟨fun hk => reports_of_raised (exec_of_not_keyvalid (List.mem_append_left [.totpGen, .totpVerify] hi) hk),
        fun hk => reports_zero_of_effect (effect_of_keyvalid hi hk)⟩
  case zeroPeriod => exact fun hp => reports_of_raised (exec_tstep_of_period_zero (period_zero hp))
  case tstep => exact fun hp => reports_zero_of_effect ⟨_, period_ne hp, rfl⟩
  case totp =>
    exact fun i hi =>
      ⟨fun hk => reports_of_raised (exec_of_not_keyvalid (List.mem_append_right [.hmacCtr, .trunc, .hotp] hi) hk),
        fun hk hp => reports_of_raised (exec_of_period_zero hi hk (period_zero hp)),
        fun hk hp => reports_zero_of_effect (effect_of_keyvalid_of_period hi hk (period_ne hp))⟩
  case unchecked => exact fun i hi => reports_zero_of_effect (effect_of_unchecked s hi)

end Sys2Proof.Machine
end

section
/-! PROOF. The reset table (70_reset_and_hazards.md R200) and writes while busy (R210): what a register reads at reset, and what
a write does at a read-only register and at a reserved offset. -/

namespace Sys2Proof.Machine

open Sys2Proof.Statements

/-! ### The reset values -/

/-- Every word of the zero digest is 0. -/
theorem getElem_digestZero (i : Fin 5) : Digest.zero[i] = 0 :=
  Vector.getElem_replicate (n := 5) i.isLt

/-- Every word of the zero block is 0. -/
theorem getElem_blockZero (i : Fin 16) : Block.zero[i] = 0 :=
  Vector.getElem_replicate (n := 16) i.isLt

/-- R200: the value each register reads at reset. -/
theorem readReg_reset (r : Reg) :
    readReg State.reset r = if r = .id then 0x48534131 else if r = .periodLo then 0x0000001E else 0 := by
  cases r with
  | digest i => exact getElem_digestZero i
  | h i => exact getElem_digestZero i
  | block i => exact getElem_blockZero i
  | key i => exact getElem_blockZero i
  | _ => rfl

/-- Settles O55: the table of the bus-visible registers; the hidden state, `IRQ` and the engine's turn compute. -/
theorem resetStateIsTheTable : Obligations.ResetStateIsTheTable :=
  ⟨readReg_reset, reset_status, rfl, rfl, rfl, rfl⟩

/-! ### Writes by access class -/

/-- R53: the read-only registers. -/
theorem Reg.access_eq_readOnly {r : Reg} : r.access = .readOnly ↔ IsReadOnly r := by
  cases r <;> simp [Reg.access, IsReadOnly]

/-- R53: a write to a read-only register changes nothing. -/
theorem writeReg_readOnly {r : Reg} (v : Word) (s : State) (ha : r.access = .readOnly) : writeReg v s r = s := by
  simp only [writeReg, ha]

/-- R52: no register stands at a reserved offset. -/
theorem Reg.byteOffset_not_reserved (r : Reg) : ¬ ReservedOffset r.byteOffset := by
  unfold ReservedOffset
  cases r <;> simp only [Reg.byteOffset] <;> omega

/-- R52: a write to a reserved offset changes nothing. -/
theorem busWrite_reserved {off : Nat} (v : Word) (s : State) (ho : ReservedOffset off) : busWrite off v s = s := by
  have noReg : Reg.ofOffset off = none :=
    Reg.ofOffset_eq_none.mpr fun r hr => r.byteOffset_not_reserved (hr ▸ ho)
  simp [busWrite, noReg]

/-- Settles O41, by access class: a read-only write is dropped, a command-gated one while busy is flagged (R210), and
`STATUS` and `INTEN` are written as while idle. -/
theorem writesWhileBusyAreIgnoredAndFlagged : Obligations.WritesWhileBusyAreIgnoredAndFlagged := by
  refine ⟨fun s v r hr hro => ?readOnly, fun s v hr hb => ?busy⟩
  case readOnly => rw [busWrite_byteOffset r v s hr, writeReg_readOnly v s (Reg.access_eq_readOnly.mpr hro)]
  case busy =>
    have status : busWrite 0x008 v s = acknowledge v s := busWrite_byteOffset .status v s hr
    have inten : busWrite 0x00C v s = setInten (Inten.ofWord v) s := busWrite_byteOffset .inten v s hr
    rw [status, inten]
    refine ⟨fun r hgated => ?_, rfl, rfl, rfl, Inten.word_ofWord v, fun off ho => busWrite_reserved v s ho⟩
    rw [busWrite_byteOffset r v s hr, writeReg_gated_busy v (Reg.access_eq_gated.mpr hgated) hb]
    rfl

end Sys2Proof.Machine
end

section
/-! PROOF. The encoder as the decoder's inverse (30_encoding.md R81, R85): the opcode map in both directions, and a word as its
two fields. -/

namespace Sys2Proof

/-- R81: the opcode map read from code to command is the inverse of the map read from command to code. -/
theorem commandOf_eq_some_iff {c : BitVec 4} {i : Instr} : commandOf c = some i ↔ c = cmdCode i := by
  have inverse : ∀ c : BitVec 4, ∀ i ∈ commandOf c, c = cmdCode i := by decide
  constructor
  · exact inverse c i
  · rintro rfl
    cases i <;> rfl

/-- R80: a word is determined by its two fields. -/
theorem eq_iff_fields_eq {v w : Word} : v = w ↔ rsvField v = rsvField w ∧ cmdField v = cmdField w := by
  refine ⟨fun h => h ▸ ⟨rfl, rfl⟩, fun ⟨hrsv, hcmd⟩ => ?_⟩
  have fields (x : Word) : rsvField x ++ cmdField x = x :=
    (BitVec.extractLsb'_append_extractLsb'_eq_extractLsb' (Nat.zero_add 4).symm).trans BitVec.extractLsb'_eq_self
  rw [← fields v, ← fields w, hrsv, hcmd]

/-- R80, R81: the fields of every command's word. -/
theorem encode_fields : ∀ i : Instr, Laws.WordFields.Statement i
  | .nop => Laws.WordFields.nop
  | .shaInit => Laws.WordFields.shaInit
  | .shaBlock => Laws.WordFields.shaBlock
  | .keySetup => Laws.WordFields.keySetup
  | .hmacCtr => Laws.WordFields.hmacCtr
  | .trunc => Laws.WordFields.trunc
  | .hotp => Laws.WordFields.hotp
  | .tstep => Laws.WordFields.tstep
  | .totpGen => Laws.WordFields.totpGen
  | .totpVerify => Laws.WordFields.totpVerify
  | .zeroize => Laws.WordFields.zeroize

/-- R85: what a word must be for the decoder to answer a command. -/
theorem decode_eq_ok_iff {v : Word} {i : Instr} : decode v = .ok i ↔ rsvField v = 0 ∧ cmdField v = cmdCode i := by
  rw [← commandOf_eq_some_iff]
  refine ⟨fun h => ?_, fun ⟨hrsv, hcmd⟩ => decode_of_commandOf_eq_some hrsv hcmd⟩
  by_cases hrsv : rsvField v = 0
  · refine ⟨hrsv, ?_⟩
    cases hcmd : commandOf (cmdField v) with
    | none => rw [decode_of_commandOf_eq_none hrsv hcmd] at h; cases h
    | some j => rw [decode_of_commandOf_eq_some hrsv hcmd] at h; cases h; rfl
  · rw [decode_of_rsvField_ne_zero hrsv] at h; cases h

/-- Settles O2: the decoder answers i exactly on the word whose fields are those of i's encoding. -/
theorem decodeAndEncodeAgree : Obligations.DecodeAndEncodeAgree := by
  intro i _ v
  obtain ⟨hrsv, hcmd⟩ := encode_fields i
  rw [decode_eq_ok_iff, eq_iff_fields_eq, hrsv, hcmd]

/-- Settles O3: six encodings, and the two ways a word selects no command. -/
theorem writtenOutCommandWordsDecode : Obligations.WrittenOutCommandWordsDecode := by
  have encoded (i : Instr) : decode (encode i) = .ok i := (decodeAndEncodeAgree i rfl _).mpr rfl
  exact ⟨encoded .nop, encoded .shaBlock, encoded .keySetup, encoded .hotp, encoded .totpVerify, encoded .zeroize,
    decode_of_commandOf_eq_none rfl rfl, decode_of_rsvField_ne_zero (by decide)⟩

end Sys2Proof
end

section
/-! PROOF. What a command writes (30_encoding.md R82): one rule for what each update of the state leaves to the bus, and the
frame of every command assembled from them. -/

namespace Sys2Proof.Machine

open Sys2Proof.Statements

/-! ### What each update leaves to the bus -/

section Updates

variable {s : State} {r : Reg}

theorem readReg_setH (d : Digest) (hr : r ∉ writeRow .shaInit) : readReg (s.setH d) r = readReg s r := by
  have inRow : ∀ i : Fin 5, Reg.h i ∈ writeRow .shaInit := by decide
  cases r with
  | h i => exact absurd (inRow i) hr
  | _ => rfl

theorem readReg_setDigest (d : Digest) (hr : r ∉ writeRow .hmacCtr) : readReg (s.setDigest d) r = readReg s r := by
  have inRow : ∀ i : Fin 5, Reg.digest i ∈ writeRow .hmacCtr := by decide
  cases r with
  | digest i => exact absurd (inRow i) hr
  | _ => rfl

theorem readReg_truncateDigest (d : Digest) (hr : r ∉ writeRow .trunc) :
    readReg (truncateDigest d s) r = readReg s r := by
  cases r with
  | offset | dtval | code => exact absurd (by decide) hr
  | _ => rfl

theorem readReg_setHotp (c : DWord) (hr : r ∉ writeRow .hotp) : readReg (setHotp c s) r = readReg s r := by
  have rows : r ∉ writeRow .hmacCtr ++ writeRow .trunc := hr
  obtain ⟨notDigest, notTrunc⟩ := not_or.mp (List.mem_append.not.mp rows)
  rw [setHotp, readReg_truncateDigest _ notTrunc, readReg_setDigest _ notDigest]

theorem readReg_setCounter (c : DWord) (hr : r ∉ writeRow .tstep) : readReg (s.setCounter c) r = readReg s r := by
  cases r with
  | counterLo | counterHi => exact absurd (by decide) hr
  | _ => rfl

theorem readReg_setMatchctr (c : DWord) (hr : r ∉ [Reg.matchctrLo, .matchctrHi]) :
    readReg (s.setMatchctr c) r = readReg s r := by
  cases r with
  | matchctrLo | matchctrHi => exact absurd (by decide) hr
  | _ => rfl

theorem readReg_setVmatch (m : Bool) (hr : r ≠ .status) : readReg (s.setVmatch m) r = readReg s r := by
  cases r with
  | status => exact absurd rfl hr
  | _ => rfl

theorem readReg_setInstance (ip op : Digest) (len : BitVec 4) (hr : r ≠ .status) :
    readReg (s.setInstance ip op len) r = readReg s r := by
  cases r with
  | status => exact absurd rfl hr
  | _ => rfl

theorem readReg_clearKeyMaterial (hr : r ∉ writeRow .zeroize) (hs : r ≠ .status) :
    readReg (clearKeyMaterial s) r = readReg s r := by
  have digestInRow : ∀ i : Fin 5, Reg.digest i ∈ writeRow .zeroize := by decide
  have hInRow : ∀ i : Fin 5, Reg.h i ∈ writeRow .zeroize := by decide
  have blockInRow : ∀ i : Fin 16, Reg.block i ∈ writeRow .zeroize := by decide
  have keyInRow : ∀ i : Fin 16, Reg.key i ∈ writeRow .zeroize := by decide
  cases r with
  | digest i => exact absurd (digestInRow i) hr
  | h i => exact absurd (hInRow i) hr
  | block i => exact absurd (blockInRow i) hr
  | key i => exact absurd (keyInRow i) hr
  | status => exact absurd rfl hs
  | keylen | offset | dtval | code | candLo | candHi | candlen => exact absurd (by decide) hr
  | _ => rfl

end Updates

/-! ### The frame of a command's effect -/

/-- R82: an effect changes no register outside the command's write row, `STATUS` apart. -/
theorem Effect.readReg {i : Instr} {s u : State} {r : Reg} (h : Effect i s u) (hr : r ∉ writeRow i)
    (hs : r ≠ .status) : readReg u r = readReg s r := by
  cases i <;> simp only [Effect] at h
  case nop => rw [h]
  case shaInit => rw [h, readReg_setH _ hr]
  case shaBlock => rw [h, readReg_setH _ hr]
  case keySetup => obtain ⟨-, -, -, rfl⟩ := h; rw [readReg_setInstance _ _ _ hs]
  case hmacCtr => obtain ⟨-, rfl⟩ := h; rw [readReg_setDigest _ hr]
  case trunc => obtain ⟨-, rfl⟩ := h; rw [readReg_truncateDigest _ hr]
  case hotp => obtain ⟨-, rfl⟩ := h; rw [readReg_setHotp _ hr]
  case tstep => obtain ⟨-, rfl⟩ := h; rw [readReg_setCounter _ hr]
  case totpGen =>
    obtain ⟨-, -, rfl⟩ := h
    have rows : r ∉ writeRow .tstep ++ writeRow .hotp := hr
    obtain ⟨notCounter, notHotp⟩ := not_or.mp (List.mem_append.not.mp rows)
    rw [readReg_setHotp _ notHotp, readReg_setCounter _ notCounter]
  case totpVerify =>
    obtain ⟨-, -, rfl⟩ := h
    have rows : r ∉ writeRow .tstep ++ writeRow .hotp ++ [Reg.matchctrLo, .matchctrHi] := hr
    obtain ⟨notGen, notMatchctr⟩ := not_or.mp (List.mem_append.not.mp rows)
    obtain ⟨notCounter, notHotp⟩ := not_or.mp (List.mem_append.not.mp notGen)
    rw [setVerified, readReg_setVmatch _ hs, readReg_setMatchctr _ notMatchctr, readReg_setHotp _ notHotp,
      readReg_setCounter _ notCounter]
  case zeroize => rw [h, readReg_clearKeyMaterial hr hs]

/-- R29, R33, R46: only `KEY_SETUP` and `ZEROIZE` change `KEYVALID`, `ACTLEN` and the pad states. -/
theorem Effect.sameInstance {i : Instr} {s u : State} (h : Effect i s u) (hsetup : i ≠ .keySetup)
    (hzeroize : i ≠ .zeroize) : SameInstance u s := by
  cases i <;> simp only [Effect] at h
  case keySetup => exact absurd rfl hsetup
  case zeroize => exact absurd rfl hzeroize
  case nop => subst h; exact ⟨rfl, rfl, rfl, rfl⟩
  case shaInit => subst h; exact ⟨rfl, rfl, rfl, rfl⟩
  case shaBlock => subst h; exact ⟨rfl, rfl, rfl, rfl⟩
  case hmacCtr => obtain ⟨-, rfl⟩ := h; exact ⟨rfl, rfl, rfl, rfl⟩
  case trunc => obtain ⟨-, rfl⟩ := h; exact ⟨rfl, rfl, rfl, rfl⟩
  case hotp => obtain ⟨-, rfl⟩ := h; exact ⟨rfl, rfl, rfl, rfl⟩
  case tstep => obtain ⟨-, rfl⟩ := h; exact ⟨rfl, rfl, rfl, rfl⟩
  case totpGen => obtain ⟨-, -, rfl⟩ := h; exact ⟨rfl, rfl, rfl, rfl⟩
  case totpVerify => obtain ⟨-, -, rfl⟩ := h; exact ⟨rfl, rfl, rfl, rfl⟩

/-- Settles O10: an error is completion alone, and a success completes the effect, whose frame is the write row. -/
theorem commandsWriteOnlyTheirRow : Obligations.CommandsWriteOnlyTheirRow := by
  intro i s t h
  rcases exec_inv h with ⟨e, -, rfl⟩ | ⟨u, hu, rfl⟩
  · exact ⟨fun r _ hs => readReg_complete e s hs, fun _ _ => ⟨rfl, rfl, rfl, rfl⟩, fun _ => rfl, rfl, rfl, rfl, rfl, rfl,
      rfl, rfl, rfl⟩
  · obtain ⟨pending, rst, inputs, reads, delays, delay, draws, -, busyerr⟩ := hu.keeps
    exact ⟨fun r hr hs => (readReg_complete .ok u hs).trans (hu.readReg hr hs), hu.sameInstance, hu.vmatch, busyerr,
      pending, rst, inputs, reads, delays, delay, draws⟩

end Sys2Proof.Machine
end

section
/-! PROOF. The engine's turn (60_exceptions.md R171 to R176): it always answers, with the completion fields; and what sets and
clears `KEYVALID` over every step (10_state.md R29). -/

namespace Sys2Proof.Machine

open Sys2Proof.Statements

/-! ### The engine's turn -/

/-- R171, R173: every command answers a next state. -/
theorem exec_answers (i : Instr) (s : State) : ∃ t, exec i s = .next t := by
  rcases exec_cases i s with ⟨e, -, h⟩ | ⟨u, -, h⟩
  · exact ⟨_, h⟩
  · exact ⟨_, h⟩

/-- The engine's turn performs the command the pending word selects. -/
theorem step_of_performs {s : State} {i : Instr} (h : Performs s i) : step s = exec i s := by
  obtain ⟨ht, hd⟩ := h
  rw [step_engine ht, engineStep_ok hd]

/-- R172, R176: the engine's turn always answers a next state. -/
theorem engine_answers {s : State} (ht : engineTurn s = true) : ∃ t, step s = .next t := by
  cases hd : decode s.pending with
  | error e => exact ⟨_, step_of_decode_error ht hd⟩
  | ok i => rw [step_of_performs ⟨ht, hd⟩]; exact exec_answers i s

/-- Settles O4, from the meaning of the engine's turn. -/
theorem stepPerformsThePendingCommand : Obligations.StepPerformsThePendingCommand := by
  refine ⟨fun s i hb hr hd hi => step_of_performs ⟨engineTurn_iff.mpr ⟨hb, hr, hd⟩, hi⟩, fun s h => step_host ?_⟩
  rw [← Bool.not_eq_true, engineTurn_iff]
  rintro ⟨hb, hr, hd⟩
  rcases h with h | h | h
  · rw [hb] at h; cases h
  · rw [hr] at h; cases h
  · exact h hd

/-- Settles O7: the engine's turn is a completion, over flags whose `ERR` is the one before. -/
theorem completionWritesTheStatusFields : Obligations.CompletionWritesTheStatusFields := by
  refine ⟨fun s => engineTurn_of_idle, fun s hb hr => ⟨0, engineTurn_iff.mpr ⟨hb, hr, rfl⟩⟩, fun s ht => ?_⟩
  obtain ⟨t, h⟩ := engine_answers ht
  obtain ⟨f, e, herr, -, hf⟩ := status_of_engineTurn h ht
  refine ⟨e, t, h, fun i hi => (step_of_performs ⟨ht, hi⟩).symm.trans h, ?_⟩
  rw [hf, ← herr]
  exact ⟨rfl, rfl, rfl, rfl, rfl⟩

/-! ### What sets and clears `KEYVALID` -/

/-- R29: no host event but reset changes `KEYVALID`. -/
theorem HostEvent.keyvalid {s : State} {f : Status} (h : HostEvent s f) :
    f.keyvalid = s.status.keyvalid ∨ ResetDriven s := by
  cases h with
  | reset hd => exact .inr hd
  | _ => exact .inl rfl

/-- Settles O52: of the engine's completions only those of `KEY_SETUP` and `ZEROIZE` change `KEYVALID`, and of the host
events only reset does. -/
theorem keyvalidChangesOnlyByItsEvents : Obligations.KeyvalidChangesOnlyByItsEvents := by
  intro s t h
  have performed {i : Instr} (hp : Performs s i) : exec i s = .next t := (step_of_performs hp).symm.trans h
  refine ⟨fun hp h0 => ?_, fun hp h0 => ?_, fun hp => ?_, fun hd => ?_, fun changed => ?_⟩
  · obtain ⟨u, ⟨-, -, -, rfl⟩, rfl⟩ := exec_inv_of_success (performed hp) h0
    rfl
  · exact congrArg (·.status.keyvalid) (errorsChangeOnlyCompletionFields _ s t (performed hp) h0)
  · have zeroized : exec .zeroize s = .next (complete .ok (clearKeyMaterial s)) := exec_of_effect (i := .zeroize) rfl
    rw [performed hp] at zeroized
    cases zeroized
    rfl
  · rw [status_of_resetDriven h hd, reset_status]
  · rcases step_inv h with ⟨-, e, -, rfl⟩ | ⟨ht, i, u, hd, hu, rfl⟩ | ⟨ht, hh⟩
    · exact absurd rfl changed
    · by_cases hsetup : i = .keySetup
      · exact .inl ⟨ht, hsetup ▸ hd⟩
      by_cases hzeroize : i = .zeroize
      · exact .inr (.inl ⟨ht, hzeroize ▸ hd⟩)
      · exact absurd (hu.sameInstance hsetup hzeroize).1 changed
    · exact .inr (.inr ((hostTurn_event ht hh).keyvalid.resolve_left changed))

end Sys2Proof.Machine
end

section
/-! PROOF. The register invariant (10_state.md section 2, 70_reset_and_hazards.md R200, R201): it holds at reset, and every step
of either agent keeps it. -/

namespace Sys2Proof.Machine

open Sys2Proof.Safety Sys2Proof.Statements

/-! ### What the commands do to the invariant's relations -/

/-- Settles O57, each relation evaluated at the reset values. -/
theorem invariantHoldsAtReset : Obligations.InvariantHoldsAtReset where
  keyInstance := ⟨fun h => (by cases h), fun _ => ⟨rfl, rfl, rfl⟩⟩
  busy := fun h => by cases h
  errcode := Nat.zero_le _
  vmatch := fun h => by cases h
  code := Nat.le_refl _
  reset := fun h => by cases h

/-- The relation between `KEYVALID`, `ACTLEN` and the pad states depends on these alone. -/
theorem instanceOk_of_sameInstance {s t : State} (h : SameInstance t s) (hs : InstanceOk s) : InstanceOk t := by
  obtain ⟨keyvalid, actlen, ipad, opad⟩ := h
  unfold InstanceOk
  rwa [keyvalid, actlen, ipad, opad]

/-- R29, R33: `KEY_SETUP` sets `KEYVALID` with a checked code length, `ZEROIZE` clears both, the other commands keep them. -/
theorem Effect.instanceOk {i : Instr} {s u : State} (h : Effect i s u) (hs : InstanceOk s) : InstanceOk u := by
  by_cases hsetup : i = .keySetup
  · subst hsetup
    obtain ⟨-, atLeast, atMost, rfl⟩ := h
    exact ⟨fun _ => ⟨atLeast, atMost⟩, fun invalid => by cases invalid⟩
  by_cases hzeroize : i = .zeroize
  · subst hzeroize
    cases h
    exact ⟨fun valid => (by cases valid), fun _ => ⟨rfl, rfl, rfl⟩⟩
  · exact instanceOk_of_sameInstance (h.sameInstance hsetup hzeroize) hs

/-- R45: an effect keeps `CODE` and `DTVAL`, writes both from one digest, or clears both. -/
theorem Effect.codeOk {i : Instr} {s u : State} (h : Effect i s u) (hs : CodeOk s) : CodeOk u := by
  cases i <;> simp only [Effect] at h
  case nop => subst h; exact hs
  case shaInit => subst h; exact hs
  case shaBlock => subst h; exact hs
  case keySetup => obtain ⟨-, -, -, rfl⟩ := h; exact hs
  case hmacCtr => obtain ⟨-, rfl⟩ := h; exact hs
  case tstep => obtain ⟨-, rfl⟩ := h; exact hs
  case zeroize => subst h; exact Nat.le_refl _
  case trunc => obtain ⟨-, rfl⟩ := h; exact codeOf_le _ _
  case hotp => obtain ⟨-, rfl⟩ := h; exact codeOf_le _ _
  case totpGen => obtain ⟨-, -, rfl⟩ := h; exact codeOf_le _ _
  case totpVerify => obtain ⟨-, -, rfl⟩ := h; exact codeOf_le _ _

/-- R28: `VMATCH` after a command that started without it is that of a successful `TOTP_VERIFY` with `KEYVALID = 1`. -/
theorem Effect.vmatchOk {i : Instr} {s u : State} (h : Effect i s u) (h0 : s.status.vmatch = false)
    (hd : decode s.pending = .ok i) : VmatchOk (complete .ok u) := by
  intro h1
  by_cases hi : i = .totpVerify
  · subst hi
    obtain ⟨-, code⟩ := decode_eq_ok_iff.mp hd
    obtain ⟨valid, -, rfl⟩ := h
    exact ⟨valid, code, rfl⟩
  · rw [complete_status, Status.completed_vmatch, h.vmatch hi, h0] at h1
    cases h1

/-- Storing an input register changes no result, no flag and nothing hidden. -/
theorem storeInput_frame (s : State) (v : Word) (r : Reg) :
    (storeInput s v r).status = s.status ∧ SameInstance (storeInput s v r) s ∧ (storeInput s v r).code = s.code ∧
      (storeInput s v r).dtval = s.dtval ∧ (storeInput s v r).pending = s.pending ∧ (storeInput s v r).rst = s.rst := by
  cases r <;> exact ⟨rfl, ⟨rfl, rfl, rfl, rfl⟩, rfl, rfl, rfl, rfl⟩

end Sys2Proof.Machine

namespace Sys2Proof.Safety

open Sys2Proof.Machine Sys2Proof.Statements

/-! ### The invariant over each agent's turn -/

/-- Completion outside reset keeps the relations of the key state and of `CODE`, so it is sound if its `VMATCH` is a
successful verification's. -/
theorem sound_complete {e : Err} {u : State} (hinst : InstanceOk u) (hcode : CodeOk u) (hr : u.rst = false)
    (hv : VmatchOk (complete e u)) : Sound (complete e u) where
  keyInstance := hinst
  busy := fun h => by cases h
  errcode := e.code_le_five
  vmatch := hv
  code := hcode
  reset := fun h => by rw [complete_rst, hr] at h; cases h

/-- A host turn takes its input off and counts, which the invariant does not see. -/
theorem Sound.passTurn {s : State} (hs : Sound s) (rest : List Input) : Sound (passTurn rest s) where
  keyInstance := hs.keyInstance
  busy := hs.busy
  errcode := hs.errcode
  vmatch := hs.vmatch
  code := hs.code
  reset := fun h => congrArg (Machine.passTurn rest) (hs.reset h)

/-- A read changes the host's own data, which the invariant does not see. -/
theorem Sound.logRead {s : State} (hs : Sound s) (off : Nat) (v : Word) (n : Nat) : Sound (logRead off v n s) where
  keyInstance := hs.keyInstance
  busy := hs.busy
  errcode := hs.errcode
  vmatch := hs.vmatch
  code := hs.code
  reset := fun h => congrArg (Machine.logRead off v n) (hs.reset h)

/-- The reset state is sound, with the line at either level. -/
theorem sound_resetCore (level : Bool) (s : State) : Sound (resetCore level s) where
  keyInstance := invariantHoldsAtReset.keyInstance
  busy := invariantHoldsAtReset.busy
  errcode := invariantHoldsAtReset.errcode
  vmatch := invariantHoldsAtReset.vmatch
  code := invariantHoldsAtReset.code
  reset := fun h => by cases (show level = true from h); rfl

theorem Sound.driveReset {s : State} (hs : Sound s) (level : Bool) : Sound (driveReset level s) := by
  unfold Machine.driveReset
  split
  · exact sound_resetCore level s
  · exact hs

/-- What a write changes at most, as the invariant sees it: outside reset, the flags alone, and these keep the relations. -/
theorem Sound.of_write {s t : State} (hs : Sound s) (hr : t.rst = false) (hinst : SameInstance t s)
    (hcode : t.code = s.code) (hdtval : t.dtval = s.dtval) (hbusy : BusyOk t)
    (herrcode : t.status.errcode = s.status.errcode)
    (hvmatch : t.status.vmatch = true → s.status.vmatch = true ∧ t.status.lastcmd = s.status.lastcmd) : Sound t where
  keyInstance := instanceOk_of_sameInstance hinst hs.keyInstance
  busy := hbusy
  errcode := by unfold ErrcodeOk; rw [herrcode]; exact hs.errcode
  vmatch := fun h => by
    obtain ⟨matched, lastcmd⟩ := hvmatch h
    obtain ⟨keyvalid, -, -, -⟩ := hinst
    rw [keyvalid, lastcmd, herrcode]
    exact hs.vmatch matched
  code := by unfold CodeOk; rw [hcode, hdtval]; exact hs.code
  reset := fun h => by rw [hr] at h; cases h

theorem Sound.busWrite {s : State} (hs : Sound s) (off : Nat) (v : Word) : Sound (busWrite off v s) := by
  rcases busWrite_cases off v s with hw | ⟨hr, -, hw⟩ | ⟨hr, -, hw⟩ | ⟨hr, r, -, -, -, hw⟩ | ⟨hr, -, -, hw⟩ |
    ⟨hr, r, -, -, -, -, hw⟩ <;> rw [hw]
  · exact hs
  · refine hs.of_write hr ⟨rfl, rfl, rfl, rfl⟩ rfl rfl (fun hb => ?_) rfl fun h => ⟨h, rfl⟩
    obtain ⟨notDone, noMatch⟩ := hs.busy hb
    exact ⟨by simp [notDone], noMatch⟩
  · exact hs.of_write hr ⟨rfl, rfl, rfl, rfl⟩ rfl rfl hs.busy rfl fun h => ⟨h, rfl⟩
  · exact hs.of_write hr ⟨rfl, rfl, rfl, rfl⟩ rfl rfl hs.busy rfl fun h => ⟨h, rfl⟩
  · obtain ⟨d, ds, n, haccept⟩ := accept_eq v s
    rw [haccept]
    exact hs.of_write hr ⟨rfl, rfl, rfl, rfl⟩ rfl rfl (fun _ => ⟨rfl, rfl⟩) rfl fun h => by cases h
  · obtain ⟨status, sameInstance, code, dtval, -, rst⟩ := storeInput_frame s v r
    refine hs.of_write (rst.trans hr) sameInstance code dtval ?_ (by rw [status]) fun h => ?_
    · unfold BusyOk; rw [status]; exact hs.busy
    · rw [status] at h ⊢; exact ⟨h, rfl⟩

/-- Every host turn keeps the invariant. -/
theorem Sound.hostTurn {s t : State} (hs : Sound s) (h : hostTurn s = .next t) : Sound t := by
  rcases hostTurn_inv h with ⟨-, rfl⟩ | ⟨off, v, rest, -, -, -, rfl⟩ | ⟨off, rest, -, -, -, hread⟩ |
    ⟨rest, left, -, -, hread⟩ | ⟨level, rest, -, rfl⟩
  · exact hs.passTurn []
  · exact (hs.passTurn rest).busWrite off v
  · obtain ⟨n, rfl⟩ := busRead_inv hread; exact (hs.passTurn rest).logRead _ _ _
  · obtain ⟨n, rfl⟩ := busRead_inv hread; exact (hs.passTurn left).logRead _ _ _
  · exact (hs.passTurn rest).driveReset level

end Sys2Proof.Safety

namespace Sys2Proof.Machine

open Sys2Proof.Safety

/-- Settles O58: on the engine's turn `VMATCH` is 0 before, so completion leaves only a verification's; the host's turn keeps
each relation input by input. -/
theorem invariantIsKeptByEveryStep : Obligations.InvariantIsKeptByEveryStep := by
  intro s t hs h
  have idleMatch (ht : engineTurn s = true) : s.rst = false ∧ s.status.vmatch = false := by
    obtain ⟨hb, hr, -⟩ := engineTurn_iff.mp ht
    obtain ⟨-, noMatch⟩ := hs.busy hb
    exact ⟨hr, noMatch⟩
  rcases step_inv h with ⟨ht, e, -, rfl⟩ | ⟨ht, i, u, hd, hu, rfl⟩ | ⟨-, hh⟩
  · obtain ⟨hr, h0⟩ := idleMatch ht
    exact sound_complete hs.keyInstance hs.code hr fun h1 => by
      rw [complete_status, Status.completed_vmatch, h0] at h1; cases h1
  · obtain ⟨hr, h0⟩ := idleMatch ht
    obtain ⟨-, rst, -⟩ := hu.keeps
    exact sound_complete (hu.instanceOk hs.keyInstance) (hu.codeOk hs.code) (rst.trans hr) (hu.vmatchOk h0 hd)
  · exact hs.hostTurn hh

end Sys2Proof.Machine
end

section
/-! PROOF. The register window (10_state.md R20, R36 to R53, 20_memory.md R60 to R69): where registers and reserved offsets stand,
what a store in an input register leaves, and what is refused. -/

namespace Sys2Proof.Machine

open Sys2Proof.Statements

/-! ### Offsets -/

/-- R20: every register stands at its offset of the map. -/
theorem byteOffset_followsTheMap : FollowsTheMap Reg.byteOffset :=
  ⟨by decide, fun _ => rfl, fun _ => rfl, fun _ => rfl, fun _ => rfl⟩

/-- R52: no register stands at a reserved offset. -/
theorem ofOffset_reserved {off : Nat} (ho : ReservedOffset off) : Reg.ofOffset off = none :=
  Reg.ofOffset_eq_none.mpr fun r hr => r.byteOffset_not_reserved (hr ▸ ho)

/-- The word indices below the last register's at which no register stands. -/
theorem index_of_ofOffset_eq_none : ∀ k < 80, Reg.ofOffset (4 * k) = none →
    21 ≤ k ∧ k ≤ 23 ∨ 29 ≤ k ∧ k ≤ 31 ∨ 37 ≤ k ∧ k ≤ 47 := by
  decide +kernel

/-- R52: an aligned offset of the window with no register is a listed one. -/
theorem reserved_of_ofOffset_eq_none {off : Nat} (hlt : off < 4096) (ha : off % 4 = 0)
    (hnone : Reg.ofOffset off = none) : ReservedOffset off := by
  have index : off = 4 * (off / 4) := by omega
  by_cases hk : off / 4 < 80
  · rw [index] at hnone
    have := index_of_ofOffset_eq_none _ hk hnone
    unfold ReservedOffset
    omega
  · unfold ReservedOffset
    omega

/-- Settles O40: at an offset without a register a read gives 0 and a write does nothing. -/
theorem reservedOffsetsReadZeroAndIgnoreWrites : Obligations.ReservedOffsetsReadZeroAndIgnoreWrites := by
  refine ⟨fun off s v ho => ⟨?_, ?_, busWrite_reserved v s ho⟩, fun off s v hlt ha hnone => ?_⟩
  · simp [readValue, ofOffset_reserved ho]
  · simp [readsFree, ofOffset_reserved ho]
  · have reserved := reserved_of_ofOffset_eq_none hlt ha (Reg.ofOffset_eq_none.mpr hnone)
    exact ⟨reserved, busWrite_reserved v s reserved⟩

/-- Settles O46, in the arithmetic of the window. -/
theorem windowSitsAtBase : Obligations.WindowSitsAtBase := by
  refine ⟨Nat.mul_mod_right .., fun off n v hoff => ?_, fun a n v ha => ?_⟩
  · have inside : Config.base ≤ Config.base + off ∧ Config.base + off < Config.base + 4096 := by omega
    simp only [memRead, memWrite, if_pos inside, Nat.add_sub_cancel_left, and_self]
  · have outside : ¬(Config.base ≤ a ∧ a < Config.base + 4096) := by omega
    simp only [memRead, memWrite, if_neg outside, and_self]

/-! ### Input registers -/

/-- R53: while idle a write to an input register stores its word. -/
theorem writeReg_input_idle {s : State} {r : Reg} (v : Word) (hr : IsInput r) (hb : s.status.busy = false) :
    writeReg v s r = storeInput s v r := by
  have notCtrl : r ≠ .ctrl := by
    rintro rfl
    simp [IsInput] at hr
  simp [writeReg, Reg.access_eq_gated.mpr (.inr hr), hb, notCtrl]

/-- R83: a field of n bits reads as its word with the other bits cleared. -/
theorem setWidth_extractLsb' (v : Word) (n : Nat) :
    (v.extractLsb' 0 n).setWidth 32 = v &&& (BitVec.allOnes n).setWidth 32 := by
  refine BitVec.eq_of_getLsbD_eq fun i hi => ?_
  simp [hi, Bool.and_comm]

/-- R36 to R43, R48 to R50: a stored word reads back in its defined bits. -/
theorem readReg_storeInput_same (s : State) (v : Word) {r : Reg} (hr : IsInput r) :
    readReg (storeInput s v r) r = v &&& definedBits r := by
  have whole : v &&& 0xFFFFFFFF = v := BitVec.and_allOnes
  cases r with
  | cfg => exact setWidth_extractLsb' v 4
  | keylen => exact setWidth_extractLsb' v 7
  | candlen => exact setWidth_extractLsb' v 5
  | h i => exact (Vector.getElem_set_self i.isLt).trans whole.symm
  | block i => exact (Vector.getElem_set_self i.isLt).trans whole.symm
  | key i => exact (Vector.getElem_set_self i.isLt).trans whole.symm
  | id | ctrl | status | inten | matchctrLo | matchctrHi | dtval | code | offset | digest => simp [IsInput] at hr
  | _ => exact whole.symm

/-- A store at one index of an array leaves the other indices. -/
theorem getElem_set_of_ne {n : Nat} (ws : Vector Word n) (v : Word) {i j : Fin n} (h : j ≠ i) :
    (ws.set i v)[j] = ws[j] :=
  Vector.getElem_set_ne i.isLt j.isLt fun hij => h (Fin.ext hij.symm)

/-- R53: a store changes no other register. -/
theorem readReg_storeInput_ne (s : State) (v : Word) {r q : Reg} (hq : q ≠ r) :
    readReg (storeInput s v r) q = readReg s q := by
  cases r with
  | h i =>
    cases q with
    | h j => exact getElem_set_of_ne s.h v fun hji => hq (congrArg Reg.h hji)
    | _ => rfl
  | block i =>
    cases q with
    | block j => exact getElem_set_of_ne s.block v fun hji => hq (congrArg Reg.block hji)
    | _ => rfl
  | key i =>
    cases q with
    | key j => exact getElem_set_of_ne s.key v fun hji => hq (congrArg Reg.key hji)
    | _ => rfl
  | _ => cases q <;> simp_all only [readReg, storeInput, ne_eq, not_true_eq_false]

/-- A store sees neither the inputs still due nor the schedule. -/
theorem storeInput_passTurn (s : State) (v : Word) (r : Reg) (rest : List Input) :
    storeInput (passTurn rest s) v r = { storeInput s v r with inputs := rest, delay := s.delay - 1 } := by
  cases r <;> rfl

/-- Settles O39: the idle write is the store, at the register's own offset. -/
theorem inputRegisterReadsBackWhatWasWritten : Obligations.InputRegisterReadsBackWhatWasWritten := by
  refine ⟨byteOffset_followsTheMap, fun s v r hr hb hin => ?_⟩
  have stored : busWrite r.byteOffset v s = storeInput s v r := by
    rw [busWrite_byteOffset r v s hr, writeReg_input_idle v hin hb]
  obtain ⟨status, sameInstance, -, -, pending, rst⟩ := storeInput_frame s v r
  rw [stored]
  refine ⟨fun rest hi => ⟨s.delay - 1, ?_⟩, readReg_storeInput_same s v hin,
    fun q hq => readReg_storeInput_ne s v hq, status, sameInstance, pending, rst⟩
  rw [step_dueWrite (engineTurn_of_idle hb) hr hi, writeReg_input_idle (s := passTurn rest s) v hin hb,
    storeInput_passTurn]

/-! ### The pad states -/

/-- R46: the state with other pad states. -/
def State.withPads (s : State) (ip op : Digest) : State := { s with ipadH := ip, opadH := op }

section Pads

variable (s : State) (ip op : Digest)

/-- R46: no register shows the pad states. -/
theorem readReg_withPads (r : Reg) : readReg (s.withPads ip op) r = readReg s r := by
  cases r <;> rfl

theorem storeInput_withPads (v : Word) (r : Reg) :
    storeInput (s.withPads ip op) v r = (storeInput s v r).withPads ip op := by
  cases r <;> rfl

theorem accept_withPads (v : Word) : accept v (s.withPads ip op) = (accept v s).withPads ip op := by
  have delays : (latch v (s.withPads ip op)).delays = (latch v s).delays := rfl
  unfold accept startDelay
  rw [delays]
  split <;> rfl

/-- R46: a register write does the same whatever the pad states are. -/
theorem writeReg_withPads (v : Word) (r : Reg) :
    writeReg v (s.withPads ip op) r = (writeReg v s r).withPads ip op := by
  have busy : (s.withPads ip op).status.busy = s.status.busy := rfl
  unfold writeReg
  rw [busy]
  cases r.access with
  | readOnly => rfl
  | always => dsimp only; split <;> rfl
  | gated =>
    dsimp only
    rw [accept_withPads, storeInput_withPads]
    split
    · rfl
    · split <;> rfl

theorem busWrite_withPads (off : Nat) (v : Word) :
    busWrite off v (s.withPads ip op) = (busWrite off v s).withPads ip op := by
  have rst : (s.withPads ip op).rst = s.rst := rfl
  unfold busWrite
  rw [rst]
  split
  · rfl
  · cases Reg.ofOffset off with
    | none => rfl
    | some r => exact writeReg_withPads s ip op v r

theorem readValue_withPads (off : Nat) : readValue off (s.withPads ip op) = readValue off s := by
  have rst : (s.withPads ip op).rst = s.rst := rfl
  unfold readValue
  rw [rst]
  cases Reg.ofOffset off with
  | none => rfl
  | some r => dsimp only; rw [readReg_withPads]; rfl

end Pads

/-- No register write changes `KEYVALID`, `ACTLEN` or the pad states (R29, R33, R46). -/
theorem busWrite_sameInstance (off : Nat) (v : Word) (s : State) : SameInstance (busWrite off v s) s := by
  rcases busWrite_cases off v s with hw | ⟨-, -, hw⟩ | ⟨-, -, hw⟩ | ⟨-, r, -, -, -, hw⟩ | ⟨-, -, -, hw⟩ |
    ⟨-, r, -, -, -, -, hw⟩ <;> rw [hw]
  · exact ⟨rfl, rfl, rfl, rfl⟩
  · exact ⟨rfl, rfl, rfl, rfl⟩
  · exact ⟨rfl, rfl, rfl, rfl⟩
  · exact ⟨rfl, rfl, rfl, rfl⟩
  · obtain ⟨d, ds, n, haccept⟩ := accept_eq v s
    rw [haccept]
    exact ⟨rfl, rfl, rfl, rfl⟩
  · obtain ⟨-, sameInstance, -⟩ := storeInput_frame s v r
    exact sameInstance

/-- Settles O44: reads and writes commute with a change of the pad states, and writes leave these alone. -/
theorem padStatesAreNotAddressable : Obligations.PadStatesAreNotAddressable := by
  intro s ip op off v
  obtain ⟨-, -, ipad, opad⟩ := busWrite_sameInstance off v s
  exact ⟨readValue_withPads s ip op off, ipad, opad, busWrite_withPads s ip op off v⟩

end Sys2Proof.Machine
end

section
/-! PROOF. The host's turn, input by input (20_memory.md R60 to R67, 70_reset_and_hazards.md R201, R211): what a read returns
and leaves, which transfers are refused, and what a drive of the reset line does. -/

namespace Sys2Proof.Machine

open Sys2Proof.Statements

/-! ### Reads -/

/-- U14: with no reserved `ERRCODE` a read answers, with its value logged and a draw taken if the value is free. -/
theorem busRead_eq {s : State} (off : Nat) (herr : s.status.errcode.toNat ≤ 5) :
    busRead off s =
      .next (logRead off (readValue off s) (if readsFree off s then s.draws + 1 else s.draws) s) := by
  have noFault : readFaults off s = false := by
    simp only [readFaults, Bool.and_eq_false_imp, decide_eq_false_iff_not]
    omega
  rw [busRead, noFault]
  rfl

/-- R82: the model's write column is the table's. -/
theorem writesReg_eq_true_iff {i : Instr} {r : Reg} : writesReg i r = true ↔ r ∈ writeRow i := by
  have column : Reg.all.all (fun r => writesReg i r == decide (r ∈ writeRow i)) = true := by
    cases i <;> decide +kernel
  have here := Reg.forall_of_all column r
  rw [beq_iff_eq] at here
  rw [here, decide_eq_true_eq]

/-- R211: a register is unspecified exactly while a command with it in its write row is in progress. -/
theorem inProgress_eq_true_iff {s : State} {r : Reg} :
    inProgress s r = true ↔ s.status.busy = true ∧ ∃ i, decode s.pending = .ok i ∧ r ∈ writeRow i := by
  unfold inProgress fetched
  rw [Bool.and_eq_true]
  cases decode s.pending with
  | ok j => simp [writesReg_eq_true_iff]
  | error e => simp

section Read

variable {s : State} {r : Reg} (hr : s.rst = false)
include hr

/-- R67: a register no command in progress writes reads as it stands, without a draw. -/
theorem readValue_of_not_inProgress (h : inProgress s r = false) :
    readValue r.byteOffset s = readReg s r ∧ readsFree r.byteOffset s = false := by
  simp [readValue, readsFree, hr, Reg.ofOffset_byteOffset, h]

/-- R211: a register the command in progress writes reads as a free word, with a draw. -/
theorem readValue_of_inProgress (h : inProgress s r = true) :
    readValue r.byteOffset s = Config.freeRead s.draws ∧ readsFree r.byteOffset s = true := by
  simp [readValue, readsFree, hr, Reg.ofOffset_byteOffset, h]

/-- R82: no command has `STATUS` in its write row, so it always reads as it stands. -/
theorem readValue_status :
    readValue Reg.status.byteOffset s = readReg s .status ∧ readsFree Reg.status.byteOffset s = false := by
  refine readValue_of_not_inProgress hr (Bool.eq_false_iff.mpr fun h => ?_)
  obtain ⟨-, i, -, inRow⟩ := inProgress_eq_true_iff.mp h
  revert inRow
  cases i <;> decide

end Read

/-- R24: outside reset, with no reserved `ERRCODE`, a read of `STATUS` logs its word. -/
theorem busRead_status {s : State} (hr : s.rst = false) (herr : s.status.errcode.toNat ≤ 5) :
    busRead Reg.status.byteOffset s =
      .next (logRead Reg.status.byteOffset (readReg s .status) s.draws s) := by
  obtain ⟨value, notFree⟩ := readValue_status hr
  rw [busRead_eq _ herr, value, notFree]
  rfl

/-- R93: a due poll reads `STATUS`, and stays due while it shows `BUSY = 1`. -/
theorem hostTurn_wait {s : State} {rest : List Input} (hr : s.rst = false) (hi : s.inputs = .wait :: rest) :
    hostTurn s =
      busRead Reg.status.byteOffset (passTurn (if s.status.busy then .wait :: rest else rest) s) := by
  obtain ⟨value, -⟩ := readValue_status hr
  obtain ⟨busy, -⟩ := s.status.word_flags
  have bit : (readValue Reg.status.byteOffset s).getLsbD 0 = s.status.busy := by rw [value]; exact busy
  simp only [hostTurn, hi, bit]
  split <;> rfl

/-- Settles O42: the read's value by R211's cases, and the turn that performs a due read or poll. -/
theorem readsWhileBusy : Obligations.ReadsWhileBusy := by
  intro s herr
  refine ⟨fun off => ⟨_, busRead_eq off herr⟩, fun off rest ht ha hlt hi => ⟨s.delay - 1, ?due⟩,
    fun rest ht hr hi => ⟨s.delay - 1, ?poll⟩, fun r hr => ⟨fun outside => ?exact, fun i hb hd inRow => ?free⟩⟩
  case due => exact (step_host ht).trans (hostTurn_read hi ha hlt)
  case poll =>
    rw [step_host ht, hostTurn_wait hr hi, busRead_status (s := passTurn _ s) hr herr]
    rfl
  case exact =>
    have notInProgress : inProgress s r = false := by
      refine Bool.eq_false_iff.mpr fun h => ?_
      obtain ⟨hb, i, hd, inRow⟩ := inProgress_eq_true_iff.mp h
      exact outside i hb hd inRow
    obtain ⟨value, notFree⟩ := readValue_of_not_inProgress hr notInProgress
    rw [busRead_eq _ herr, value, notFree]
    rfl
  case free =>
    obtain ⟨value, isFree⟩ := readValue_of_inProgress hr (inProgress_eq_true_iff.mpr ⟨hb, i, hd, inRow⟩)
    rw [busRead_eq _ herr, value, isFree]
    rfl

/-- Settles O43: the turn logs one read over the state with the turn passed. -/
theorem readsHaveNoSideEffect : Obligations.ReadsHaveNoSideEffect := by
  intro s t ht isRead h
  have logged : ∃ off v n left, t = logRead off v n (passTurn left s) := by
    rw [step_host ht] at h
    rcases hostTurn_inv h with ⟨hi, -⟩ | ⟨off, v, rest, hi, -⟩ | ⟨off, rest, -, -, -, hread⟩ |
      ⟨rest, left, -, -, hread⟩ | ⟨level, rest, hi, -⟩
    · simp [hi] at isRead
    · simp [hi] at isRead
    · obtain ⟨n, hn⟩ := busRead_inv hread; exact ⟨_, _, n, rest, hn⟩
    · obtain ⟨n, hn⟩ := busRead_inv hread; exact ⟨_, _, n, left, hn⟩
    · simp [hi] at isRead
  obtain ⟨off, v, n, left, rfl⟩ := logged
  exact ⟨rfl, rfl, List.cons_ne_nil _ _⟩

/-! ### Refusals -/

/-- R61: a transfer of another size is refused by size. -/
theorem transferRefusal_of_size {off size : Nat} (h : size ≠ 4) : transferRefusal off size = some .transferSize :=
  if_pos h

/-- R61: a misaligned word is refused by alignment. -/
theorem transferRefusal_of_misaligned {off : Nat} (h : off % 4 ≠ 0) :
    transferRefusal off 4 = some .transferAlignment := by
  simp [transferRefusal, h]

/-- A due transfer with a reason to refuse it is refused. -/
theorem hostTurn_of_refusal {s : State} {off size : Nat} {v : Word} {rest : List Input} {reason : Refusal}
    (hi : s.inputs = .read off size :: rest ∨ s.inputs = .write off size v :: rest)
    (h : transferRefusal off size = some reason) : hostTurn s = .refused reason := by
  rcases hi with hi | hi <;> simp only [hostTurn, hi, h]

/-- A due transfer of an aligned word of the window answers a next state. -/
theorem hostTurn_answers_transfer {s : State} {off : Nat} {v : Word} {rest : List Input}
    (hi : s.inputs = .read off 4 :: rest ∨ s.inputs = .write off 4 v :: rest) (ha : off % 4 = 0) (hlt : off < 4096)
    (herr : s.status.errcode.toNat ≤ 5) : ∃ t, hostTurn s = .next t := by
  rcases hi with hi | hi
  · rw [hostTurn_read hi ha hlt]
    exact ⟨_, busRead_eq (s := passTurn rest s) off herr⟩
  · exact ⟨_, hostTurn_write hi ha hlt⟩

/-- Settles O45, by the reason `transferRefusal` gives. -/
theorem malformedTransfersAreRefused : Obligations.MalformedTransfersAreRefused := by
  intro s off size v rest ht hi
  rw [step_host ht]
  refine ⟨fun hsize => hostTurn_of_refusal hi (transferRefusal_of_size hsize), fun hsize ha => ?_,
    fun hsize ha hlt herr => ?_⟩
  · subst hsize
    exact hostTurn_of_refusal hi (transferRefusal_of_misaligned ha)
  · subst hsize
    exact hostTurn_answers_transfer hi ha hlt herr

/-! ### Reset -/

/-- R201: a due drive of the line that is one of reset leaves the reset state. -/
theorem hostTurn_reset {s : State} {level : Bool} {rest : List Input} (hi : s.inputs = .reset level :: rest) :
    hostTurn s = .next (driveReset level (passTurn rest s)) := by
  simp only [hostTurn, hi]

/-- Settles O56: under reset every guard of the core fails, and a drive is `resetCore`. -/
theorem resetAbandonsTheCommand : Obligations.ResetAbandonsTheCommand := by
  refine ⟨fun s off v hr => ⟨?_, ?_, busWrite_rst off v s hr, ?_⟩, fun s level rest ht hi hl => ?_⟩
  · simp [readValue, hr]
  · simp [readsFree, hr]
  · simp [engineTurn, hr]
  · have driven : ((passTurn rest s).rst || level) = true := by simpa using hl
    rw [step_host ht, hostTurn_reset hi, driveReset, if_pos driven]
    rfl

end Sys2Proof.Machine
end

section
/-! PROOF. What a host turn keeps (20_memory.md R66, R70, 70_reset_and_hazards.md R202, R215), busy and idle, and progress: a
sound state takes every input the bus can carry, and an accepted command completes (R214). -/

namespace Sys2Proof.Machine

open Sys2Proof.Safety Sys2Proof.Statements

/-! ### What a host turn keeps -/

/-- R201: outside reset a due drive of the line only passes the turn. -/
theorem driveReset_of_not_driven {s : State} {level : Bool} {rest : List Input} (ht : engineTurn s = false)
    (hreset : ¬ ResetDriven s) (hi : s.inputs = .reset level :: rest) :
    driveReset level (passTurn rest s) = passTurn rest s :=
  if_neg fun hl => hreset ⟨ht, level, rest, hi, by simpa using hl⟩

/-- While busy, a host turn outside reset changes at most the W1C flags, the enables, the agents' own data and the schedule. -/
theorem hostTurn_frame_busy {s t : State} (hb : s.status.busy = true) (ht : engineTurn s = false)
    (hreset : ¬ ResetDriven s) (h : hostTurn s = .next t) :
    t = { s with
      status := { s.status with done := t.status.done, err := t.status.err, busyerr := t.status.busyerr }
      inten := t.inten, inputs := t.inputs, reads := t.reads, delay := s.delay - 1, draws := t.draws } := by
  rcases hostTurn_inv h with ⟨-, rfl⟩ | ⟨off, v, rest, -, -, -, rfl⟩ | ⟨off, rest, -, -, -, hread⟩ |
    ⟨rest, left, -, -, hread⟩ | ⟨level, rest, hi, rfl⟩
  · rfl
  · rcases busWrite_cases off v (passTurn rest s) with hw | ⟨-, -, hw⟩ | ⟨-, -, hw⟩ | ⟨-, r, -, -, -, hw⟩ |
      ⟨-, -, idle, -⟩ | ⟨-, r, -, -, -, idle, -⟩
    · rw [hw]; rfl
    · rw [hw]; rfl
    · rw [hw]; rfl
    · rw [hw]; rfl
    · rw [passTurn_status, hb] at idle; cases idle
    · rw [passTurn_status, hb] at idle; cases idle
  · obtain ⟨n, rfl⟩ := busRead_inv hread; rfl
  · obtain ⟨n, rfl⟩ := busRead_inv hread; rfl
  · rw [driveReset_of_not_driven ht hreset hi]; rfl

section Quiet

variable {s : State} {r : Reg}

theorem readReg_acknowledge (v : Word) (hr : r ≠ .status) : readReg (acknowledge v s) r = readReg s r := by
  cases r with
  | status => exact absurd rfl hr
  | _ => rfl

theorem readReg_setInten (n : Inten) (hr : r ≠ .inten) : readReg (setInten n s) r = readReg s r := by
  cases r with
  | inten => exact absurd rfl hr
  | _ => rfl

theorem readReg_flagIgnored (hr : r ≠ .status) : readReg (flagIgnored s) r = readReg s r := by
  cases r with
  | status => exact absurd rfl hr
  | _ => rfl

theorem readReg_passTurn (rest : List Input) : readReg (passTurn rest s) r = readReg s r := by
  cases r <;> rfl

theorem readReg_logRead (off : Nat) (v : Word) (n : Nat) : readReg (logRead off v n s) r = readReg s r := by
  cases r <;> rfl

end Quiet

/-- What a host step outside reset leaves: the results, `KEYVALID`, `ACTLEN` and the pad states, the record of the
last command, the line. -/
def KeepsResults (s t : State) : Prop :=
  (∀ r, IsReadOnly r → readReg t r = readReg s r) ∧ SameInstance t s ∧ t.status.errcode = s.status.errcode ∧
    t.status.lastcmd = s.status.lastcmd ∧ t.rst = s.rst

theorem KeepsResults.refl (s : State) : KeepsResults s s :=
  ⟨fun _ _ => rfl, ⟨rfl, rfl, rfl, rfl⟩, rfl, rfl, rfl⟩

theorem passTurn_keepsResults (rest : List Input) (s : State) : KeepsResults s (passTurn rest s) :=
  ⟨fun _ _ => readReg_passTurn rest, ⟨rfl, rfl, rfl, rfl⟩, rfl, rfl, rfl⟩

theorem KeepsResults.trans {s t u : State} (h : KeepsResults s t) (h' : KeepsResults t u) : KeepsResults s u := by
  obtain ⟨reads, ⟨keyvalid, actlen, ipad, opad⟩, errcode, lastcmd, rst⟩ := h
  obtain ⟨reads', ⟨keyvalid', actlen', ipad', opad'⟩, errcode', lastcmd', rst'⟩ := h'
  exact ⟨fun r hr => (reads' r hr).trans (reads r hr),
    ⟨keyvalid'.trans keyvalid, actlen'.trans actlen, ipad'.trans ipad, opad'.trans opad⟩, errcode'.trans errcode,
    lastcmd'.trans lastcmd, rst'.trans rst⟩

/-- R44, R45, R47, R53: no register write changes a result. -/
theorem busWrite_keepsResults (off : Nat) (v : Word) (s : State) : KeepsResults s (busWrite off v s) := by
  have notOf {q r : Reg} (hq : IsReadOnly q) (hr : r.access ≠ .readOnly) : q ≠ r := fun hqr =>
    hr (hqr ▸ Reg.access_eq_readOnly.mpr hq)
  have same := busWrite_sameInstance off v s
  rcases busWrite_cases off v s with hw | ⟨-, -, hw⟩ | ⟨-, -, hw⟩ | ⟨-, r, -, -, -, hw⟩ | ⟨-, -, -, hw⟩ |
    ⟨-, r, gated, -, -, -, hw⟩ <;> rw [hw] at same ⊢
  · exact .refl s
  · exact ⟨fun q hq => readReg_acknowledge v (notOf hq (by decide)), same, rfl, rfl, rfl⟩
  · exact ⟨fun q hq => readReg_setInten _ (notOf hq (by decide)), same, rfl, rfl, rfl⟩
  · exact ⟨fun q hq => readReg_flagIgnored (notOf hq (by decide)), same, rfl, rfl, rfl⟩
  · exact ⟨fun q hq => readReg_accept v s (notOf hq (by decide)), same, by rw [accept_status]; rfl,
      by rw [accept_status]; rfl, accept_rst v s⟩
  · obtain ⟨status, -, -, -, -, rst⟩ := storeInput_frame s v r
    exact ⟨fun q hq => readReg_storeInput_ne s v (notOf hq (by simp [gated])), same, by rw [status], by rw [status], rst⟩

/-- A host turn outside reset keeps the results. -/
theorem hostTurn_keepsResults {s t : State} (ht : engineTurn s = false) (hreset : ¬ ResetDriven s)
    (h : hostTurn s = .next t) : KeepsResults s t := by
  have logged (off : Nat) (v : Word) (n : Nat) (left : List Input) :
      KeepsResults s (logRead off v n (passTurn left s)) :=
    ⟨fun _ _ => (readReg_logRead off v n).trans (readReg_passTurn left), ⟨rfl, rfl, rfl, rfl⟩, rfl, rfl, rfl⟩
  rcases hostTurn_inv h with ⟨-, rfl⟩ | ⟨off, v, rest, -, -, -, rfl⟩ | ⟨off, rest, -, -, -, hread⟩ |
    ⟨rest, left, -, -, hread⟩ | ⟨level, rest, hi, rfl⟩
  · exact passTurn_keepsResults [] s
  · exact (passTurn_keepsResults rest s).trans (busWrite_keepsResults off v _)
  · obtain ⟨n, rfl⟩ := busRead_inv hread; exact logged _ _ n rest
  · obtain ⟨n, rfl⟩ := busRead_inv hread; exact logged _ _ n left
  · rw [driveReset_of_not_driven ht hreset hi]
    exact passTurn_keepsResults rest s

/-- R202: with no input due the turn only counts. -/
theorem hostTurn_of_no_input {s : State} (hi : s.inputs = []) :
    hostTurn s = .next { s with delay := s.delay - 1 } := by
  have kept : passTurn s.inputs s = { s with delay := s.delay - 1 } := rfl
  rw [← kept, hostTurn, hi]

/-- Settles O54, from the two frames of the host's turn and the turns with nothing and with a write due. -/
theorem inputsAreHeldWhileBusy : Obligations.InputsAreHeldWhileBusy := by
  refine ⟨fun s t hb ht hreset h => ?busy, fun s t hb hreset h => ?idle, fun s ht hi => ⟨s.delay - 1, ?none⟩,
    fun s off v rest ht ha hlt hi => ⟨s.delay - 1, ?write⟩⟩
  case busy => exact hostTurn_frame_busy hb ht hreset ((step_host ht).symm.trans h)
  case idle =>
    have ht := engineTurn_of_idle hb
    exact hostTurn_keepsResults ht hreset ((step_host ht).symm.trans h)
  case none => rw [step_host ht, hostTurn_of_no_input hi]
  case write => exact (step_host ht).trans (hostTurn_write hi ha hlt)

/-! ### Progress -/

/-- R61: with no reserved `ERRCODE` the host's turn answers every input the bus can carry, and the reset line. -/
theorem hostTurn_answers {s : State} (herr : s.status.errcode.toNat ≤ 5)
    (hin : ∀ x ∈ s.inputs, HostInput x ∨ ∃ level, x = .reset level) : ∃ t, hostTurn s = .next t := by
  have readAnswers (off : Nat) (left : List Input) : ∃ t, busRead off (passTurn left s) = .next t :=
    ⟨_, busRead_eq (s := passTurn left s) off herr⟩
  cases hi : s.inputs with
  | nil => exact ⟨_, hostTurn_of_no_input hi⟩
  | cons x rest =>
    have due := hin x (hi ▸ List.mem_cons_self)
    cases x with
    | write off size v =>
      have wellFormed : Transfer.wellFormed off size = true := by simpa [HostInput] using due
      simp [hostTurn, hi, transferRefusal_eq_none.mpr wellFormed]
    | read off size =>
      have wellFormed : Transfer.wellFormed off size = true := by simpa [HostInput] using due
      simp only [hostTurn, hi, transferRefusal_eq_none.mpr wellFormed]
      exact readAnswers off rest
    | wait =>
      simp only [hostTurn, hi]
      split
      · exact readAnswers _ _
      · exact readAnswers _ rest
    | reset level => exact ⟨_, hostTurn_reset hi⟩

/-- Settles O59: both agents' turns answer. -/
theorem soundStatesNeverStop : Obligations.SoundStatesNeverStop := by
  intro s hs hin stops
  cases ht : engineTurn s with
  | true =>
    obtain ⟨t, h⟩ := engine_answers ht
    exact stops t h
  | false =>
    obtain ⟨t, h⟩ := hostTurn_answers hs.errcode hin
    exact stops t ((step_host ht).trans h)

theorem busWrite_inputs (off : Nat) (v : Word) (s : State) : (busWrite off v s).inputs = s.inputs := by
  rcases busWrite_cases off v s with hw | ⟨-, -, hw⟩ | ⟨-, -, hw⟩ | ⟨-, r, -, -, -, hw⟩ | ⟨-, -, -, hw⟩ |
    ⟨-, r, -, -, -, -, hw⟩ <;> rw [hw]
  · rfl
  · rfl
  · rfl
  · exact accept_inputs v s
  · cases r <;> rfl

/-- A host turn adds no input. -/
theorem hostTurn_inputs_subset {s t : State} (h : hostTurn s = .next t) : t.inputs ⊆ s.inputs := by
  rcases hostTurn_inv h with ⟨hi, rfl⟩ | ⟨off, v, rest, hi, -, -, rfl⟩ | ⟨off, rest, hi, -, -, hread⟩ |
    ⟨rest, left, hi, hleft, hread⟩ | ⟨level, rest, hi, rfl⟩
  · exact List.nil_subset _
  · rw [busWrite_inputs, hi]; exact List.subset_cons_self _ _
  · obtain ⟨n, rfl⟩ := busRead_inv hread
    rw [hi]; exact List.subset_cons_self _ _
  · obtain ⟨n, rfl⟩ := busRead_inv hread
    rcases hleft with rfl | rfl
    · exact List.Subset.refl _
    · rw [hi]; exact List.subset_cons_self _ _
  · have kept : (driveReset level (passTurn rest s)).inputs = rest := by
      unfold driveReset
      split <;> rfl
    rw [kept, hi]; exact List.subset_cons_self _ _

/-- R201: no command is in progress while the line is high. -/
theorem rst_eq_false_of_sound_busy {s : State} (hs : Sound s) (hb : s.status.busy = true) : s.rst = false := by
  refine Bool.eq_false_iff.mpr fun hr => ?_
  have idle : s.status.busy = false := congrArg (·.status.busy) (hs.reset hr)
  rw [hb] at idle
  cases idle

/-- A run begins with its first step. -/
theorem run_succ_of_step {M : Host.Core} {k : Nat} {s t : M.State} (h : M.step s = .next t) :
    M.run (k + 1) s = M.run k t := by
  rw [Host.Core.run, h]

/-- The run of an accepted command, by the host turns left before the engine's. -/
theorem run_completes (d : Nat) {s : State} (hd : s.delay = d) (hs : Sound s) (hb : s.status.busy = true)
    (hin : ∀ x ∈ s.inputs, HostInput x) :
    ∃ t, core.run (d + 1) s = .next t ∧ t.status.busy = false ∧ t.status.done = true ∧
      t.status.lastcmd = s.pending.extractLsb' 0 4 := by
  induction d generalizing s with
  | zero =>
    have ht := engineTurn_iff.mpr ⟨hb, rst_eq_false_of_sound_busy hs hb, hd⟩
    obtain ⟨t, h⟩ := engine_answers ht
    obtain ⟨f, e, -, -, hf⟩ := status_of_engineTurn h ht
    exact ⟨t, run_succ_of_step (M := core) h, by rw [hf]; exact ⟨rfl, rfl, rfl⟩⟩
  | succ d ih =>
    have ht : engineTurn s = false := engineTurn_of_delay (by omega)
    have noReset : ¬ ResetDriven s := fun ⟨_, level, rest, hi, _⟩ => hin (.reset level) (hi ▸ List.mem_cons_self)
    obtain ⟨t, hh⟩ := hostTurn_answers hs.errcode fun x hx => .inl (hin x hx)
    have h := (step_host ht).trans hh
    have frame := hostTurn_frame_busy hb ht noReset hh
    have delay : t.delay = d := (congrArg State.delay frame).trans (by simp [hd])
    have busy : t.status.busy = true := (congrArg (·.status.busy) frame).trans hb
    have pending : t.pending = s.pending := (congrArg State.pending frame).trans rfl
    obtain ⟨u, hrun, completed⟩ := ih delay (invariantIsKeptByEveryStep s t hs h) busy fun x hx =>
      hin x (hostTurn_inputs_subset hh hx)
    exact ⟨u, (run_succ_of_step (M := core) h).trans hrun, pending ▸ completed⟩

/-- Settles O60, by induction on the host turns left. -/
theorem acceptedCommandCompletes : Obligations.AcceptedCommandCompletes :=
  fun _ hs hb hin => run_completes _ rfl hs hb hin

end Sys2Proof.Machine
end

section
/-! PROOF. Byte strings and words (00_scope.md R12, R14, 41_hmac.md R120, R121): the bytes of a word array by index, the
zero-padded key, and the host's `LDKEY` (30_encoding.md R93). -/

namespace Sys2Proof.Machine

open Sys2Proof.Statements

/-! ### Bytes by index -/

theorem wordBytes_zero (j : Nat) : (wordBytes 0).getD j 0 = 0 := by
  match j with
  | 0 | 1 | 2 | 3 => rfl
  | _ + 4 => rfl

/-- R14: byte p of a word array is byte `p mod 4` of its word `p div 4`. -/
theorem bytesOf_getD (ws : List Word) (p : Nat) :
    (bytesOf ws).getD p 0 = (wordBytes (ws.getD (p / 4) 0)).getD (p % 4) 0 := by
  induction ws generalizing p with
  | nil => exact (wordBytes_zero _).symm
  | cons w ws ih =>
    rw [bytesOf_cons]
    have four : (wordBytes w).length = 4 := rfl
    by_cases hp : p < 4
    · rw [List.getD_append _ _ _ _ (by omega), Nat.div_eq_of_lt hp, Nat.mod_eq_of_lt hp, List.getD_cons_zero]
    · have later : p / 4 = (p - 4) / 4 + 1 := by omega
      rw [List.getD_append_right _ _ _ _ (by omega), four, ih, later, List.getD_cons_succ,
        show (p - 4) % 4 = p % 4 by omega]

/-- R12: the bytes of a big-endian word of a byte string are the string's. -/
theorem wordBytes_be32At_getD (k : List Byte) (i : Nat) {j : Nat} (hj : j < 4) :
    (wordBytes (be32At k i)).getD j 0 = k.getD (i + j) 0 := by
  rw [be32At, wordBytes_be32]
  match j, hj with
  | 0, _ | 1, _ | 2, _ | 3, _ => rfl

/-- Exclusive or acts byte by byte. -/
theorem wordBytes_xor_getD (w x : Word) (j : Nat) :
    (wordBytes (w ^^^ x)).getD j 0 = (wordBytes w).getD j 0 ^^^ (wordBytes x).getD j 0 := by
  match j with
  | 0 | 1 | 2 | 3 => exact BitVec.extractLsb'_xor
  | _ + 4 => exact BitVec.xor_self.symm

theorem getD_take {xs : List Byte} {n p : Nat} (hp : p < n) : (xs.take n).getD p 0 = xs.getD p 0 := by
  rw [List.getD_eq_getElem?_getD, List.getElem?_take_of_lt hp, ← List.getD_eq_getElem?_getD]

/-- Two byte strings of one length that agree byte by byte are equal. -/
theorem eq_of_getD_eq {xs ys : List Byte} (hlen : xs.length = ys.length)
    (h : ∀ p < xs.length, xs.getD p 0 = ys.getD p 0) : xs = ys := by
  refine List.ext_getElem hlen fun p hx hy => ?_
  rw [← List.getD_eq_getElem xs 0 hx, ← List.getD_eq_getElem ys 0 hy, h p hx]

/-! ### Blocks by index -/

theorem blockOf_getElem (f : Nat → Word) {k : Nat} (hk : k < 16) : (blockOf f)[k] = f k := by
  interval_cases k <;> rfl

theorem block_toList_getD (b : Block) {k : Nat} (hk : k < 16) : b.toList.getD k 0 = b[k] := by
  have inBlock : k < b.toList.length := by rwa [Vector.length_toList]
  rw [List.getD_eq_getElem _ _ inBlock, Vector.getElem_toList]

theorem bytesOf_block_length (b : Block) : (bytesOf b.toList).length = 64 := by
  rw [bytesOf_length, Vector.length_toList]

/-! ### The zero-padded key -/

/-- R121: the core's key has `KEYLEN` bytes. -/
theorem keyBytes_length {s : State} (h : s.keylen.toNat ≤ 64) : s.keyBytes.length = s.keylen.toNat := by
  rw [State.keyBytes, List.length_take, bytesOf_block_length, Nat.min_eq_left h]

theorem zeroPadKey_length {k : List Byte} (h : k.length ≤ 64) : (zeroPadKey k).length = 64 := by
  rw [zeroPadKey, List.length_append, List.length_replicate]
  omega

/-- R120, R121: the core's K0 is the zero-padded key, byte by byte. -/
theorem zeroPadKey_getD {s : State} (h : s.keylen.toNat ≤ 64) (j : Nat) :
    (zeroPadKey s.keyBytes).getD j 0 = k0Byte s.key s.keylen j := by
  have hlen := keyBytes_length h
  unfold zeroPadKey k0Byte
  split
  next hj =>
    rw [List.getD_append _ _ _ _ (by omega), State.keyBytes, getD_take hj]
  next hj => rw [List.getD_append_right _ _ _ _ (by omega), List.getD_eq_getElem?_getD,
      List.getElem?_getD_replicate_default_eq]

/-- R121: `K0w[k]` is the word of the zero-padded key at 4k. -/
theorem k0Word_eq {s : State} (h : s.keylen.toNat ≤ 64) (k : Nat) :
    k0Word s.key s.keylen k = be32At (zeroPadKey s.keyBytes) (4 * k) := by
  simp only [k0Word, be32At, zeroPadKey_getD h]

/-- R122: a block that holds the padded key's words, each xored with the pad, is the pad block. -/
theorem padBlock_eq {s : State} {pad : Word} {b : Block} (h : s.keylen.toNat ≤ 64)
    (hb : ∀ (k : Nat) (hk : k < 16), b[k] = be32At (zeroPadKey s.keyBytes) (4 * k) ^^^ pad) :
    padBlock s.key s.keylen pad = b := by
  refine Vector.ext fun k hk => ?_
  rw [hb k hk, padBlock, blockOf_getElem _ hk, k0Word_eq h]

/-- R120, R122: the bytes of the pad block are those of the zero-padded key, each xored with the pad's byte. -/
theorem bytesOf_padBlock {s : State} {pad : Word} {p : Byte} (h : s.keylen.toNat ≤ 64)
    (hpad : ∀ j < 4, (wordBytes pad).getD j 0 = p) :
    bytesOf (padBlock s.key s.keylen pad).toList = (zeroPadKey s.keyBytes).map (· ^^^ p) := by
  have hlen : (zeroPadKey s.keyBytes).length = 64 := zeroPadKey_length (by rw [keyBytes_length h]; exact h)
  refine eq_of_getD_eq (by rw [bytesOf_block_length, List.length_map, hlen]) fun j hj => ?_
  rw [bytesOf_block_length] at hj
  have hword : j / 4 < 16 := by omega
  have hbyte : j % 4 < 4 := Nat.mod_lt _ (by decide)
  have hindex : 4 * (j / 4) + j % 4 = j := Nat.div_add_mod j 4
  calc (bytesOf (padBlock s.key s.keylen pad).toList).getD j 0
    _ = (wordBytes (k0Word s.key s.keylen (j / 4) ^^^ pad)).getD (j % 4) 0 := by
      rw [bytesOf_getD, block_toList_getD _ hword, padBlock, blockOf_getElem _ hword]
    _ = k0Byte s.key s.keylen j ^^^ p := by
      rw [wordBytes_xor_getD, wordBytes_k0Word_getD _ _ _ hbyte, hindex, hpad _ hbyte]
    _ = ((zeroPadKey s.keyBytes).map (· ^^^ p)).getD j 0 := by
      rw [← zeroPadKey_getD h, List.getD_eq_getElem _ _ (by omega), List.getD_eq_getElem _ _ (by simpa [hlen] using hj),
        List.getElem_map]

/-! ### `LDKEY` -/

theorem applyWrites_append (xs ys : List Input) (s : State) :
    applyWrites (xs ++ ys) s = applyWrites ys (applyWrites xs s) := by
  induction xs generalizing s with
  | nil => rfl
  | cons x xs ih =>
    cases x with
    | write off size v => exact ih _
    | _ => exact ih _

/-- The words of k are in the key buffer of t up to word n, over the flags of s. -/
def KeyLoaded (k : List Byte) (n : Nat) (s t : State) : Prop :=
  t.rst = false ∧ t.status = s.status ∧ ∀ j < n, readReg t (keyReg j) = be32At k (4 * j)

/-- The first n key writes of `LDKEY` (R93). -/
def keyWrites (k : List Byte) (n : Nat) : List Input :=
  (List.range n).map fun j => wr (keyReg j) (be32At k (4 * j))

/-- While idle and outside reset a host write to an input register is a store. -/
theorem applyWrites_wr {t : State} {r : Reg} (v : Word) (hin : IsInput r) (hr : t.rst = false)
    (hb : t.status.busy = false) : applyWrites [wr r v] t = storeInput t v r :=
  (busWrite_byteOffset r v t hr).trans (writeReg_input_idle v hin hb)

/-- R93: the key writes of `LDKEY` put word after word in place. -/
theorem keyLoaded_of_keyWrites (k : List Byte) {s : State} (hr : s.rst = false) (hb : s.status.busy = false) {n : Nat}
    (hn : n ≤ 16) : KeyLoaded k n s (applyWrites (keyWrites k n) s) := by
  induction n with
  | zero => exact ⟨hr, rfl, fun j hj => absurd hj (Nat.not_lt_zero j)⟩
  | succ n ih =>
    have input : IsInput (keyReg n) := .inr (.inr (.inr ⟨_, rfl⟩))
    obtain ⟨rst, status, words⟩ := ih (by omega)
    have idle : (applyWrites (keyWrites k n) s).status.busy = false := by rw [status, hb]
    rw [keyWrites, List.range_succ, List.map_append, applyWrites_append, List.map_cons, List.map_nil, ← keyWrites,
      applyWrites_wr _ input rst idle]
    refine ⟨rst, status, fun j hj => ?_⟩
    rcases Nat.lt_or_eq_of_le (Nat.le_of_lt_succ hj) with hlt | rfl
    · have other : keyReg j ≠ keyReg n := fun h => by
        have index : j % 16 = n % 16 := congrArg Fin.val (Reg.key.inj h)
        omega
      rw [readReg_storeInput_ne _ _ other, words j hlt]
    · rw [readReg_storeInput_same _ _ input]
      exact BitVec.and_allOnes

/-- The first n bytes of the key buffer are k, once its words are in place. -/
theorem take_key_of_keyLoaded {k : List Byte} {s t : State} (hk : k.length ≤ 64)
    (h : KeyLoaded k ((k.length + 3) / 4) s t) : (bytesOf t.key.toList).take k.length = k := by
  obtain ⟨-, -, words⟩ := h
  have hlen : ((bytesOf t.key.toList).take k.length).length = k.length := by
    rw [List.length_take, bytesOf_block_length, Nat.min_eq_left hk]
  refine eq_of_getD_eq hlen fun p hp => ?_
  rw [hlen] at hp
  have hword : p / 4 < 16 := by omega
  have word : t.key[p / 4] = be32At k (4 * (p / 4)) := by
    rw [← words (p / 4) (by omega)]
    exact getElem_congr_idx (Nat.mod_eq_of_lt hword).symm
  rw [getD_take hp, bytesOf_getD, block_toList_getD _ hword, word, wordBytes_be32At_getD _ _ (Nat.mod_lt _ (by decide)),
    Nat.div_add_mod]

/-- Settles O47: the words are in place, and `KEYLEN` takes that many bytes of them. -/
theorem ldkeyLoadsTheKey : Obligations.LdkeyLoadsTheKey := by
  intro k s hk hr hb
  obtain ⟨rst, status, words⟩ := keyLoaded_of_keyWrites k hr hb (n := (k.length + 3) / 4) (by omega)
  have taken := take_key_of_keyLoaded hk ⟨rst, status, words⟩
  have keylen : ((BitVec.ofNat 32 k.length).extractLsb' 0 7).toNat = k.length := by
    rw [BitVec.extractLsb'_toNat, BitVec.toNat_ofNat]
    omega
  have idle : (applyWrites (keyWrites k ((k.length + 3) / 4)) s).status.busy = false := by rw [status, hb]
  rw [ldkey, ← keyWrites, applyWrites_append, applyWrites_wr _ (.inl (by decide)) rst idle]
  exact ⟨(congrArg (List.take · _) keylen).trans taken, status⟩

end Sys2Proof.Machine
end

section
/-! PROOF. Hashing messages (40_sha1.md R106 to R110) and HMAC-SHA1 of the counter (41_hmac.md R120 to R125): the blocks of a
message that begins with a whole block, and what the key commands leave for given pad states. -/

namespace Sys2Proof.Machine

open Sys2Proof.Statements

/-! ### Messages -/

/-- R110: `SHA_BLOCK` on one block after the other folds the compression over them. -/
theorem hashesTo_foldl (bs : List Block) (s : State) : ∃ t, HashesTo bs s t ∧ t.h = bs.foldl compress s.h := by
  induction bs generalizing s with
  | nil => exact ⟨s, rfl, rfl⟩
  | cons b bs ih =>
    obtain ⟨t, hashes, h⟩ := ih (complete .ok ({ s with block := b }.setH (compress s.h b)))
    exact ⟨t, ⟨_, exec_of_effect (i := .shaBlock) rfl, hashes⟩, h⟩

/-- Settles O17: SHA1 of the message is the fold over its blocks from the initial value. -/
theorem hostHashesAnyMessage : Obligations.HostHashesAnyMessage := by
  intro m s hiv
  obtain ⟨t, hashes, h⟩ := hashesTo_foldl (messageBlocks m) s
  refine ⟨t, hashes, ?_⟩
  rw [h, hiv]
  rfl

/-- A block is read off sixteen words of a word string. -/
theorem blocksOf_succ (n : Nat) (b : Block) (ws : List Word) :
    blocksOf (n + 1) (b.toList ++ ws) = b :: blocksOf n ws := by
  have sixteen : b.toList.length = 16 := Vector.length_toList
  rw [blocksOf, List.drop_left' sixteen]
  congr 1
  refine Vector.ext fun k hk => ?_
  rw [blockOf_getElem _ hk, List.getD_append _ _ _ _ (by omega), block_toList_getD b hk]

/-- R106: a message padded to two blocks hashes to their two compressions. -/
theorem sha1_of_padMessage_eq {m : List Byte} {b c : Block}
    (h : padMessage m = bytesOf b.toList ++ bytesOf c.toList) : sha1 m = compress (compress sha1IV b) c := by
  have joined : padMessage m = bytesOf (b.toList ++ (c.toList ++ [])) := by
    rw [h, List.append_nil, bytesOf, bytesOf, bytesOf, List.flatMap_append]
  have two : (padMessage m).length / 64 = 2 := by
    rw [h, List.length_append, bytesOf_block_length, bytesOf_block_length]
  rw [sha1, messageBlocks, two, joined, wordsOf_bytesOf, blocksOf_succ, blocksOf_succ]
  rfl

/-- R107: a message that begins with a whole block is padded at its end. -/
theorem padMessage_append (b : Block) (m : List Byte) :
    padMessage (bytesOf b.toList ++ m) = bytesOf b.toList ++ (m ++ 0x80 ::
      List.replicate (padZeros (64 + m.length)) 0 ++ be64Bytes (BitVec.ofNat 64 (8 * (64 + m.length)))) := by
  rw [padMessage, List.length_append, bytesOf_block_length]
  simp only [List.append_assoc]

/-- R123: the padding of a 72-byte message, as words. -/
theorem padding_of_72 : (0x80 :: List.replicate (padZeros 72) 0 ++ be64Bytes (BitVec.ofNat 64 (8 * 72))) =
    bytesOf [0x80000000, 0, 0, 0, 0, 0, 0, 0, 0, 0, 0, 0, 0, 0x00000240] := by
  decide

/-- R124: the padding of an 84-byte message, as words. -/
theorem padding_of_84 : (0x80 :: List.replicate (padZeros 84) 0 ++ be64Bytes (BitVec.ofNat 64 (8 * 84))) =
    bytesOf [0x80000000, 0, 0, 0, 0, 0, 0, 0, 0, 0, 0x000002A0] := by
  decide

/-- R123: the inner message, a block and the eight counter bytes, ends in the inner block. -/
theorem sha1_of_block_counter (b : Block) (c : DWord) :
    sha1 (bytesOf b.toList ++ be64Bytes c) = compress (compress sha1IV b) (innerBlock c) := by
  refine sha1_of_padMessage_eq ?_
  rw [padMessage_append, be64Bytes_length, List.append_assoc, padding_of_72]
  rfl

theorem digest_toList (d : Digest) : d.toList = [d[0], d[1], d[2], d[3], d[4]] := by
  refine List.ext_getElem (by simp) fun i hi _ => ?_
  rw [Vector.length_toList] at hi
  interval_cases i <;> simp

/-- R124: the outer message, a block and the inner digest, ends in the outer block. -/
theorem sha1_of_block_digest (b : Block) (d : Digest) :
    sha1 (bytesOf b.toList ++ bytesOf d.toList) = compress (compress sha1IV b) (outerBlock d) := by
  refine sha1_of_padMessage_eq ?_
  have twenty : (bytesOf d.toList).length = 20 := by rw [bytesOf_length, Vector.length_toList]
  rw [padMessage_append, twenty, List.append_assoc, padding_of_84, digest_toList]
  rfl

/-! ### HMAC of the counter -/

/-- R120 to R124: for the pad states of the core's key, the digest of the counter is HMAC-SHA1 of its bytes. -/
theorem hmacOfCounter_eq_hmacSha1 {s : State} (h : s.keylen.toNat ≤ 64) (c : DWord) :
    hmacOfCounter (ipadState s.key s.keylen) (opadState s.key s.keylen) c = hmacSha1 s.keyBytes (be64Bytes c) := by
  have inner := bytesOf_padBlock (pad := 0x36363636) (p := 0x36) h (by decide)
  have outer := bytesOf_padBlock (pad := 0x5C5C5C5C) (p := 0x5C) h (by decide)
  rw [hmacSha1, ← inner, ← outer, sha1Bytes, sha1_of_block_counter, sha1_of_block_digest]
  rfl

/-- A success that writes `DIGEST`, with the flags of success written out. -/
theorem complete_ok_setDigest (s : State) (d : Digest) :
    complete .ok (s.setDigest d) = { s with digest := d, status := okStatus s } :=
  complete_ok (s.setDigest d)

/-- A success that sets the pad states up, with the flags of success written out. -/
theorem complete_ok_setInstance (s : State) (ip op : Digest) (len : BitVec 4) :
    complete .ok (s.setInstance ip op len) =
      { s with ipadH := ip, opadH := op, status := { okStatus s with actlen := len, keyvalid := true } } :=
  complete_ok (s.setInstance ip op len)

/-- R124: with `KEYVALID = 1`, `HMAC_CTR` answers the digest of the counter. -/
theorem exec_hmacCtr {s : State} (hk : s.status.keyvalid = true) :
    exec .hmacCtr s = .next (complete .ok (s.setDigest (hmacOfCounter s.ipadH s.opadH s.counter))) :=
  exec_of_effect (i := .hmacCtr) ⟨hk, rfl⟩

/-- R142: with `KEYVALID = 1`, `HOTP` answers the results of `hotp` of the counter. -/
theorem exec_hotp {s : State} (hk : s.status.keyvalid = true) :
    exec .hotp s = .next (complete .ok (setHotp s.counter s)) :=
  exec_of_effect (i := .hotp) ⟨hk, rfl⟩

/-- R153: with `KEYVALID = 1` and a period, `TOTP_GEN` answers the results of `hotp` of the time step. -/
theorem exec_totpGen {s : State} (hk : s.status.keyvalid = true) (hp : s.period ≠ 0) :
    exec .totpGen s =
      .next (complete .ok (setHotp (timeStep s.time s.period) (s.setCounter (timeStep s.time s.period)))) :=
  exec_of_effect (i := .totpGen) ⟨hk, hp, rfl⟩

/-- `hotp` of any counter leaves `COUNTER` as it was set. -/
theorem counter_of_totpGen (s : State) (c d : DWord) :
    (complete .ok (setHotp d (s.setCounter c))).counter = c := by
  simp only [State.counter, complete_counterHi, complete_counterLo, setHotp_counterHi, setHotp_counterLo,
    State.setCounter_counterHi, State.setCounter_counterLo, pair_hiWord_loWord]

/-- Settles O18: the pad blocks of the byte string K0 are the model's. -/
theorem keySetupMakesTheInstance : Obligations.KeySetupMakesTheInstance := by
  refine ⟨rfl, fun s ip op hk h1 h10 hip hop => ?_⟩
  rw [exec_of_effect (i := .keySetup) ⟨hk, h1, h10, rfl⟩, complete_ok_setInstance, ipadState, opadState,
    padBlock_eq hk hip, padBlock_eq hk hop]

/-- Settles O20: the counter's block is written from the two counter words. -/
theorem hmacCtrHashesTheCounterBlocks : Obligations.HmacCtrHashesTheCounterBlocks := by
  refine ⟨rfl, fun s hk => reports_of_raised (exec_of_not_keyvalid (by decide) hk), fun s inner hk hinner => ?_⟩
  have block : innerBlock s.counter =
      #v[s.counterHi, s.counterLo, 0x80000000, 0, 0, 0, 0, 0, 0, 0, 0, 0, 0, 0, 0, 0x00000240] := by
    simp only [innerBlock, State.counter, hiWord_pair, loWord_pair]
  rw [exec_hmacCtr hk, complete_ok_setDigest, hmacOfCounter, block, ← hinner, outerBlock]

/-- Settles O21: `KEY_SETUP` leaves the pad states of the key. -/
theorem hmacCtrIsHmacSha1OfTheCounter : Obligations.HmacCtrIsHmacSha1OfTheCounter := by
  intro s t u h h0 hu
  obtain ⟨_, ⟨hk, -, -, rfl⟩, rfl⟩ := exec_inv_of_success h h0
  obtain ⟨keyvalid, -, ipad, opad⟩ := hu
  refine ⟨_, exec_hmacCtr keyvalid, rfl, ?_⟩
  rw [complete_digest, State.setDigest_digest, ipad, opad]
  exact hmacOfCounter_eq_hmacSha1 hk u.counter

/-- Settles O22: the three effects use `ACTLEN`, the pad states and the counter, or `TIME` and `PERIOD`, alone. -/
theorem codesDependOnInstanceAndCounterAlone : Obligations.CodesDependOnInstanceAndCounterAlone := by
  rintro s s' ⟨valid, actlen, ipad, opad⟩ hk
  have hk' : s'.status.keyvalid = true := valid.symm.trans hk
  refine ⟨fun hc => ⟨⟨_, _, exec_hmacCtr hk, exec_hmacCtr hk', ?hmac⟩, ⟨_, _, exec_hotp hk, exec_hotp hk', ?hotp⟩⟩,
    fun ht hp hp0 => ⟨_, _, exec_totpGen hk hp0, exec_totpGen hk' (hp ▸ hp0), ?totp⟩⟩
  case hmac => simp only [complete_digest, State.setDigest_digest, ipad, opad, hc]
  case hotp =>
    simp only [complete_digest, complete_offset, complete_dtval, complete_code, setHotp_digest, setHotp_offset,
      setHotp_dtval, setHotp_code, actlen, ipad, opad, hc, and_self]
  case totp =>
    rw [counter_of_totpGen, counter_of_totpGen]
    simp only [complete_digest, complete_offset, complete_dtval, complete_code, setHotp_digest, setHotp_offset,
      setHotp_dtval, setHotp_code, State.setCounter_status, State.setCounter_ipadH, State.setCounter_opadH, actlen, ipad,
      opad, ht, hp, and_self]

end Sys2Proof.Machine
end

section
/-! PROOF. Truncation, codes and their decimal strings (42_truncation.md R140 to R143). -/

namespace Sys2Proof.Machine

open Sys2Proof.Statements

/-! ### Truncation -/

/-- R140: the offset is the last byte modulo 16. -/
theorem truncOffset_toNat (d : Digest) : (truncOffset d).toNat = ((bytesOf d.toList).getD 19 0).toNat % 16 :=
  BitVec.extractLsb'_toNat ..

/-- R140: the DT value is the big-endian value of the four bytes at the offset, modulo 2^31. -/
theorem truncValue_toNat (d : Digest) :
    (truncValue d).toNat =
      (((bytesOf d.toList).getD (truncOffset d).toNat 0).toNat * 2 ^ 24 +
        ((bytesOf d.toList).getD ((truncOffset d).toNat + 1) 0).toNat * 2 ^ 16 +
        ((bytesOf d.toList).getD ((truncOffset d).toNat + 2) 0).toNat * 2 ^ 8 +
        ((bytesOf d.toList).getD ((truncOffset d).toNat + 3) 0).toNat) % 2 ^ 31 := by
  rw [truncValue, BitVec.extractLsb'_toNat, be32At, be32_toNat, Nat.shiftRight_zero]

/-- R141: with `KEYVALID = 1`, `TRUNC` answers the truncation of `DIGEST`. -/
theorem exec_trunc {s : State} (hk : s.status.keyvalid = true) :
    exec .trunc s = .next (complete .ok (truncateDigest s.digest s)) :=
  exec_of_effect (i := .trunc) ⟨hk, rfl⟩

/-- A success that writes the truncation results, with the flags of success written out. -/
theorem complete_ok_truncateDigest (d : Digest) (s : State) :
    complete .ok (truncateDigest d s) = { s with
      offset := truncOffset d, dtval := truncValue d, code := codeOf (truncValue d) s.status.actlen
      status := okStatus s } :=
  complete_ok (truncateDigest d s)

/-- Settles O24: the three results in natural-number arithmetic. -/
theorem truncFollowsDynamicTruncation : Obligations.TruncFollowsDynamicTruncation := by
  refine ⟨rfl, fun s hk => reports_of_raised (exec_of_not_keyvalid (by decide) hk), fun s hk => ?_⟩
  refine ⟨_, exec_trunc hk, complete_ok_truncateDigest s.digest s, ?_⟩
  exact ⟨truncOffset_toNat s.digest, truncValue_toNat s.digest, codeOf_toNat (truncValue s.digest) s.status.actlen⟩

/-- Completing a success twice is completing it once. -/
theorem complete_ok_complete_ok (s : State) : complete .ok (complete .ok s) = complete .ok s := by
  rw [complete_ok, complete_ok]
  rfl

/-- Truncation takes nothing that completion writes. -/
theorem truncateDigest_complete (d : Digest) (e : Err) (s : State) :
    truncateDigest d (complete e s) = complete e (truncateDigest d s) := rfl

/-- The writes of `hotp` take nothing that completion writes. -/
theorem setHotp_complete (c : DWord) (e : Err) (s : State) :
    setHotp c (complete e s) = complete e (setHotp c s) := rfl

/-- Settles O25: the digest `HMAC_CTR` leaves is the one `TRUNC` truncates. -/
theorem hotpIsHmacCtrThenTrunc : Obligations.HotpIsHmacCtrThenTrunc := by
  refine ⟨rfl, fun s hk => reports_of_raised (exec_of_not_keyvalid (by decide) hk), fun s hk => ?_⟩
  refine ⟨_, _, exec_hmacCtr hk, exec_trunc hk, ?_, rfl, rfl, rfl⟩
  rw [complete_digest, State.setDigest_digest, truncateDigest_complete, complete_ok_complete_ok, exec_hotp hk, setHotp]

/-! ### Decimal strings -/

/-- A decimal digit as a number. -/
theorem digitChar_toNat {d : Nat} (hd : d < 10) : (digitChar d).toNat = 48 + d := by
  interval_cases d <;> rfl

/-- The digits' character codes. -/
theorem digit_iff_toNat {c : Char} : ('0' ≤ c ∧ c ≤ '9') ↔ 48 ≤ c.toNat ∧ c.toNat ≤ 57 := Iff.rfl

/-- The host's digit test is membership in `0`..`9`. -/
theorem isDigit_eq_true_iff {c : Char} : isDigit c = true ↔ '0' ≤ c ∧ c ≤ '9' := by
  rw [digit_iff_toNat, isDigit, Bool.and_eq_true, decide_eq_true_eq, decide_eq_true_eq]

/-- A decimal digit is the character of its value. -/
theorem digitChar_sub {c : Char} (hc : '0' ≤ c ∧ c ≤ '9') : digitChar (c.toNat - 48) = c := by
  obtain ⟨low, high⟩ := digit_iff_toNat.mp hc
  rw [digitChar, Nat.add_sub_cancel' low, Char.ofNat_toNat]

theorem digitChar_isDigit {d : Nat} (hd : d < 10) : '0' ≤ digitChar d ∧ digitChar d ≤ '9' := by
  rw [digit_iff_toNat, digitChar_toNat hd]
  omega

theorem decimalValue_append_singleton (cs : List Char) (c : Char) :
    decimalValue (cs ++ [c]) = 10 * decimalValue cs + (c.toNat - 48) := by
  rw [decimalValue, List.foldl_append]
  rfl

theorem render_length (len n : Nat) : (render len n).length = len := by
  induction len generalizing n with
  | zero => rfl
  | succ len ih => rw [render, List.length_append, ih, List.length_singleton]

theorem render_isDigit (len n : Nat) : ∀ c ∈ render len n, '0' ≤ c ∧ c ≤ '9' := by
  induction len generalizing n with
  | zero => exact fun c hc => absurd hc List.not_mem_nil
  | succ len ih =>
    intro c hc
    rcases List.mem_append.mp hc with hc | hc
    · exact ih _ c hc
    · rw [List.mem_singleton.mp hc]
      exact digitChar_isDigit (Nat.mod_lt _ (by decide))

/-- R143: the value of a rendering is the code, if it fits. -/
theorem decimalValue_render {len n : Nat} (h : n < 10 ^ len) : decimalValue (render len n) = n := by
  induction len generalizing n with
  | zero => exact (Nat.lt_one_iff.mp h).symm
  | succ len ih =>
    have fits : n / 10 < 10 ^ len := Nat.div_lt_of_lt_mul (by rwa [← Nat.pow_succ'])
    rw [render, decimalValue_append_singleton, ih fits, digitChar_toNat (Nat.mod_lt _ (by decide)),
      Nat.add_sub_cancel_left, Nat.div_add_mod]

/-- R143: a string of digits has a value below 10 to its length, and is its rendering. -/
theorem render_decimalValue {cs : List Char} (h : ∀ c ∈ cs, '0' ≤ c ∧ c ≤ '9') :
    decimalValue cs < 10 ^ cs.length ∧ render cs.length (decimalValue cs) = cs := by
  induction cs using List.reverseRecOn with
  | nil => exact ⟨Nat.one_pos, rfl⟩
  | append_singleton cs c ih =>
    obtain ⟨below, rendered⟩ := ih fun d hd => h d (List.mem_append_left _ hd)
    have digit := h c (by simp)
    obtain ⟨low, high⟩ := digit_iff_toNat.mp digit
    have quotient : (10 * decimalValue cs + (c.toNat - 48)) / 10 = decimalValue cs := by omega
    have remainder : (10 * decimalValue cs + (c.toNat - 48)) % 10 = c.toNat - 48 := by omega
    rw [decimalValue_append_singleton, List.length_append, List.length_singleton, render, quotient, remainder, rendered,
      digitChar_sub digit, Nat.pow_succ]
    exact ⟨by omega, rfl⟩

/-- Settles O27, from the two round trips. -/
theorem renderingIsABijection : Obligations.RenderingIsABijection :=
  ⟨fun len n h => ⟨render_length len n, render_isDigit len n, decimalValue_render h⟩, fun _ h => render_decimalValue h⟩

end Sys2Proof.Machine
end

section
/-! PROOF. Generation and verification (43_counter.md R153 to R158): `TOTP_GEN` as a composition, what the window search
answers, and the candidate string (R157). -/

namespace Sys2Proof.Machine

open Sys2Proof.Statements

/-! ### Generation -/

/-- R151: with a period, `TSTEP` answers the time step in `COUNTER`. -/
theorem exec_tstep {s : State} (hp : s.period ≠ 0) :
    exec .tstep s = .next (complete .ok (s.setCounter (timeStep s.time s.period))) :=
  exec_of_effect (i := .tstep) ⟨hp, rfl⟩

/-- Settles O29: `hotp` of the counter `TSTEP` leaves is what `TOTP_GEN` writes. -/
theorem totpGenIsTstepThenHotp : Obligations.TotpGenIsTstepThenHotp := by
  refine ⟨rfl, fun s hk hp => ⟨_, _, exec_tstep hp, exec_hotp hk, ?_, rfl, ?_⟩⟩
  · have counter : (complete .ok (s.setCounter (timeStep s.time s.period))).counter = timeStep s.time s.period :=
      State.counter_setCounter s _
    rw [exec_totpGen hk hp, counter, setHotp_complete, complete_ok_complete_ok]
  · rw [← timeStep_toNat]
    exact congrArg BitVec.toNat (State.counter_setCounter s _)

/-- R153: the state a successful `TOTP_GEN` leaves has `KEYVALID = 1` and a period, and in `COUNTER` and `CODE` its own time
step and that step's code. -/
theorem generated_of_totpGen {s g : State} (h : exec .totpGen s = .next g) (h0 : g.status.errcode = 0) :
    g.status.keyvalid = true ∧ g.period ≠ 0 ∧ g.counter = timeStep g.time g.period ∧
      g.code = hotpCode g.ipadH g.opadH g.status.actlen (timeStep g.time g.period) := by
  obtain ⟨_, ⟨hk, hp, rfl⟩, rfl⟩ := exec_inv_of_success h h0
  exact ⟨hk, hp, State.counter_setCounter s _, rfl⟩

/-! ### Verification -/

/-- R156: with `KEYVALID = 1` and a period, `TOTP_VERIFY` answers the verified results. -/
theorem exec_totpVerify {s : State} (hk : s.status.keyvalid = true) (hp : s.period ≠ 0) :
    exec .totpVerify s = .next (complete .ok (setVerified (timeStep s.time s.period) s)) :=
  exec_of_effect (i := .totpVerify) ⟨hk, hp, rfl⟩

@[simp] theorem complete_setVerified_vmatch (c : DWord) (s : State) :
    (complete .ok (setVerified c s)).status.vmatch = (verifyResult s c).2 := rfl

@[simp] theorem complete_setVerified_matchctr (c : DWord) (s : State) :
    (complete .ok (setVerified c s)).matchctr = (verifyResult s c).1 :=
  State.matchctr_setMatchctr (setHotp (verifyResult s c).1 (s.setCounter c)) _

@[simp] theorem complete_setVerified_counter (c : DWord) (s : State) : (complete .ok (setVerified c s)).counter = c :=
  State.counter_setCounter s c

/-- R156: what a success with the counter c, the last counter m and the answer b writes. -/
theorem complete_ok_verified (c m : DWord) (b : Bool) (s : State) :
    complete .ok (((setHotp m (s.setCounter c)).setMatchctr m).setVmatch b) = { s with
      counterHi := hiWord c, counterLo := loWord c, digest := hmacOfCounter s.ipadH s.opadH m
      offset := truncOffset (hmacOfCounter s.ipadH s.opadH m), dtval := truncValue (hmacOfCounter s.ipadH s.opadH m)
      code := hotpCode s.ipadH s.opadH s.status.actlen m, matchctrHi := hiWord m, matchctrLo := loWord m
      status := { okStatus s with vmatch := b } } := by
  rw [complete_ok]
  rfl

/-- A counter of the window is a 64-bit value. -/
theorem toNat_of_inWindow {c w i : Nat} (h : InWindow c w i) : (BitVec.ofNat 64 i).toNat = i := by
  obtain ⟨-, -, hlt⟩ := h
  exact (BitVec.toNat_ofNat ..).trans (Nat.mod_eq_of_lt hlt)

/-- R156: the search's answer, in the statement's terms: whether a counter of the window matches, and then the smallest, else
the last of the window. -/
theorem verifyResult_answers (s : State) (c : DWord) :
    ((verifyResult s c).2 = true ↔ ∃ i, InWindow c.toNat s.window.toNat i ∧ Matches s i) ∧
    ((verifyResult s c).2 = true → InWindow c.toNat s.window.toNat (verifyResult s c).1.toNat ∧
      Matches s (verifyResult s c).1.toNat ∧
      ∀ i, InWindow c.toNat s.window.toNat i → Matches s i → (verifyResult s c).1.toNat ≤ i) ∧
    ((verifyResult s c).2 = false → InWindow c.toNat s.window.toNat (verifyResult s c).1.toNat ∧
      ∀ i, InWindow c.toNat s.window.toNat i → i ≤ (verifyResult s c).1.toNat) := by
  obtain ⟨hmatch, inWindow, before, last⟩ := verifyResult_spec s c
  have smallest {i : Nat} (hi : InWindow c.toNat s.window.toNat i) (hm : Matches s i) :
      (verifyResult s c).1.toNat ≤ i := by
    have value := toNat_of_inWindow hi
    rw [← value] at hi hm ⊢
    exact Nat.le_of_not_lt fun hlt => Bool.false_ne_true ((before _ hi hlt).symm.trans (codeMatches_iff.mpr hm))
  have found (h : (verifyResult s c).2 = true) : Matches s (verifyResult s c).1.toNat :=
    codeMatches_iff.mp (hmatch.symm.trans h)
  have largest (h : (verifyResult s c).2 = false) {i : Nat} (hi : InWindow c.toNat s.window.toNat i) :
      i ≤ (verifyResult s c).1.toNat := by
    obtain ⟨-, high, hlt⟩ := hi
    rw [last h]
    omega
  refine ⟨⟨fun h => ⟨_, inWindow, found h⟩, fun ⟨i, hi, hm⟩ => ?_⟩, fun h => ⟨inWindow, found h, fun i => smallest⟩,
    fun h => ⟨inWindow, fun i => largest h⟩⟩
  by_contra hno
  have hno := Bool.eq_false_iff.mpr hno
  have only : (verifyResult s c).1.toNat = i := Nat.le_antisymm (smallest hi hm) (largest hno hi)
  rw [← only] at hm
  exact Bool.false_ne_true (hno.symm.trans (hmatch.trans (codeMatches_iff.mpr hm)))

/-- R142: with `KEYVALID = 1`, `HOTP` at the counter m answers the results of `hotp` of m. -/
theorem exec_hotp_setCounter {s : State} (m : DWord) (hk : s.status.keyvalid = true) :
    exec .hotp (s.setCounter m) = .next (complete .ok (setHotp m (s.setCounter m))) := by
  rw [exec_hotp (s := s.setCounter m) hk, State.counter_setCounter]

/-- Settles O31: the search's answer, and the results of the last counter. -/
theorem totpVerifySearchesTheWindow : Obligations.TotpVerifySearchesTheWindow := by
  refine ⟨rfl, fun s hk hp => ⟨_, _, exec_totpVerify hk hp, rfl, ?_, ?_⟩⟩
  · rw [complete_setVerified_counter, timeStep_toNat]
  · rw [← timeStep_toNat, complete_setVerified_vmatch, complete_setVerified_matchctr]
    obtain ⟨found, smallest, largest⟩ := verifyResult_answers s (timeStep s.time s.period)
    exact ⟨found, smallest, largest, ⟨_, exec_hotp_setCounter (verifyResult s (timeStep s.time s.period)).1 hk, rfl, rfl,
      rfl, rfl⟩, complete_ok_verified _ _ _ s⟩

/-- R156: with `WINDOW = 0` a verification that passes its checks answers for the time step alone. -/
theorem totpVerify_of_window_eq_zero {s : State} (hk : s.status.keyvalid = true) (hp : s.period ≠ 0)
    (hw : s.window = 0) :
    ∃ t, exec .totpVerify s = .next t ∧ t.status.errcode = 0 ∧
      t.status.vmatch = codeMatches s (timeStep s.time s.period) ∧ t.matchctr = timeStep s.time s.period := by
  refine ⟨_, exec_totpVerify hk hp, rfl, ?_, ?_⟩
  · rw [complete_setVerified_vmatch, verifyResult_of_window_eq_zero hw]
  · rw [complete_setVerified_matchctr, verifyResult_of_window_eq_zero hw]

/-- Settles O32: the generated code is the time step's, so the one counter evaluated matches. -/
theorem verifyAcceptsTheGeneratedCode : Obligations.VerifyAcceptsTheGeneratedCode := by
  intro s t h h0
  obtain ⟨hk, hp, counter, code⟩ := generated_of_totpGen h h0
  obtain ⟨u, hu, hu0, vmatch, matchctr⟩ := totpVerify_of_window_eq_zero (s := { t with
    candHi := 0, candLo := t.code, candlen := t.status.actlen.setWidth 5, window := 0 }) hk hp rfl
  exact ⟨u, hu, hu0, vmatch.trans ((codeMatches_iff_candLo rfl rfl).mpr code.symm), matchctr.trans counter.symm⟩

/-- A window at least as large holds the smaller one's counters. -/
theorem inWindow_mono {c w w' i : Nat} (h : InWindow c w i) (hw : w ≤ w') : InWindow c w' i := by
  obtain ⟨low, high, hlt⟩ := h
  exact ⟨by omega, by omega, hlt⟩

/-- Settles O33: the match of the smaller window is one of the larger. -/
theorem largerWindowKeepsTheMatch : Obligations.LargerWindowKeepsTheMatch := by
  intro s t w h0 h h1 hw
  rcases exec_inv h with ⟨e, -, rfl⟩ | ⟨u, ⟨hk, hp, rfl⟩, rfl⟩
  · rw [complete_status, Status.completed_vmatch, h0] at h1
    cases h1
  · obtain ⟨found, -⟩ := verifyResult_answers s (timeStep s.time s.period)
    obtain ⟨i, inWindow, hmatch⟩ := found.mp h1
    obtain ⟨found', -⟩ := verifyResult_answers { s with window := w } (timeStep s.time s.period)
    exact ⟨_, exec_totpVerify (s := { s with window := w }) hk hp, found'.mpr ⟨i, inWindow_mono inWindow hw, hmatch⟩⟩

/-! ### The candidate string -/

/-- R157: the host's conversion of a string of at most 31 digits. -/
theorem candidate_of_digits {cs : List Char} (hd : ∀ c ∈ cs, '0' ≤ c ∧ c ≤ '9') (hlen : cs.length ≤ 31) :
    candidate cs = (BitVec.ofNat 5 cs.length, BitVec.ofNat 64 (decimalValue cs)) :=
  if_pos ⟨List.all_eq_true.mpr fun c hc => isDigit_eq_true_iff.mpr (hd c hc), hlen⟩

/-- R157: a converted candidate with a length other than 0 is a string of at most 31 digits. -/
theorem digits_of_candidate {cs : List Char} (h : (candidate cs).1.toNat ≠ 0) :
    (∀ c ∈ cs, '0' ≤ c ∧ c ≤ '9') ∧ cs.length ≤ 31 := by
  unfold candidate at h
  split at h
  next hcs =>
    obtain ⟨digits, hlen⟩ := hcs
    exact ⟨fun c hc => isDigit_eq_true_iff.mp (List.all_eq_true.mp digits c hc), hlen⟩
  next => exact absurd rfl h

/-- R143, R157: a string converts to the length and the value of a code exactly when it is the code's rendering. -/
theorem candidate_eq_iff_render {cs : List Char} {len n : Nat} (h1 : 1 ≤ len) (h10 : len ≤ 10) (hn : n < 10 ^ len) :
    ((candidate cs).1.toNat = len ∧ (candidate cs).2.toNat = n) ↔ cs = render len n := by
  have small {l : Nat} (hl : l ≤ 31) : (BitVec.ofNat 5 l).toNat = l := (BitVec.toNat_ofNat ..).trans (Nat.mod_eq_of_lt (by omega))
  have fits {v : Nat} (hv : v < 10 ^ len) : (BitVec.ofNat 64 v).toNat = v :=
    (BitVec.toNat_ofNat ..).trans
      (Nat.mod_eq_of_lt (hv.trans_le ((Nat.pow_le_pow_right (by decide) h10).trans (by decide))))
  constructor
  · rintro ⟨hlen, hvalue⟩
    obtain ⟨digits, h31⟩ := digits_of_candidate (cs := cs) (by omega)
    obtain ⟨below, rendered⟩ := render_decimalValue digits
    rw [candidate_of_digits digits h31] at hlen hvalue
    rw [small h31] at hlen
    rw [hlen] at below rendered
    rw [fits below] at hvalue
    rw [← hvalue, rendered]
  · rintro rfl
    have hlen := render_length len n
    rw [candidate_of_digits (render_isDigit len n) (by omega), hlen, decimalValue_render hn, small (by omega), fits hn]
    exact ⟨rfl, rfl⟩

/-- The inputs of a verification of the converted candidate c (R157, R204) for the counter alone. -/
def State.withCandidate (s : State) (c : BitVec 5 × DWord) : State :=
  { s with candHi := hiWord c.2, candLo := loWord c.2, candlen := c.1, window := 0 }

/-- R155: the converted candidate matches the counters whose code has its length and value. -/
theorem codeMatches_withCandidate_iff {s : State} {c : BitVec 5 × DWord} {i : DWord} :
    codeMatches (s.withCandidate c) i = true ↔
      c.1.toNat = s.status.actlen.toNat ∧ c.2.toNat = (hotpCode s.ipadH s.opadH s.status.actlen i).toNat := by
  have cand : (s.withCandidate c).cand = c.2 := pair_hiWord_loWord _
  rw [codeMatches_iff, Matches, cand, BitVec.ofNat_toNat, BitVec.setWidth_eq]
  rfl

/-- R140: a code fits its length. -/
theorem hotpCode_lt (ip op : Digest) (len : BitVec 4) (c : DWord) : (hotpCode ip op len c).toNat < 10 ^ len.toNat := by
  rw [hotpCode, codeOf_toNat]
  exact Nat.mod_lt _ (by positivity)

/-- Settles O35: with `WINDOW = 0` a match is equality of the candidate's length and value with the code's. -/
theorem verificationIsStringEquality : Obligations.VerificationIsStringEquality := by
  intro s g cs h h0 h1 h10
  obtain ⟨hk, hp, -, code⟩ := generated_of_totpGen h h0
  obtain ⟨v, hv, -, vmatch, -⟩ := totpVerify_of_window_eq_zero (s := g.withCandidate (candidate cs)) hk hp rfl
  refine ⟨v, hv, ?_⟩
  rw [vmatch, codeMatches_withCandidate_iff, code]
  exact candidate_eq_iff_render h1 h10 (hotpCode_lt ..)

end Sys2Proof.Machine
end
